-- ==== Sys2Proof/Word.lean ====
section
/-! DEFINITION. The word types of the block: bytes, 16-bit operation headers and 32-bit operand words (R90, R91). A
value whose width is a parameter of R6 (an address, a register word, a size, a counter) is a natural below
`2^width` (log 11). -/

namespace Sys2Proof

/-- A data byte: one FIFO slot, one staged byte, the data lane of a register access (R24, R63). -/
abbrev Byte := BitVec 8

/-- An operation header (R90). -/
abbrev Header := BitVec 16

/-- An operand word of an encoded operation (R91, R98). -/
abbrev Word := BitVec 32

end Sys2Proof
end

