-- ==== Sys2Proof/Syntax.lean ====
section
/-! DEFINITION. The operations of the opcode table, the engine steps, the agents, and the lines of a
schedule (R20, R93, R95, R102, R103). -/

namespace Sys2Proof

/-- The encoded operations: one constructor per row of spec/opcode_table.json (R93, R94). -/
inductive Instr where
  /-- `REG_RD idx` (R131). -/
  | regRd (idx : BitVec 3)
  /-- `REG_WR idx, byte` (R132). -/
  | regWr (idx : BitVec 3) (byte : Byte)
  /-- `PUSH byte` (R155). -/
  | push (byte : Byte)
  /-- `POP` (R156). -/
  | pop
  /-- `SYNC_WR` (R158). -/
  | syncWr
  /-- `SYNC_RW` (R159). -/
  | syncRw
  /-- `RX_IRQ` (R200). -/
  | rxIrq
  /-- `OPEN` (R270). -/
  | openDev
  /-- `READ dst, size` (R204). -/
  | read (dst size : Word)
  /-- `WRITE src, size` (R230). -/
  | write (src size : Word)
  /-- `CTRL 0, arg` (R271): `arg` is encoded and ignored. -/
  | ctrlReset (arg : Word)
  /-- `CTRL 1, arg` (R272). -/
  | ctrlGet (arg : Word)
  /-- `CTRL opcode, arg` with an opcode other than 0 and 1 (R273). -/
  | ctrlOther (opcode arg : Word)
  /-- `CANCEL` (R208). -/
  | cancel
  deriving DecidableEq, Repr, Inhabited

/-- The engine steps: internal transitions with no header and no encoding (R95). -/
inductive EngineStep where
  | rxcRead | rxcPush | rdPop | rdCopy | txStage | txNext | txPoll | txPut
  deriving DecidableEq, Repr, Inhabited

/-- The agents of R20, and the producer and consumer of the FIFO unit model (R169). -/
inductive Agent where
  | uart | host | clkR | clkW | rxc | rd | tx | producer | consumer
  deriving DecidableEq, Repr, Inhabited

/-- The answer of the environment to the draw of a step (R13, R102). -/
inductive Answer where
  /-- The word a UART register read returns. -/
  | word (w : Nat)
  /-- The byte a POP returns after an overflow. -/
  | byte (b : Byte)
  /-- The outcome of a copy-out: `ok` or `fail`. -/
  | copied (ok : Bool)
  /-- The outcome of a copy-in: `ok` with its bytes, or `fail`. -/
  | copiedIn (bytes : Option (List Byte))
  deriving DecidableEq, Repr, Inhabited

/-- What one schedule line asks for (R103). -/
inductive Action where
  /-- An agent presents encoded operations as a byte stream. -/
  | present (agent : Agent) (bytes : List Byte)
  /-- An engine takes one of its steps. -/
  | engine (e : EngineStep)
  /-- The agent of the `k`-th held request has it taken now (R14, R299). -/
  | resume (k : Nat)
  deriving DecidableEq, Repr, Inhabited

/-- What a schedule line says of the draw of its step (R102). -/
inductive Annotation where
  /-- No annotation. -/
  | bare
  /-- `=> <answer>`. -/
  | answer (a : Answer)
  /-- No line of the notation: the environment or an agent offers the action on its own (R16), and the draw,
  if there is one, is left to the environment. The model's own (log 1, 2, 6, 18). -/
  | environment
  deriving DecidableEq, Repr, Inhabited

/-- The answer an annotation brings. -/
def Annotation.answer? : Annotation → Option Answer
  | .bare | .environment => none
  | .answer a => some a

/-- A schedule line: an action, and its draw annotation (R102, R103). -/
structure Line where
  action : Action
  annotation : Annotation
  deriving DecidableEq, Repr, Inhabited

/-- Why a byte stream names no operation (R97), or holds less than one (log 10). -/
inductive DecodeError where
  /-- OP is 0x0 or 0xD to 0xF. -/
  | reservedOp
  /-- A reserved header field is not zero. -/
  | reservedField
  /-- The stream ends before the operation does. -/
  | truncated
  deriving DecidableEq, Repr, Inhabited

end Sys2Proof
end

