-- ==== Sys2Proof/Config.lean ====
section
/-! DEFINITION. The implementation parameters of R6 with their defaults, and the free values: what the
environment answers and which step it takes next, where a schedule does not say (R13, R16). -/

namespace Sys2Proof

/-- How the units are wired: the assembled block, whose internal operations only the engines issue, or
the units taken alone, whose ports are driven directly (R96, R169; log 13). -/
inductive Wiring where
  | assembled | units
  deriving DecidableEq, Repr, Inhabited

/-- The parameters of R6. A field's default is the value R6 shows; `base` is a launch argument, and its
default is the common premise of 95_test_vectors.md (DESIGN CHOICE, log 3). `P` follows from `N`. -/
structure Config where
  /-- `N`: FIFO and staging capacity. -/
  n : Nat := 64
  /-- `S`: synchronizer stages. -/
  s : Nat := 2
  /-- `STRIDE`: bytes between register indices. -/
  stride : Nat := 4
  /-- `AW`: register-access width in bits. -/
  aw : Nat := 32
  /-- `ADDRW`: width of register and caller-memory addresses. -/
  addrw : Nat := 32
  /-- `BASE`: the register base address. -/
  base : Nat := 0x10000000
  /-- `NREG`: modelled register indices. -/
  nreg : Nat := 8
  /-- `RBR_INDEX`. -/
  rbrIndex : Nat := 0
  /-- `THR_INDEX`. -/
  thrIndex : Nat := 0
  /-- `LSR_INDEX`. -/
  lsrIndex : Nat := 5
  /-- `THRE_MASK`. -/
  threMask : Nat := 0x20
  /-- `LF`. -/
  lf : Byte := 0x0A#8
  /-- `CR`. -/
  cr : Byte := 0x0D#8
  /-- `CW`: width of the transmitted-byte counter. -/
  cw : Nat := 32
  /-- `OVW`: width of the overflow counter. -/
  ovw : Nat := 32
  /-- `SIZEW`: width of a READ or WRITE size. -/
  sizew : Nat := 32
  /-- `SPIN_BOUND`: `none` is the hardware, a number the harness variant (R233). -/
  spinBound : Option Nat := none
  /-- The wiring (R96). -/
  wiring : Wiring := .assembled
  deriving DecidableEq, Repr, Inhabited

/-- The pointer width `P = log2 N` (R6). -/
def Config.p (c : Config) : Nat := Nat.log2 c.n

/-- The default parameters of R6. -/
def Config.default : Config := {}

/-- FREE VALUE: what the UART answers to the register read of step `tick` at an address, where the
schedule gives nothing (R13, R140; log 2); the read takes its low `AW` bits. -/
opaque Config.uartWord : (tick : Nat) → (addr : Nat) → Nat

/-- FREE VALUE: byte `i` of what the environment supplies in step `tick` (R13, R156; log 2). -/
opaque Config.freeByte : (tick : Nat) → (i : Nat) → Byte

/-- FREE VALUE: whether the caller-memory copy of step `tick` succeeds (R12, R13; log 2). -/
opaque Config.copySucceeds : (tick : Nat) → Bool

/-- FREE VALUE: what is offered in step `tick` once no schedule is left: any enabled step of any agent may be
next (R16; log 1). -/
opaque Config.freeAction : (tick : Nat) → Action

end Sys2Proof
end

