-- ==== Sys2Proof/Machine/Gray.lean ====
section
/-! DEFINITION. The pointer code of the clock-domain crossing (R151) and pointer arithmetic (R10). -/

namespace Sys2Proof.Machine

/-- `gray(b) = b ^ (b >> 1)` (R151). -/
def gray (b : Nat) : Nat := b ^^^ (b >>> 1)

/-- `g2b(g) = g ^ (g>>1) ^ ... ^ (g>>(P-1))` on `P` bits (R151). -/
def g2b : (p : Nat) → (g : Nat) → Nat
  | 0, _ => 0
  | p + 1, g => g2b p g ^^^ (g >>> p)

/-- The cursor advance `(a + 1) mod N` (R10). -/
def cursorNext (n a : Nat) : Nat := (a + 1) % n

/-- The unsigned difference `a - b mod N`, in `[0, N)` (R10). -/
def cursorDiff (n a b : Nat) : Nat := (a + (n - b % n)) % n

/-- The new stages of a synchronizer that samples `v`: the first stage takes the sample, every later
stage its predecessor's old value (R158, R159). -/
def syncShift (stages : Nat) (v : Nat) (old : List Nat) : List Nat := (v :: old).take stages

/-- The last stage of a synchronizer, the only one any logic reads (R26). -/
def syncLast (stages : Nat) (l : List Nat) : Nat := l.getD (stages - 1) 0

end Sys2Proof.Machine
end

