-- ==== Sys2Proof/WellFormed.lean ====
section
/-! DEFINITION. Which terms of `Instr` stand for an operation (R94, R273). -/

namespace Sys2Proof

/-- `CTRL_OTHER` is any control opcode other than 0 and 1 (R94); every other field admits every value. -/
def Instr.wellFormed : Instr → Bool
  | .ctrlOther opcode _ => opcode != 0#32 && opcode != 1#32
  | .regRd _ | .regWr _ _ | .push _ | .pop | .syncWr | .syncRw | .rxIrq | .openDev
  | .read _ _ | .write _ _ | .ctrlReset _ | .ctrlGet _ | .cancel => true

end Sys2Proof
end

