-- ==== Sys2Proof/Decode.lean ====
section
/-! DEFINITION. The operation encoding (30_encoding.md): the decoder, total on every byte stream, and
after it the encoder, both from the format H of R90 and the opcode map of R93. -/

namespace Sys2Proof

/-- `OP`, header bits `[15:12]` (R90). -/
def Header.op (h : Header) : BitVec 4 := h.extractLsb' 12 4

/-- `RSV`, header bit `[11]` (R90). -/
def Header.rsv (h : Header) : BitVec 1 := h.extractLsb' 11 1

/-- `IDX`, header bits `[10:8]` (R90). -/
def Header.idx (h : Header) : BitVec 3 := h.extractLsb' 8 3

/-- `DATA`, header bits `[7:0]` (R90). -/
def Header.data (h : Header) : Byte := h.extractLsb' 0 8

/-- The header with the given fields (R90). -/
def Header.make (op : BitVec 4) (idx : BitVec 3) (data : Byte) : Header :=
  ((op ++ 0#1) ++ idx) ++ data

/-- OP values that name no operation (R97). -/
def opReserved (op : BitVec 4) : Bool := op == 0#4 || 0xD#4 ≤ op

/-- OP values whose header uses `IDX` (R90). -/
def opUsesIdx (op : BitVec 4) : Bool := op == 1#4 || op == 2#4

/-- OP values whose header uses `DATA` (R90). -/
def opUsesData (op : BitVec 4) : Bool := op == 2#4 || op == 3#4

/-- A reserved header field is not zero (R97). -/
def Header.reservedFieldSet (h : Header) : Bool :=
  h.rsv != 0#1 || (h.idx != 0#3 && !opUsesIdx h.op) || (h.data != 0#8 && !opUsesData h.op)

/-- OP values followed by two operand words (R91, R92). -/
def opHasOperands (op : BitVec 4) : Bool := op == 9#4 || op == 0xA#4 || op == 0xB#4

/-- The operation a CTRL header and its operand words stand for (R94). -/
def ctrlOf (opcode arg : Word) : Instr :=
  if opcode = 0#32 then .ctrlReset arg
  else if opcode = 1#32 then .ctrlGet arg
  else .ctrlOther opcode arg

/-- The operation of an accepted header with no operand words (R93). -/
def shortOf (h : Header) : Instr :=
  if h.op = 1#4 then .regRd h.idx
  else if h.op = 2#4 then .regWr h.idx h.data
  else if h.op = 3#4 then .push h.data
  else if h.op = 4#4 then .pop
  else if h.op = 5#4 then .syncWr
  else if h.op = 6#4 then .syncRw
  else if h.op = 7#4 then .rxIrq
  else if h.op = 8#4 then .openDev
  else .cancel

/-- The operation of an accepted header with operand words `w1`, `w2` (R91, R93). -/
def longOf (h : Header) (w1 w2 : Word) : Instr :=
  if h.op = 9#4 then .read w1 w2
  else if h.op = 0xA#4 then .write w1 w2
  else ctrlOf w1 w2

/-- A 16-bit word from its bytes, the low byte first (DESIGN CHOICE, log 9). -/
def joinHeader (b0 b1 : Byte) : Header := b1 ++ b0

/-- A 32-bit word from its bytes, the low byte first (DESIGN CHOICE, log 9). -/
def joinWord (b0 b1 b2 b3 : Byte) : Word := ((b3 ++ b2) ++ b1) ++ b0

/-- Read one operation off a byte stream: the operation and the rest of the stream, or why there is
none. `RESERVED_OP` is checked before `RESERVED_FIELD` (R97); the length follows from OP alone (R92). -/
def decode : List Byte → Except DecodeError (Instr × List Byte)
  | b0 :: b1 :: rest =>
    let h := joinHeader b0 b1
    if opReserved h.op then .error .reservedOp
    else if h.reservedFieldSet then .error .reservedField
    else if opHasOperands h.op then
      match rest with
      | c0 :: c1 :: c2 :: c3 :: d0 :: d1 :: d2 :: d3 :: rest' =>
        .ok (longOf h (joinWord c0 c1 c2 c3) (joinWord d0 d1 d2 d3), rest')
      | _ => .error .truncated
    else .ok (shortOf h, rest)
  | _ => .error .truncated

/-- The header of an operation (R93, R98). -/
def Instr.header : Instr → Header
  | .regRd idx => Header.make 1#4 idx 0#8
  | .regWr idx byte => Header.make 2#4 idx byte
  | .push byte => Header.make 3#4 0#3 byte
  | .pop => Header.make 4#4 0#3 0#8
  | .syncWr => Header.make 5#4 0#3 0#8
  | .syncRw => Header.make 6#4 0#3 0#8
  | .rxIrq => Header.make 7#4 0#3 0#8
  | .openDev => Header.make 8#4 0#3 0#8
  | .read _ _ => Header.make 9#4 0#3 0#8
  | .write _ _ => Header.make 0xA#4 0#3 0#8
  | .ctrlReset _ => Header.make 0xB#4 0#3 0#8
  | .ctrlGet _ => Header.make 0xB#4 0#3 0#8
  | .ctrlOther _ _ => Header.make 0xB#4 0#3 0#8
  | .cancel => Header.make 0xC#4 0#3 0#8

/-- The operand words of an operation, in order (R91, R94). -/
def Instr.operands : Instr → List Word
  | .read dst size => [dst, size]
  | .write src size => [src, size]
  | .ctrlReset arg => [0#32, arg]
  | .ctrlGet arg => [1#32, arg]
  | .ctrlOther opcode arg => [opcode, arg]
  | .regRd _ | .regWr _ _ | .push _ | .pop | .syncWr | .syncRw | .rxIrq | .openDev | .cancel => []

/-- The bytes of a header, low byte first (log 9). -/
def headerBytes (h : Header) : List Byte := [h.extractLsb' 0 8, h.extractLsb' 8 8]

/-- The bytes of a word, low byte first (R63, log 9). -/
def wordBytes (w : Word) : List Byte :=
  [w.extractLsb' 0 8, w.extractLsb' 8 8, w.extractLsb' 16 8, w.extractLsb' 24 8]

/-- The byte stream of an operation: its header, then its operand words (R90, R91). -/
def encode (i : Instr) : List Byte := headerBytes i.header ++ i.operands.flatMap wordBytes

/-- Bytes an operation takes in a stream, from its OP (R92). -/
def opLength (op : BitVec 4) : Nat := if opHasOperands op then 10 else 2

/-- A row of spec/opcode_table.json: the header bits it fixes and their values (R93). -/
structure TableRow where
  mnemonic : String
  mask : Header
  pattern : Header
  deriving DecidableEq, Repr

/-- The opcode table's rows. The three CTRL rows share one header and differ in the first operand word
(R94), so they are one row here. -/
def opcodeRows : List TableRow :=
  [⟨"REG_RD", 0xF8FF#16, 0x1000#16⟩, ⟨"REG_WR", 0xF800#16, 0x2000#16⟩, ⟨"PUSH", 0xFF00#16, 0x3000#16⟩,
   ⟨"POP", 0xFFFF#16, 0x4000#16⟩, ⟨"SYNC_WR", 0xFFFF#16, 0x5000#16⟩, ⟨"SYNC_RW", 0xFFFF#16, 0x6000#16⟩,
   ⟨"RX_IRQ", 0xFFFF#16, 0x7000#16⟩, ⟨"OPEN", 0xFFFF#16, 0x8000#16⟩, ⟨"READ", 0xFFFF#16, 0x9000#16⟩,
   ⟨"WRITE", 0xFFFF#16, 0xA000#16⟩, ⟨"CTRL", 0xFFFF#16, 0xB000#16⟩, ⟨"CANCEL", 0xFFFF#16, 0xC000#16⟩]

/-- A header belongs to a row of the opcode table. -/
def TableRow.admits (r : TableRow) (h : Header) : Bool := h &&& r.mask == r.pattern

/-- The first `k` bytes of a number, the least significant first. -/
def numberBytes : Nat → Nat → List Byte
  | 0, _ => []
  | k + 1, w => BitVec.ofNat 8 w :: numberBytes k (w / 256)

/-- An instruction numbered as spec/opcode_table.json numbers its bits, laid out as a byte stream: every
bit at or above `nbits` is zero, up to the longest operation (10 bytes). -/
def tableBytes (nbits w : Nat) : List Byte := numberBytes 10 (w % 2 ^ nbits)

/-- The operation the decoder reads from an instruction numbered as the opcode table numbers it. -/
def decodeTableWord (nbits w : Nat) : Option Instr :=
  match decode (tableBytes nbits w) with
  | .ok (i, _) => some i
  | .error _ => none

end Sys2Proof
end

