-- ==== Sys2Proof/Machine/Launch.lean ====
section
/-! DEFINITION. The configuration check made at reset (R320). -/

namespace Sys2Proof.Machine

/-- `N` is a power of two and at least 2, `S` is at least 2, and a finite `SPIN_BOUND` is at least 1
(R7, R8, R233, R297 `BAD_CONFIG`). -/
def configSizesOk (c : Config) : Bool :=
  2 ≤ c.n && 2 ^ c.p == c.n && 2 ≤ c.s && c.spinBound != some 0

/-- `BASE mod STRIDE = 0` (R65, R297 `MISALIGNED_BASE`). The spec does not say what `STRIDE = 0` gives: here
`BASE mod 0` is `BASE`, so that such a launch is refused unless `BASE` is 0 (DESIGN CHOICE, log 26). Nor
does it say what a stride other than AW/8 gives: such a launch is accepted (DESIGN CHOICE, log 27). -/
def configBaseAligned (c : Config) : Bool := c.base % c.stride == 0

end Sys2Proof.Machine
end

