-- ==== Sys2Proof/Machine/State.lean ====
section
/-! DEFINITION. The block's state as plain data: every field of 10_state.md, the event log, the
configuration, and the model's own fields (the schedule, held requests, the current answer, the step
count and the trace of register-space accesses). -/

namespace Sys2Proof.Machine

/-- The fault reasons of R298. A fault is RECORDED in `State.faults` by a next state (R14, log 8); no
step answers `Outcome.fault`, since the block has no trap (R294). -/
inductive Fault where
  /-- `UNWRITTEN_SLOT`: raised by POP, alone or within RD.POP, when `ovf_flag = 0`, the FIFO shows
  non-empty and the slot at `rptr` was never written (R156). Safe: the pop does not happen, and R168
  shows no run from reset reaches it. -/
  | unwrittenSlot
  deriving DecidableEq, Repr

/-- The refusal reasons. A refusal is recorded in `State.refused` by a next state, and the step after it
answers `Outcome.refused` with the reason (R297, log 7). -/
inductive Refusal where
  /-- No meaning yet: raised by no arm of `exec` (every row has its meaning). Safe. -/
  | notModelled (mnemonic : String)
  /-- `RESERVED_OP`: raised by `step` on a header whose OP names no operation (R97). Safe. -/
  | reservedOp
  /-- `RESERVED_FIELD`: raised by `step` on a header with a reserved field set (R97). Safe. -/
  | reservedField
  /-- `INTERNAL_OP`: raised by `step` when an agent that may not issue REG_RD, REG_WR, PUSH or POP
  presents one (R96). Safe. -/
  | internalOp
  /-- `REG_INDEX_UNMODELLED`: raised by the register mux on an index at or above NREG (R133). Safe. -/
  | regIndexUnmodelled
  /-- `MISALIGNED_BASE`: raised at reset (R65, R320). Safe. -/
  | misalignedBase
  /-- `BAD_CONFIG`: raised at reset (R7, R8, R320). Safe. -/
  | badConfig
  /-- The presented byte stream ends inside an operation: raised by `step`; the model's own (log 10).
  Safe. -/
  | truncated
  /-- A line of a schedule in the notation names a step that is not enabled (an engine step, a request to a
  busy engine, a held request whose hold is not lifted): raised by `step`; R103 calls such a schedule
  ill-formed. An agent's own request to a busy engine is held instead (log 5, 6). Safe. -/
  | lineNotEnabled
  /-- A line of a schedule in the notation lacks the answer its step draws, or carries an answer it does not draw: raised by
  `step`; R102 calls such a schedule ill-formed (log 6). Safe. -/
  | illFormedAnnotation
  deriving DecidableEq, Repr

/-- States of the RX capture engine (R30). -/
inductive RxcState where
  | idle | read | push
  deriving DecidableEq, Repr

/-- States of the read engine (R31). -/
inductive RdState where
  | idle | wait | copy
  deriving DecidableEq, Repr

/-- States of the TX engine (R32). -/
inductive TxState where
  | idle | stage | next | poll | put
  deriving DecidableEq, Repr

/-- The host operations whose completions are logged (R50). -/
inductive HostOp where
  | openOp | readOp | writeOp | ctrlOp
  deriving DecidableEq, Repr

/-- Completion statuses (R291). `attachFatal` is never logged by the block (R308). -/
inductive Status where
  | ok | interrupted | copyFault | unsupported | attachFatal | txTimeout
  deriving DecidableEq, Repr

/-- The numeric code of a status (R291). -/
def Status.code : Status → Nat
  | .ok => 0
  | .interrupted => 1
  | .copyFault => 2
  | .unsupported => 3
  | .attachFatal => 4
  | .txTimeout => 5

/-- The events of the log (R50). A `COPYIN` outcome carries the bytes of its `ok(bytes)` (R12). -/
inductive Event where
  | regrd (idx : Nat) (v : Nat)
  | regwr (idx : Nat) (v : Nat)
  | pushed (b : Byte) (wasFull : Bool)
  | popped (b : Byte)
  | popempty
  | wake
  | irqHandled
  | copyin (addr : Nat) (n : Nat) (outcome : Option (List Byte))
  | copyout (addr : Nat) (bytes : List Byte) (ok : Bool)
  | done (op : HostOp) (status : Status) (count : Nat)
  deriving DecidableEq, Repr

/-- One access to the UART register space: `MemRead(addr, width)` answered `value`, or
`MemWrite(addr, width, value)` (R12). The trace of them is the model's own (log 14). -/
structure BusAccess where
  isWrite : Bool
  addr : Nat
  width : Nat
  value : Nat
  deriving DecidableEq, Repr

/-- The state. Pointers are naturals below `2^P` and a value of a parameter width is a natural below
`2^width` (log 11, 12); the slot arrays `mem` and `stage` are lists of (slot, byte) cells, and an unlisted
slot is `none` (log 12). -/
structure State where
  /-- The configuration (R6, R37): no step changes it. -/
  cfg : Config
  -- the FIFO, W domain (R24 to R27)
  mem : List Host.Cell
  wptr : Nat
  wgray : Nat
  rsync : List Nat
  ovfFlag : Bool
  ovfCount : Nat
  -- the FIFO, R domain (R28, R29)
  rptr : Nat
  rgray : Nat
  wsync : List Nat
  -- the RX capture engine (R30)
  rxcState : RxcState
  rxcByte : Option Byte
  -- the read engine (R31)
  rdState : RdState
  rdByte : Option Byte
  rdDst : Nat
  rdSize : Nat
  -- the TX engine (R32 to R34)
  txState : TxState
  txSrc : Nat
  txSize : Nat
  txOff : Nat
  stage : List Host.Cell
  stageLen : Nat
  stageIdx : Nat
  txCur : Option Byte
  txCrPending : Bool
  txSpins : Nat
  -- the transmitted-byte counter (R35)
  txcount : Nat
  -- bookkeeping and observation (R36, R50)
  refused : Option Refusal
  faults : List Fault
  log : List Event
  -- the model's own fields (log 1, 2, 4, 5, 14)
  sched : List Line
  held : List Instr
  answer : Option Answer
  ticks : Nat
  bus : List BusAccess
  deriving DecidableEq, Repr

/-- The refusal a configuration earns at reset, if any (R320; `BAD_CONFIG` is checked first, log 15). A stride
that is not AW/8 earns none (DESIGN CHOICE, log 27). -/
def State.launchRefusal (c : Config) : Option Refusal :=
  if !configSizesOk c then some .badConfig
  else if !configBaseAligned c then some .misalignedBase
  else none

/-- The state a launch with configuration `c` constructs: the reset table of R52, then the
configuration check (R320). -/
def State.launch (c : Config) : State where
  cfg := c
  mem := []
  wptr := 0
  wgray := 0
  rsync := List.replicate c.s 0
  ovfFlag := false
  ovfCount := 0
  rptr := 0
  rgray := 0
  wsync := List.replicate c.s 0
  rxcState := .idle
  rxcByte := none
  rdState := .idle
  rdByte := none
  rdDst := 0
  rdSize := 0
  txState := .idle
  txSrc := 0
  txSize := 0
  txOff := 0
  stage := []
  stageLen := 0
  stageIdx := 0
  txCur := none
  txCrPending := false
  txSpins := 0
  txcount := 0
  refused := State.launchRefusal c
  faults := []
  log := []
  sched := []
  held := []
  answer := none
  ticks := 0
  bus := []

/-- The machine right after reset: launch with the default parameters (R6, R52, R320). -/
def State.reset : State := State.launch Config.default

end Sys2Proof.Machine
end

