-- ==== Sys2Proof/Machine/Ops.lean ====
section
/-! DEFINITION. The named operations over the state: slot arrays, the event log, the draws, and the four
outcomes that take the place of exceptions: completion, hold, refusal and fault (R12 to R14, R290). -/

namespace Sys2Proof.Machine

/-! ### Slot arrays (R24, R33; log 12) -/

/-- The content of a slot; an unlisted slot is unwritten (R24). -/
def Memory.read : List Host.Cell → Nat → Option Byte
  | [], _ => none
  | (k, b) :: rest, a => if k = a then some b else Memory.read rest a

/-- Write a slot, keeping the slots strictly rising. -/
def Memory.write : List Host.Cell → Nat → Byte → List Host.Cell
  | [], a, b => [(a, b)]
  | (k, c) :: rest, a, b =>
    if a < k then (a, b) :: (k, c) :: rest
    else if a = k then (a, b) :: rest
    else (k, c) :: Memory.write rest a b

/-- Write consecutive slots from slot `a` on (R231). -/
def Memory.writeAll : List Host.Cell → Nat → List Byte → List Host.Cell
  | m, _, [] => m
  | m, a, b :: bs => Memory.writeAll (Memory.write m a b) (a + 1) bs

/-- The canonical form: slots strictly rising. An unlisted slot reads as `none`, which no cell can hold,
so no cell equals what an unlisted slot reads as. -/
def Memory.wf : List Host.Cell → Bool
  | [] => true
  | [_] => true
  | (k, _) :: (l, c) :: rest => k < l && Memory.wf ((l, c) :: rest)

/-! ### The event log and the four outcomes -/

/-- `log E`: append events (R14, R50). -/
def emit (es : List Event) (s : State) : State := { s with log := s.log ++ es }

/-- `done(op, status, count)`: log a completion (R14, R290). -/
def complete (op : HostOp) (status : Status) (count : Nat) (s : State) : State :=
  emit [.done op status count] s

/-- `refuse(reason)`: record the refusal (R14, R297; log 7). -/
def refuse (r : Refusal) (s : State) : State := { s with refused := some r }

/-- `fault(reason)`: record the fault (R14, R298; log 8). -/
def recordFault (f : Fault) (s : State) : State := { s with faults := s.faults ++ [f] }

/-- `hold`: the agent waits and keeps its request (R14, R299; log 5). -/
def hold (i : Instr) (s : State) : State := { s with held := s.held ++ [i] }

/-! ### Draws (R13, R102; log 2)

Each takes the answer at hand, or else the free value of this step. -/

/-- A value on `w` bits (R10). -/
def wrap (w v : Nat) : Nat := v % 2 ^ w

/-- The `AW`-bit word the UART answers to a read of `addr` (R131, R140). -/
def drawWord (addr : Nat) (s : State) : Nat :=
  wrap s.cfg.aw
    (match s.answer with
    | some (.word w) => w
    | _ => Config.uartWord s.ticks addr)

/-- The byte a POP returns after an overflow (R156). -/
def drawByte (s : State) : Byte :=
  match s.answer with
  | some (.byte b) => b
  | _ => Config.freeByte s.ticks 0

/-- `CopyOut`: whether the copy succeeds (R12). -/
def drawCopyOut (s : State) : Bool :=
  match s.answer with
  | some (.copied ok) => ok
  | _ => Config.copySucceeds s.ticks

/-- Exactly `k` bytes: those given, then free ones. -/
def fitBytes (tick k : Nat) (bytes : List Byte) : List Byte :=
  (List.range k).map fun i => bytes.getD i (Config.freeByte tick i)

/-- `CopyIn` of `k` bytes: `ok` with `k` bytes, or `fail` as `none` (R12). -/
def drawCopyIn (k : Nat) (s : State) : Option (List Byte) :=
  match s.answer with
  | some (.copiedIn (some bytes)) => some (fitBytes s.ticks k bytes)
  | some (.copiedIn none) => none
  | _ => if Config.copySucceeds s.ticks then some (fitBytes s.ticks k []) else none

/-- The byte a register the rules call written holds; a free byte where it holds none, which R38 shows no
run reaches (log 16). -/
def heldByte (o : Option Byte) (s : State) : Byte := o.getD (Config.freeByte s.ticks 0)

end Sys2Proof.Machine
end

