-- ==== Sys2Proof/Machine/Operands.lean ====
section
/-! DEFINITION. Operand assembly and address forms (R98, R130, R231, R63), the 16550 register select of
R135 and the LSR layout of R137. -/

namespace Sys2Proof.Machine

/-- `regaddr(idx) = (BASE + idx * STRIDE) mod 2^ADDRW` (R130). -/
def regaddr (c : Config) (idx : Nat) : Nat := wrap c.addrw (c.base + idx * c.stride)

/-- Bytes of one register access, `AW/8` (R61, R131), whatever the stride is (log 27). -/
def accessBytes (c : Config) : Nat := c.aw / 8

/-- `zext(byte)`: the word a register write puts on the bus (R63, R98). -/
def regWriteWord (byte : Byte) : Nat := byte.toNat

/-- `v[7:0]`: the data byte of a register word (R63). -/
def dataLane (v : Nat) : Byte := BitVec.ofNat 8 v

/-- An operand word taken as an address, on `ADDRW` bits (R62, R98; log 11). -/
def addrOperand (c : Config) (w : Word) : Nat := wrap c.addrw w.toNat

/-- An operand word taken as a size, on `SIZEW` bits (R31, R32, R98; log 11). -/
def sizeOperand (c : Config) (w : Word) : Nat := wrap c.sizew w.toNat

/-- `idx = zext_32(H[10:8])` (R98). -/
def idxOperand (idx : BitVec 3) : Nat := idx.toNat

/-- The `CW/8` bytes CTRL_GET copies out: byte `k` is bits `8k` to `8k+7` of the counter (R63, R272). -/
def counterBytes (c : Config) (count : Nat) : List Byte :=
  (List.range (c.cw / 8)).map fun k => BitVec.ofNat 8 (count >>> (8 * k))

/-- The caller address of the next chunk, `(tx_src + tx_off) mod 2^ADDRW` (R231). -/
def chunkAddr (s : State) : Nat := wrap s.cfg.addrw (s.txSrc + s.txOff)

/-- The length of the next chunk, `min(N, tx_size - tx_off)` (R231). -/
def chunkLen (s : State) : Nat := min s.cfg.n (s.txSize - s.txOff)

/-- `(v & THRE_MASK) ≠ 0` (R137, R233), of the data byte: the block ignores the other bits of a register read
(R63, R131; D9, U7). -/
def threSet (c : Config) (v : Nat) : Bool := (dataLane v).toNat &&& c.threMask != 0

/-- The registers of a 16550-compatible UART (R135). -/
inductive UartReg where
  | rbr | thr | dll | ier | dlm | iir | fcr | lcr | mcr | lsr | msr | scr
  deriving DecidableEq, Repr

/-- The register select of R135, by index, LCR.DLAB and direction; `none` where the table gives no
effect. Informative: the block uses only the rows of R136. -/
def uartSelect (idx : Nat) (dlab isWrite : Bool) : Option UartReg :=
  match idx, dlab, isWrite with
  | 0, false, false => some .rbr
  | 0, false, true => some .thr
  | 0, true, _ => some .dll
  | 1, false, _ => some .ier
  | 1, true, _ => some .dlm
  | 2, _, false => some .iir
  | 2, _, true => some .fcr
  | 3, _, _ => some .lcr
  | 4, _, _ => some .mcr
  | 5, _, false => some .lsr
  | 6, _, false => some .msr
  | 7, _, _ => some .scr
  | _, _, _ => none

/-- The bits of the line-status register (R137). -/
inductive LsrBit where
  | dr | oe | pe | fe | bi | thre | temt | fifoError
  deriving DecidableEq, Repr

/-- The position of a line-status bit (R137). -/
def LsrBit.position : LsrBit → Nat
  | .dr => 0
  | .oe => 1
  | .pe => 2
  | .fe => 3
  | .bi => 4
  | .thre => 5
  | .temt => 6
  | .fifoError => 7

/-- A line-status bit of a word read from the LSR (R137). -/
def lsrBit (b : LsrBit) (v : Nat) : Bool := v.testBit b.position

end Sys2Proof.Machine
end

