-- ==== Sys2Proof/Machine/Control.lean ====
section
/-! DEFINITION. OPEN and the control port (44_control.md). -/

namespace Sys2Proof.Machine

/-- OPEN (R270). -/
def execOpen (s : State) : Host.Outcome State Fault Refusal := .next (complete .openOp .ok 0 s)

/-- CTRL_RESET (R271): the argument is not read. -/
def execCtrlReset (_arg : Word) (s : State) : Host.Outcome State Fault Refusal :=
  .next (complete .ctrlOp .ok 0 { s with txcount := 0 })

/-- CTRL_GET (R272). -/
def execCtrlGet (arg : Word) (s : State) : Host.Outcome State Fault Refusal :=
  let ok := drawCopyOut s
  .next
    (complete .ctrlOp (if ok then .ok else .copyFault) 0
      (emit [.copyout (addrOperand s.cfg arg) (counterBytes s.cfg s.txcount) ok] s))

/-- CTRL_OTHER (R273): no state change, the argument is not accessed. -/
def execCtrlOther (_opcode _arg : Word) (s : State) : Host.Outcome State Fault Refusal :=
  .next (complete .ctrlOp .unsupported 0 s)

end Sys2Proof.Machine
end

