-- ==== Sys2Proof/Machine/Flags.lean ====
section
/-! DEFINITION. The derived signals of R40 and the status outputs of R43: functions of the state. -/

namespace Sys2Proof.Machine

/-- The last stage of `wsync`, the R domain's copy of `wgray` (R29). -/
def wsyncLast (s : State) : Nat := syncLast s.cfg.s s.wsync

/-- The last stage of `rsync`, the W domain's copy of `rgray` (R26). -/
def rsyncLast (s : State) : Nat := syncLast s.cfg.s s.rsync

/-- `wq = g2b(wsync[S-1])`: the R domain's view of the write pointer (R40). -/
def wq (s : State) : Nat := g2b s.cfg.p (wsyncLast s)

/-- `rq = g2b(rsync[S-1])`: the W domain's view of the read pointer (R40). -/
def rq (s : State) : Nat := g2b s.cfg.p (rsyncLast s)

/-- `empty_r = (rgray = wsync[S-1])` (R40, R152). -/
def emptyR (s : State) : Bool := s.rgray == wsyncLast s

/-- `full_w = (gray((wptr + 1) mod N) = rsync[S-1])` (R40, R153). -/
def fullW (s : State) : Bool := gray (cursorNext s.cfg.n s.wptr) == rsyncLast s

/-- The `was_full` of PUSH: `(wptr + 1) mod N = g2b(rsync[S-1])`, `full_w` before the write (R155). -/
def wasFull (s : State) : Bool := cursorNext s.cfg.n s.wptr == rq s

/-- `rd_count = (wq - rptr) mod N` (R40, R154). -/
def rdCount (s : State) : Nat := cursorDiff s.cfg.n (wq s) s.rptr

/-- `wr_count = (wptr - rq) mod N` (R40, R154). -/
def wrCount (s : State) : Nat := cursorDiff s.cfg.n s.wptr (rq s)

/-- `rx_avail = not empty_r`: the wake level (R40, R210). -/
def rxAvail (s : State) : Bool := !emptyR s

/-- `waiting = (rd_state = RD_WAIT)` (R40, R210). -/
def waiting (s : State) : Bool := s.rdState == .wait

/-- Which requests can be taken now: RX_IRQ, READ and WRITE hold while their engine is busy, and no
other operation holds (R200, R204, R230, R299). -/
def ready (i : Instr) (s : State) : Bool :=
  match i with
  | .rxIrq => s.rxcState == .idle
  | .read _ _ => s.rdState == .idle
  | .write _ _ => s.txState == .idle
  | .regRd _ | .regWr _ _ | .push _ | .pop | .syncWr | .syncRw | .openDev | .ctrlReset _ | .ctrlGet _
  | .ctrlOther _ _ | .cancel => true

end Sys2Proof.Machine
end

