-- ==== Sys2Proof/Machine/RegMux.lean ====
section
/-! DEFINITION. The UART register mux: REG_RD and REG_WR (40_regmux.md). -/

namespace Sys2Proof.Machine

/-- `RegRead(idx)`: the state after, and the word the UART answered; `none` when refused (R131, R133,
R140). -/
def regRead (idx : Nat) (s : State) : State × Option Nat :=
  if s.cfg.nreg ≤ idx then (refuse .regIndexUnmodelled s, none)
  else
    let v := drawWord (regaddr s.cfg idx) s
    (emit [.regrd idx v] { s with bus := s.bus ++ [⟨false, regaddr s.cfg idx, accessBytes s.cfg, v⟩] }, some v)

/-- `RegWrite(idx, byte)`: the state after, and whether the write was made (R132, R133). -/
def regWrite (idx : Nat) (byte : Byte) (s : State) : State × Bool :=
  if s.cfg.nreg ≤ idx then (refuse .regIndexUnmodelled s, false)
  else
    let w := regWriteWord byte
    (emit [.regwr idx w] { s with bus := s.bus ++ [⟨true, regaddr s.cfg idx, accessBytes s.cfg, w⟩] }, true)

/-- REG_RD (R131). -/
def execRegRd (idx : BitVec 3) (s : State) : Host.Outcome State Fault Refusal :=
  .next (regRead (idxOperand idx) s).1

/-- REG_WR (R132). -/
def execRegWr (idx : BitVec 3) (byte : Byte) (s : State) : Host.Outcome State Fault Refusal :=
  .next (regWrite (idxOperand idx) byte s).1

end Sys2Proof.Machine
end

