-- ==== Sys2Proof/Machine/RxFifo.lean ====
section
/-! DEFINITION. The asynchronous receive FIFO: PUSH, POP, SYNC_WR, SYNC_RW (41_rxfifo.md). -/

namespace Sys2Proof.Machine

/-- The state after a push of `byte`, with policy UNCHECKED_ADVANCE: it writes and advances even when
the buffer is full (R155, R162). -/
def pushByte (byte : Byte) (s : State) : State :=
  let full := wasFull s
  emit [.pushed byte full]
    { s with
      mem := Memory.write s.mem s.wptr byte
      wptr := cursorNext s.cfg.n s.wptr
      wgray := gray (cursorNext s.cfg.n s.wptr)
      ovfFlag := s.ovfFlag || full
      ovfCount := if full then wrap s.cfg.ovw (s.ovfCount + 1) else s.ovfCount }

/-- The byte a pop of a non-empty FIFO returns: a draw after an overflow, else the slot at `rptr`;
`none` if that slot was never written (R156). -/
def popSource (s : State) : Option Byte :=
  if s.ovfFlag then some (drawByte s) else Memory.read s.mem s.rptr

/-- The state after a pop, and the byte it returned (R156). On the fault nothing else happens (log 8). -/
def popByte (s : State) : State × Option Byte :=
  if emptyR s then (emit [.popempty] s, none)
  else
    match popSource s with
    | none => (recordFault .unwrittenSlot s, none)
    | some b =>
      (emit [.popped b]
        { s with
          rptr := cursorNext s.cfg.n s.rptr
          rgray := gray (cursorNext s.cfg.n s.rptr) }, some b)

/-- PUSH (R155). -/
def execPush (byte : Byte) (s : State) : Host.Outcome State Fault Refusal := .next (pushByte byte s)

/-- POP (R156). -/
def execPop (s : State) : Host.Outcome State Fault Refusal := .next (popByte s).1

/-- SYNC_WR (R158). -/
def execSyncWr (s : State) : Host.Outcome State Fault Refusal :=
  .next { s with wsync := syncShift s.cfg.s s.wgray s.wsync }

/-- SYNC_RW (R159). -/
def execSyncRw (s : State) : Host.Outcome State Fault Refusal :=
  .next { s with rsync := syncShift s.cfg.s s.rgray s.rsync }

end Sys2Proof.Machine
end

