-- ==== Sys2Proof/Machine/RxPath.lean ====
section
/-! DEFINITION. The receive path: RX_IRQ, READ, CANCEL, and the steps of the RX capture engine and of the
read engine (42_rx_path.md). -/

namespace Sys2Proof.Machine

/-- RX_IRQ (R200). -/
def execRxIrq (s : State) : Host.Outcome State Fault Refusal :=
  .next (if ready .rxIrq s then { s with rxcState := .read } else hold .rxIrq s)

/-- READ (R204). -/
def execRead (dst size : Word) (s : State) : Host.Outcome State Fault Refusal :=
  .next
    (if ready (.read dst size) s then
      { s with rdDst := addrOperand s.cfg dst, rdSize := sizeOperand s.cfg size, rdState := .wait }
     else hold (.read dst size) s)

/-- CANCEL (R208): it ends a wait and is without effect otherwise. -/
def execCancel (s : State) : Host.Outcome State Fault Refusal :=
  .next
    (if waiting s then { complete .readOp .interrupted 0 s with rdState := .idle } else s)

/-- RXC.READ (R201): exactly one read of the receive register; no DR check, no IIR read. -/
def rxcRead (s : State) : State :=
  match regRead s.cfg.rbrIndex s with
  | (s', none) => s'
  | (s', some v) => { s' with rxcByte := some (dataLane v), rxcState := .push }

/-- RXC.PUSH (R202): insert, then wake, then the handled status. -/
def rxcPush (s : State) : State :=
  { emit [.wake, .irqHandled] (pushByte (heldByte s.rxcByte s) s) with rxcByte := none, rxcState := .idle }

/-- RD.POP (R206). -/
def rdPop (s : State) : State :=
  match popByte s with
  | (s', none) => s'
  | (s', some b) => { s' with rdByte := some b, rdState := .copy }

/-- RD.COPY (R207): on a copy failure the popped byte is lost. -/
def rdCopy (s : State) : State :=
  let b := heldByte s.rdByte s
  let ok := drawCopyOut s
  let s' := emit [.copyout s.rdDst [b] ok] s
  { (if ok then complete .readOp .ok 1 s' else complete .readOp .copyFault 0 s') with
    rdByte := none, rdState := .idle }

end Sys2Proof.Machine
end

