-- ==== Sys2Proof/Machine/TxPath.lean ====
section
/-! DEFINITION. The transmit path: WRITE and the steps of the TX engine (43_tx_path.md). -/

namespace Sys2Proof.Machine

/-- WRITE (R230). -/
def execWrite (src size : Word) (s : State) : Host.Outcome State Fault Refusal :=
  .next
    (if ready (.write src size) s then
      { s with
        txSrc := addrOperand s.cfg src
        txSize := sizeOperand s.cfg size
        txOff := 0
        stageLen := 0
        stageIdx := 0
        txState := .stage }
     else hold (.write src size) s)

/-- TX.STAGE (R231): complete the call, or copy the next chunk whole or fail whole. -/
def txStage (s : State) : State :=
  if s.txOff = s.txSize then { complete .writeOp .ok s.txSize s with txState := .idle }
  else
    let k := chunkLen s
    let o := drawCopyIn k s
    let s' := emit [.copyin (chunkAddr s) k o] s
    match o with
    | none => { complete .writeOp .copyFault 0 s' with txState := .idle }
    | some bytes =>
      { s' with
        stage := Memory.writeAll s.stage 0 bytes
        stageLen := k
        stageIdx := 0
        txOff := s.txOff + k
        txState := .next }

/-- TX.NEXT (R232): take the next byte of the chunk; an LF leaves its CR pending. -/
def txNext (s : State) : State :=
  if s.stageIdx = s.stageLen then { s with txState := .stage }
  else
    let b := heldByte (Memory.read s.stage s.stageIdx) s
    { s with
      txCur := some b
      txCrPending := b == s.cfg.lf
      stageIdx := s.stageIdx + 1
      txSpins := 0
      txState := .poll }

/-- What a failed poll leaves (R233): nothing without a bound; with one, a count, and at the bound the
harness timeout. -/
def pollFailed (s : State) : State :=
  match s.cfg.spinBound with
  | none => s
  | some bound =>
    let s' := { s with txSpins := s.txSpins + 1 }
    if s.txSpins + 1 = bound then { complete .writeOp .txTimeout 0 s' with txState := .idle } else s'

/-- TX.POLL (R233). -/
def txPoll (s : State) : State :=
  match regRead s.cfg.lsrIndex s with
  | (s', none) => s'
  | (s', some v) => if threSet s.cfg v then { s' with txState := .put } else pollFailed s'

/-- TX.PUT (R234): write, count, and after an LF go back to poll for its CR. -/
def txPut (s : State) : State :=
  match regWrite s.cfg.thrIndex (heldByte s.txCur s) s with
  | (s', false) => s'
  | (s', true) =>
    if s.txCrPending then
      { s' with
        txcount := wrap s.cfg.cw (s.txcount + 1)
        txCur := some s.cfg.cr
        txCrPending := false
        txSpins := 0
        txState := .poll }
    else { s' with txcount := wrap s.cfg.cw (s.txcount + 1), txCur := none, txState := .next }

end Sys2Proof.Machine
end

