-- ==== Sys2Proof/Machine/Engines.lean ====
section
/-! DEFINITION. The engines' steps: which are enabled, and what each does (R95, R201, R202, R206, R207,
R231 to R234). -/

namespace Sys2Proof.Machine

/-- An engine step is enabled. The engines exist in the assembled block only (R169; log 13). -/
def engineEnabled (e : EngineStep) (s : State) : Bool :=
  s.cfg.wiring == .assembled &&
  match e with
  | .rxcRead => s.rxcState == .read
  | .rxcPush => s.rxcState == .push
  | .rdPop => s.rdState == .wait && !emptyR s
  | .rdCopy => s.rdState == .copy
  | .txStage => s.txState == .stage
  | .txNext => s.txState == .next
  | .txPoll => s.txState == .poll
  | .txPut => s.txState == .put

/-- The state after an engine step. -/
def engineStep : EngineStep → State → State
  | .rxcRead => rxcRead
  | .rxcPush => rxcPush
  | .rdPop => rdPop
  | .rdCopy => rdCopy
  | .txStage => txStage
  | .txNext => txNext
  | .txPoll => txPoll
  | .txPut => txPut

end Sys2Proof.Machine
end

