-- ==== Sys2Proof/Machine/Dispatch.lean ====
section
/-! DEFINITION. The meaning of each operation of the opcode table, one arm per constructor. -/

namespace Sys2Proof.Machine

/-- The meaning of an operation that has been presented and admitted (R93, R96). -/
def exec (i : Instr) (s : State) : Host.Outcome State Fault Refusal :=
  match i with
  | .regRd idx => Sys2Proof.Machine.execRegRd idx s
  | .regWr idx byte => Sys2Proof.Machine.execRegWr idx byte s
  | .push byte => Sys2Proof.Machine.execPush byte s
  | .pop => Sys2Proof.Machine.execPop s
  | .syncWr => Sys2Proof.Machine.execSyncWr s
  | .syncRw => Sys2Proof.Machine.execSyncRw s
  | .rxIrq => Sys2Proof.Machine.execRxIrq s
  | .openDev => Sys2Proof.Machine.execOpen s
  | .read dst size => Sys2Proof.Machine.execRead dst size s
  | .write src size => Sys2Proof.Machine.execWrite src size s
  | .ctrlReset arg => Sys2Proof.Machine.execCtrlReset arg s
  | .ctrlGet arg => Sys2Proof.Machine.execCtrlGet arg s
  | .ctrlOther opcode arg => Sys2Proof.Machine.execCtrlOther opcode arg s
  | .cancel => Sys2Proof.Machine.execCancel s

end Sys2Proof.Machine
end

