-- ==== Sys2Proof/Machine/Draws.lean ====
section
/-! DEFINITION. Which draw a step makes, whether a schedule line says what it must of it (R13, R102), and
which lines are of a schedule (R103). -/

namespace Sys2Proof.Machine

/-- What a step draws. -/
inductive DrawKind where
  /-- Nothing. -/
  | nothing
  /-- The word of a register read. -/
  | word
  /-- The byte of a pop. -/
  | byte
  /-- The outcome of a copy-out. -/
  | copyOut
  /-- The outcome of a copy-in of `k` bytes. -/
  | copyIn (k : Nat)
  deriving DecidableEq, Repr

/-- A register read draws its word, unless it is refused before (R131, R133). -/
def regDraw (idx : Nat) (s : State) : DrawKind := if idx < s.cfg.nreg then .word else .nothing

/-- A pop draws its byte once `ovf_flag = 1`, if it returns one (R102, R156). -/
def popDraw (s : State) : DrawKind := if s.ovfFlag && !emptyR s then .byte else .nothing

/-- TX.STAGE draws a copy-in unless it completes the call (R102, R231). -/
def stageDraw (s : State) : DrawKind := if s.txOff = s.txSize then .nothing else .copyIn (chunkLen s)

/-- What an operation draws (R102). -/
def instrDraw (i : Instr) (s : State) : DrawKind :=
  match i with
  | .regRd idx => regDraw (idxOperand idx) s
  | .pop => popDraw s
  | .ctrlGet _ => .copyOut
  | .regWr _ _ | .push _ | .syncWr | .syncRw | .rxIrq | .openDev | .read _ _ | .write _ _ | .ctrlReset _
  | .ctrlOther _ _ | .cancel => .nothing

/-- What an engine step draws (R102). -/
def engineDraw (e : EngineStep) (s : State) : DrawKind :=
  match e with
  | .rxcRead => regDraw s.cfg.rbrIndex s
  | .txPoll => regDraw s.cfg.lsrIndex s
  | .rdPop => popDraw s
  | .rdCopy => .copyOut
  | .txStage => stageDraw s
  | .rxcPush | .txNext | .txPut => .nothing

/-- An answer is one the environment can give to a draw: a register word has `AW` bits, and a copy-in brings
exactly the bytes asked for (R12, R131). -/
def answerFits (c : Config) (k : DrawKind) (a : Answer) : Bool :=
  match k, a with
  | .word, .word w => w < 2 ^ c.aw
  | .byte, .byte _ => true
  | .copyOut, .copied _ => true
  | .copyIn _, .copiedIn none => true
  | .copyIn k, .copiedIn (some bytes) => bytes.length == k
  | _, _ => false

/-- A line is annotated as its step's draw asks: an answer of the draw's kind where there is a draw, and
none where there is none (R102). -/
def annotationOk (c : Config) (k : DrawKind) (an : Annotation) : Bool :=
  match an with
  | .environment => true
  | .bare => k == .nothing
  | .answer a => answerFits c k a

/-- The line is one of a schedule in the notation of R100 to R103, for which R102 and R103 say what is
ill-formed; another is offered by an agent or the environment on its own (R16; log 6). -/
def inNotation (an : Annotation) : Bool :=
  match an with
  | .bare | .answer _ => true
  | .environment => false

/-- The annotation of what is left of a stream after its first operation: a schedule's line stays one, whose
one answer its first operation took, and an offer stays an offer (DESIGN CHOICE, log 17). -/
def restAnnotation (an : Annotation) : Annotation :=
  match an with
  | .bare | .answer _ => .bare
  | .environment => .environment

end Sys2Proof.Machine
end

