-- ==== Sys2Proof/Machine/Schedule.lean ====
section
/-! DEFINITION. Which step is taken: presenting an operation, an engine step, a held request; pseudo-
operations; and how a table word is placed as the next line (R95, R96, R101, R103). -/

namespace Sys2Proof.Machine

/-- Which agent may issue an operation (R93, R96). REG_RD, REG_WR, PUSH and POP are internal: in the
assembled block the engines issue them within their own steps and no presented header is admitted; in
the units taken alone each is admitted from its one issuer (log 13). -/
def admitted (w : Wiring) (a : Agent) (i : Instr) : Bool :=
  match i with
  | .regRd _ => w == .units && (a == .rxc || a == .tx)
  | .regWr _ _ => w == .units && a == .tx
  | .push _ => w == .units && a == .producer
  | .pop => w == .units && a == .consumer
  | .syncWr | .syncRw | .rxIrq | .openDev | .read _ _ | .write _ _ | .ctrlReset _ | .ctrlGet _
  | .ctrlOther _ _ | .cancel => true

/-- The agent the opcode table names as an operation's issuer (R93). For REG_RD it names two, RXC and TX: a
line of text or a placed word of it is presented by RXC, and its step leaves the same state as from TX
(DESIGN CHOICE, log 13). -/
def issuerOf (i : Instr) : Agent :=
  match i with
  | .regRd _ => .rxc
  | .regWr _ _ => .tx
  | .push _ => .producer
  | .pop => .consumer
  | .syncWr => .clkR
  | .syncRw => .clkW
  | .rxIrq => .uart
  | .openDev | .read _ _ | .write _ _ | .ctrlReset _ | .ctrlGet _ | .ctrlOther _ _ | .cancel => .host

/-- The refusal a decoding error stands for (R97). -/
def refusalOf (e : DecodeError) : Refusal :=
  match e with
  | .reservedOp => .reservedOp
  | .reservedField => .reservedField
  | .truncated => .truncated

/-- What is left of a presented stream stays the agent's next line: of a schedule's line a schedule's line,
of an offer an offer, whose requests therefore hold while their engine is busy (R14, R92, R299; DESIGN
CHOICE, log 17). -/
def keepRest (an : Annotation) (a : Agent) (rest : List Byte) (s : State) : State :=
  if rest.isEmpty then s else { s with sched := ⟨.present a rest, restAnnotation an⟩ :: s.sched }

/-- A step that is not enabled: a schedule's line of it is ill-formed and refused (R103), and an offer of it is
not taken (R16; log 6). -/
def notEnabled (an : Annotation) (s : State) : State := if inNotation an then refuse .lineNotEnabled s else s

/-- Take a step on a line: an enabled step on a well-annotated line is taken; a schedule's line otherwise is
ill-formed (R102, R103). An offer is always well annotated. The spec orders the checks of a header (R97)
and not these two: a line that fails both is refused `lineNotEnabled` (DESIGN CHOICE, log 6). -/
def takeStep (an : Annotation) (enabled annotated : Bool) (taken : Host.Outcome State Fault Refusal)
    (s : State) : Host.Outcome State Fault Refusal :=
  if !enabled then .next (notEnabled an s)
  else if !annotated then .next (refuse .illFormedAnnotation s)
  else taken

/-- An agent presents a byte stream: its first operation is decoded and checked in the order of R97, and
executed. A header refused by R97 is refused by that reason whatever else its line lacks (DESIGN CHOICE,
log 6). A request to a busy engine is not enabled (R14): a schedule's line of it is ill-formed (R103),
and an agent that offers it waits and keeps it (R299; log 5). -/
def runPresent (an : Annotation) (a : Agent) (bytes : List Byte) (s : State) :
    Host.Outcome State Fault Refusal :=
  match decode bytes with
  | .error e => .next (refuse (refusalOf e) s)
  | .ok (i, rest) =>
    if admitted s.cfg.wiring a i then
      takeStep an (ready i s || !inNotation an) (annotationOk s.cfg (instrDraw i s) an)
        (exec i (keepRest an a rest s)) s
    else .next (refuse .internalOp s)

/-- An engine takes a step, if enabled (R95). -/
def runEngine (an : Annotation) (e : EngineStep) (s : State) : Host.Outcome State Fault Refusal :=
  takeStep an (engineEnabled e s) (annotationOk s.cfg (engineDraw e s) an) (.next (engineStep e s)) s

/-- The `k`-th held request is taken, if its hold is lifted (R299; log 5) and its issuer may issue it
(R96). -/
def runResume (an : Annotation) (k : Nat) (s : State) : Host.Outcome State Fault Refusal :=
  match s.held[k]? with
  | none => .next (notEnabled an s)
  | some i =>
    takeStep an (ready i s && admitted s.cfg.wiring (issuerOf i) i) (annotationOk s.cfg (instrDraw i s) an)
      (exec i { s with held := s.held.eraseIdx k }) s

/-- Take one line. -/
def runAction (l : Line) (s : State) : Host.Outcome State Fault Refusal :=
  match l.action with
  | .present a bytes => runPresent l.annotation a bytes s
  | .engine e => runEngine l.annotation e s
  | .resume k => runResume l.annotation k s

/-- The state in which a line's action is taken: the line is off the schedule, its answer is at hand, and
the step is counted (log 2). -/
def takeLine (l : Line) (rest : List Line) (s : State) : State :=
  { s with sched := rest, answer := l.annotation.answer?, ticks := s.ticks + 1 }

/-- What is offered once no schedule is left (R16; log 1). -/
def freeLine (s : State) : Line := ⟨Config.freeAction s.ticks, .environment⟩

/-- The next step: on the first line of the schedule, or, once none is left, on the free scheduler's offer
(R16, R103; log 1). -/
def nextStep (s : State) : Host.Outcome State Fault Refusal :=
  match s.sched with
  | l :: rest => runAction l (takeLine l rest s)
  | [] => runAction (freeLine s) (takeLine (freeLine s) [] s)

/-- The pseudo-operations of R101. -/
inductive Pseudo where
  | xferW | xferR
  | recv (b : Byte)
  | getc (dst : Word)
  | ctrlReset
  | ctrlGet (arg : Word) (ok : Bool)
  deriving DecidableEq, Repr

/-- A line on which an operation's own issuer presents it. -/
def opLine (i : Instr) (an : Annotation) : Line := ⟨.present (issuerOf i) (encode i), an⟩

/-- A line on which an engine takes a step. -/
def engineLine (e : EngineStep) (an : Annotation) : Line := ⟨.engine e, an⟩

/-- The expansion of a pseudo-operation (R101). -/
def expandPseudo (c : Config) (p : Pseudo) : List Line :=
  match p with
  | .xferW => List.replicate c.s (opLine .syncWr .bare)
  | .xferR => List.replicate c.s (opLine .syncRw .bare)
  | .recv b =>
    [opLine .rxIrq .bare, engineLine .rxcRead (.answer (.word b.toNat)), engineLine .rxcPush .bare]
  | .getc dst =>
    [opLine (.read dst 1#32) .bare, engineLine .rdPop .bare, engineLine .rdCopy (.answer (.copied true))]
  | .ctrlReset => [opLine (.ctrlReset 0#32) .bare]
  | .ctrlGet arg ok => [opLine (.ctrlGet arg) (.answer (.copied ok))]

/-- The wiring under which an operation is admitted from its issuer (R96; log 13). -/
def wiringFor (w : Wiring) (i : Instr) : Wiring := if admitted w (issuerOf i) i then w else .units

/-- Place an instruction, numbered as the opcode table numbers it, as the next line of the schedule: its
bytes, without the zeros past its length, offered by its issuer under a wiring that admits it, its draw left
to the environment (log 18). Bytes that decode to nothing are presented by the host as they are. -/
def placeWord (nbits w : Nat) (s : State) : State :=
  let bytes := tableBytes nbits w
  match decode bytes with
  | .ok (i, rest) =>
    { s with
      sched := ⟨.present (issuerOf i) (bytes.take (bytes.length - rest.length)), .environment⟩ :: s.sched
      cfg := { s.cfg with wiring := wiringFor s.cfg.wiring i } }
  | .error _ => { s with sched := ⟨.present .host bytes, .environment⟩ :: s.sched }

end Sys2Proof.Machine
end

