-- ==== Sys2Proof/Machine/Step.lean ====
section
/-! DEFINITION. One step of the machine (R16), and placing an instruction for the next step. -/

namespace Sys2Proof.Machine

/-- One step: a refused state has none (R36, R297); otherwise the next line is taken (R16). -/
def step (s : State) : Host.Outcome State Fault Refusal :=
  match s.refused with
  | some r => .refused r
  | none => nextStep s

/-- `s` with an instruction, numbered as spec/opcode_table.json numbers it, placed where `step` takes its
next operation. -/
def State.withFetchWord (s : State) (nbits w : Nat) : State := placeWord nbits w s

end Sys2Proof.Machine
end

