-- ==== Sys2Proof/Machine/Assembler.lean ====
section
/-! DEFINITION. The textual schedule notation of R100 to R103: one line of text to the schedule lines it
stands for. Characters are compared by code, so that no quote stands in this file. -/

namespace Sys2Proof.Machine

/-- Tokens of a schedule line. -/
inductive Token where
  | word (cs : List Char)
  | number (n : Nat)
  | text (bytes : List Byte)
  | comma
  | arrow
  deriving DecidableEq, Repr

/-- What the reader of a line is inside of. -/
inductive LexMode where
  | plain
  | word (acc : List Char)
  | equals
  | charStart
  | charEscape
  | charEnd (b : Byte)
  | text (acc : List Byte)
  | textEscape (acc : List Byte)
  deriving DecidableEq, Repr

/-- The value of a decimal or hexadecimal digit. -/
def digitValue (c : Char) : Option Nat :=
  let k := c.toNat
  if 48 ≤ k ∧ k ≤ 57 then some (k - 48)
  else if 97 ≤ k ∧ k ≤ 102 then some (k - 87)
  else if 65 ≤ k ∧ k ≤ 70 then some (k - 55)
  else none

/-- A number in a base, most significant digit first. -/
def digitsIn (base : Nat) : Nat → List Char → Option Nat
  | acc, [] => some acc
  | acc, c :: cs =>
    match digitValue c with
    | some d => if d < base then digitsIn base (acc * base + d) cs else none
    | none => none

/-- Numbers are decimal, or hexadecimal with `0x` (R100). -/
def parseNumber : List Char → Option Nat
  | [] => none
  | '0' :: 'x' :: c :: cs => digitsIn 16 0 (c :: cs)
  | cs => digitsIn 10 0 cs

/-- The token of a finished word: a number if it starts with a digit. -/
def wordToken (cs : List Char) : Option Token :=
  match cs with
  | [] => none
  | c :: _ => if 48 ≤ c.toNat ∧ c.toNat ≤ 57 then (parseNumber cs).map .number else some (.word cs)

/-- The byte a quoted character stands for: its code. R100 says nothing of a character whose code is no
byte; the model refuses the line (DESIGN CHOICE, log 22). -/
def charByte (c : Char) : Option Byte := if c.toNat < 256 then some (BitVec.ofNat 8 c.toNat) else none

/-- The byte an escaped character stands for: `\n` is 0x0A and `\r` is 0x0D (R100); any other character
stands for itself (DESIGN CHOICE, log 22). -/
def escapedByte (c : Char) : Option Byte :=
  if c = 'n' then some 0x0A#8 else if c = 'r' then some 0x0D#8 else charByte c

/-- The mode and the tokens a character gives outside words, characters and texts; `none` for a
character the notation has no use for. -/
def lexPlain (c : Char) : Option (LexMode × List Token) :=
  let k := c.toNat
  if k = 32 ∨ k = 9 ∨ k = 13 then some (.plain, [])
  else if k = 44 then some (.plain, [.comma])
  else if k = 61 then some (.equals, [])
  else if k = 39 then some (.charStart, [])
  else if k = 34 then some (.text [], [])
  else if c.isAlphanum ∨ k = 95 ∨ k = 46 then some (.word [c], [])
  else none

/-- One character of a line. R100 lets a byte be written as a quoted character and is silent on other
operands and on answers: here a quoted character is a number, its code, wherever a number may stand (DESIGN
CHOICE, log 22). -/
def lexStep (m : LexMode) (c : Char) : Option (LexMode × List Token) :=
  let k := c.toNat
  match m with
  | .plain => lexPlain c
  | .word acc =>
    if c.isAlphanum ∨ k = 95 ∨ k = 46 then some (.word (acc ++ [c]), [])
    else
      match wordToken acc, lexPlain c with
      | some t, some (m', ts) => some (m', t :: ts)
      | _, _ => none
  | .equals => if k = 62 then some (.plain, [.arrow]) else none
  | .charStart => if k = 92 then some (.charEscape, []) else (charByte c).map fun b => (.charEnd b, [])
  | .charEscape => (escapedByte c).map fun b => (.charEnd b, [])
  | .charEnd b => if k = 39 then some (.plain, [.number b.toNat]) else none
  | .text acc =>
    if k = 34 then some (.plain, [.text acc])
    else if k = 92 then some (.textEscape acc, [])
    else (charByte c).map fun b => (.text (acc ++ [b]), [])
  | .textEscape acc => (escapedByte c).map fun b => (.text (acc ++ [b]), [])

/-- The tokens left when a line ends. -/
def lexEnd (m : LexMode) : Option (List Token) :=
  match m with
  | .plain => some []
  | .word acc => (wordToken acc).map fun t => [t]
  | .equals | .charStart | .charEscape | .charEnd _ | .text _ | .textEscape _ => none

/-- A `;` outside a character or a text starts a comment (R100). -/
def startsComment (m : LexMode) (c : Char) : Bool :=
  c.toNat == 59 &&
  match m with
  | .plain | .word _ => true
  | .equals | .charStart | .charEscape | .charEnd _ | .text _ | .textEscape _ => false

/-- The tokens of a line. -/
def lexLine : LexMode → List Char → Option (List Token)
  | m, [] => lexEnd m
  | m, c :: cs =>
    if startsComment m c then lexEnd m
    else
      match lexStep m c with
      | none => none
      | some (m', ts) => (lexLine m' cs).map fun rest => ts ++ rest

/-- A statement of a line: an operation, an engine step or a pseudo-operation. -/
inductive Stmt where
  | op (i : Instr)
  | engine (e : EngineStep)
  | pseudo (p : Pseudo)
  deriving DecidableEq, Repr

/-- A register index operand, 0 to 7 (R100). -/
def idxArg (n : Nat) : Option (BitVec 3) := if n < 8 then some (BitVec.ofNat 3 n) else none

/-- A byte operand. -/
def byteArg (n : Nat) : Option Byte := if n < 256 then some (BitVec.ofNat 8 n) else none

/-- A 32-bit operand. -/
def wordArg (n : Nat) : Option Word := if n < 2 ^ 32 then some (BitVec.ofNat 32 n) else none

/-- A statement with no operand (R95, R100, R101). -/
def bareStmt (name : List Char) : Option Stmt :=
  if name = "POP".toList then some (.op .pop)
  else if name = "SYNC_WR".toList then some (.op .syncWr)
  else if name = "SYNC_RW".toList then some (.op .syncRw)
  else if name = "RX_IRQ".toList then some (.op .rxIrq)
  else if name = "OPEN".toList then some (.op .openDev)
  else if name = "CANCEL".toList then some (.op .cancel)
  else if name = "XFER_W".toList then some (.pseudo .xferW)
  else if name = "XFER_R".toList then some (.pseudo .xferR)
  else if name = "CTRL_RESET".toList then some (.pseudo .ctrlReset)
  else if name = "RXC.READ".toList then some (.engine .rxcRead)
  else if name = "RXC.PUSH".toList then some (.engine .rxcPush)
  else if name = "RD.POP".toList then some (.engine .rdPop)
  else if name = "RD.COPY".toList then some (.engine .rdCopy)
  else if name = "TX.STAGE".toList then some (.engine .txStage)
  else if name = "TX.NEXT".toList then some (.engine .txNext)
  else if name = "TX.POLL".toList then some (.engine .txPoll)
  else if name = "TX.PUT".toList then some (.engine .txPut)
  else none

/-- A statement with one operand (R100, R101). -/
def unaryStmt (name : List Char) (a : Nat) : Option Stmt :=
  if name = "REG_RD".toList then (idxArg a).map fun i => .op (.regRd i)
  else if name = "PUSH".toList then (byteArg a).map fun b => .op (.push b)
  else if name = "RECV".toList then (byteArg a).map fun b => .pseudo (.recv b)
  else if name = "GETC".toList then (wordArg a).map fun w => .pseudo (.getc w)
  else if name = "CTRL_GET".toList then (wordArg a).map fun w => .op (.ctrlGet w)
  else none

/-- A statement with two operands (R100). -/
def binaryStmt (name : List Char) (a b : Nat) : Option Stmt :=
  if name = "REG_WR".toList then
    match idxArg a, byteArg b with
    | some i, some v => some (.op (.regWr i v))
    | _, _ => none
  else
    match wordArg a, wordArg b with
    | some x, some y =>
      if name = "READ".toList then some (.op (.read x y))
      else if name = "WRITE".toList then some (.op (.write x y))
      else if name = "CTRL".toList then some (.op (ctrlOf x y))
      else none
    | _, _ => none

/-- The statement of a line's tokens before its annotation. -/
def parseStmt (ts : List Token) : Option Stmt :=
  match ts with
  | [.word name] => bareStmt name
  | [.word name, .number a] => unaryStmt name a
  | [.word name, .number a, .comma, .number b] => binaryStmt name a b
  | _ => none

/-- The answer the tokens after an arrow stand for (R102): the byte of a pop, or the word of a register
read, as a number; the outcome of a copy; for TX.STAGE the outcome with the bytes of the chunk. -/
def parseAnswer (isPop isStage : Bool) (ts : List Token) : Option Answer :=
  match ts with
  | [.number n] => if isPop then (byteArg n).map .byte else some (.word n)
  | [.word cs, .text bytes] => if cs = "ok".toList then some (.copiedIn (some bytes)) else none
  | [.word cs] =>
    if cs = "fail".toList then some (if isStage then .copiedIn none else .copied false)
    else if cs = "ok".toList && !isStage then some (.copied true)
    else none
  | _ => none

/-- The annotation of a line. Whether it is what the step draws is checked when the step is taken, since
that can depend on the state (Machine/Draws.lean). -/
def parseAnnotation (isPop isStage : Bool) (ann : Option (List Token)) : Option Annotation :=
  match ann with
  | none => some .bare
  | some ts => (parseAnswer isPop isStage ts).map .answer

/-- The lines of a statement with its annotation (R101, R102). A pseudo-operation brings the annotations of
its own steps; CTRL_GET takes its line's, as the operation it stands for. -/
def stmtLines (c : Config) (st : Stmt) (ann : Option (List Token)) : Option (List Line) :=
  match st with
  | .op i => (parseAnnotation (i == .pop) false ann).map fun an => [opLine i an]
  | .engine e => (parseAnnotation (e == .rdPop) (e == .txStage) ann).map fun an => [engineLine e an]
  | .pseudo p => if ann.isNone then some (expandPseudo c p) else none

/-- The tokens before and after the arrow of a line. -/
def splitArrow : List Token → List Token × Option (List Token)
  | [] => ([], none)
  | .arrow :: rest => ([], some rest)
  | t :: rest => (t :: (splitArrow rest).1, (splitArrow rest).2)

/-- The schedule lines one line of text stands for; `none` if it is ill-formed. A blank line stands for
none (R100 to R103). -/
def assembleLine (c : Config) (text : List Char) : Option (List Line) :=
  match lexLine .plain text with
  | none => none
  | some [] => some []
  | some ts =>
    match parseStmt (splitArrow ts).1 with
    | none => none
    | some st => stmtLines c st (splitArrow ts).2

/-- A schedule: its lines of text in order (R103). -/
def assemble (c : Config) : List (List Char) → Option (List Line)
  | [] => some []
  | l :: ls =>
    match assembleLine c l, assemble c ls with
    | some a, some b => some (a ++ b)
    | _, _ => none

end Sys2Proof.Machine
end

