-- ==== Sys2Proof/Machine/Observe.lean ====
section
/-! DEFINITION. The projections of the event log that claims are stated over (R51), and LF expansion
(R237). -/

namespace Sys2Proof.Machine

/-- The transmitted stream: `v[7:0]` of every `REGWR(THR_INDEX, v)` (R51). -/
def txs (c : Config) (log : List Event) : List Byte :=
  log.filterMap fun e =>
    match e with
    | .regwr idx v => if idx = c.thrIndex then some (dataLane v) else none
    | _ => none

/-- The received stream: `b` of every `PUSHED(b, _)` (R51). -/
def rxs (log : List Event) : List Byte :=
  log.filterMap fun e =>
    match e with
    | .pushed b _ => some b
    | _ => none

/-- The consumed stream: `b` of every `POPPED(b)` (R51). -/
def cons (log : List Event) : List Byte :=
  log.filterMap fun e =>
    match e with
    | .popped b => some b
    | _ => none

/-- The bytes an event delivers: those of a successful `COPYOUT` that RD.COPY logged, which is one that the
completion of a READ follows (R207, R272; log 23). -/
def deliveredBy (e : Event) (following : Option Event) : List Byte :=
  match e, following with
  | .copyout _ bytes true, some (.done .readOp _ _) => bytes
  | _, _ => []

/-- The delivered stream: the bytes of every `COPYOUT(_, [b], ok)` logged by RD.COPY (R51). -/
def delivered : List Event → List Byte
  | [] => []
  | e :: es => deliveredBy e es.head? ++ delivered es

/-- The completions: the `DONE` events (R51). -/
def completions (log : List Event) : List Event :=
  log.filter fun e =>
    match e with
    | .done _ _ _ => true
    | _ => false

/-- The bytes of every successful chunk copy, in order: the concatenation of the staged chunks (R237). -/
def stagedBytes (log : List Event) : List Byte :=
  log.flatMap fun e =>
    match e with
    | .copyin _ _ (some bytes) => bytes
    | _ => []

/-- `expand(bytes)`: each LF becomes LF, CR (R237). -/
def expandLf (c : Config) (bytes : List Byte) : List Byte :=
  bytes.flatMap fun b => if b = c.lf then [b, c.cr] else [b]

end Sys2Proof.Machine
end

