-- ==== Sys2Proof/Safety.lean ====
section
/-! DEFINITION. What counts as a safe state, in the terms the claims use: launch premises (R326),
quiescence (R327), the invariants the rules name (R38, R157, R237, R328), the domains' views (R22, R41), and
what a step may log (R292), and runs, fairness and progress (R331). -/

namespace Sys2Proof

open Machine

/-! ### Premises and quiescence -/

/-- `P_NOFAULT` (R326). -/
def NoFault (s : State) : Prop := s.refused = none ∧ s.faults = []

/-- `P_BASE`, as far as the block sees it: the base is aligned (R326). -/
def BaseAligned (c : Config) : Prop := c.base % c.stride = 0

/-- A configuration the launch accepts: `N` a power of two at least 2, `S` at least 2, a finite
`SPIN_BOUND` at least 1, and an aligned base (R7, R8, R65, R320). -/
def GoodConfig (c : Config) : Prop :=
  (∃ k, 1 ≤ k ∧ c.n = 2 ^ k) ∧ 2 ≤ c.s ∧ c.spinBound ≠ some 0 ∧ BaseAligned c

/-- A quiescent state (R327). -/
def Quiescent (s : State) : Prop :=
  s.rxcState = .idle ∧ s.rdState = .idle ∧ s.txState = .idle ∧
  wsyncLast s = s.wgray ∧ rsyncLast s = s.rgray ∧ NoFault s

/-- Every register access the engines make is to a modelled index (R133, R136). -/
def RolesModelled (c : Config) : Prop :=
  c.rbrIndex < c.nreg ∧ c.thrIndex < c.nreg ∧ c.lsrIndex < c.nreg

/-! ### The domains (R22, R41) -/

/-- The W-domain fields of a state (R22, R30). -/
structure WView where
  mem : List Host.Cell
  wptr : Nat
  wgray : Nat
  rsync : List Nat
  ovfFlag : Bool
  ovfCount : Nat
  rxcState : RxcState
  rxcByte : Option Byte
  deriving DecidableEq, Repr

/-- The R-domain FIFO and read-engine fields of a state (R22, R31). -/
structure RdView where
  rptr : Nat
  rgray : Nat
  wsync : List Nat
  rdState : RdState
  rdByte : Option Byte
  rdDst : Nat
  rdSize : Nat
  deriving DecidableEq, Repr

/-- The TX engine's fields and the counter, in the R domain (R22, R32 to R35). -/
structure TxView where
  txState : TxState
  txSrc : Nat
  txSize : Nat
  txOff : Nat
  stage : List Host.Cell
  stageLen : Nat
  stageIdx : Nat
  txCur : Option Byte
  txCrPending : Bool
  txSpins : Nat
  txcount : Nat
  deriving DecidableEq, Repr

/-- The fields of neither domain that no operation's meaning writes: configuration, schedule, answer and
step count. -/
structure ModelView where
  cfg : Config
  sched : List Line
  answer : Option Answer
  ticks : Nat
  deriving DecidableEq, Repr

/-- The W-domain view of a state. -/
def wView (s : State) : WView :=
  ⟨s.mem, s.wptr, s.wgray, s.rsync, s.ovfFlag, s.ovfCount, s.rxcState, s.rxcByte⟩

/-- The read side's view of a state. -/
def rdView (s : State) : RdView :=
  ⟨s.rptr, s.rgray, s.wsync, s.rdState, s.rdByte, s.rdDst, s.rdSize⟩

/-- The transmit side's view of a state. -/
def txView (s : State) : TxView :=
  ⟨s.txState, s.txSrc, s.txSize, s.txOff, s.stage, s.stageLen, s.stageIdx, s.txCur, s.txCrPending,
    s.txSpins, s.txcount⟩

/-- The model's own bookkeeping in a state. -/
def modelView (s : State) : ModelView := ⟨s.cfg, s.sched, s.answer, s.ticks⟩

/-- Two states agree on the model's bookkeeping, the refusal, the faults and the held requests. -/
def SameRest (s t : State) : Prop :=
  modelView t = modelView s ∧ t.refused = s.refused ∧ t.faults = s.faults ∧ t.held = s.held

/-- Two states agree on everything but the event log: every register, flag, slot and bookkeeping field. -/
def SameButLog (s t : State) : Prop :=
  wView t = wView s ∧ rdView t = rdView s ∧ txView t = txView s ∧ SameRest s t ∧ t.bus = s.bus

/-! ### Invariants -/

/-- The invariants of R38. -/
def EngineInv (s : State) : Prop :=
  s.wgray = gray s.wptr ∧ s.rgray = gray s.rptr ∧
  s.stageIdx ≤ s.stageLen ∧ s.stageLen ≤ s.cfg.n ∧
  s.txOff ≤ s.txSize ∧
  (s.txState = .poll ∨ s.txState = .put → s.txCur ≠ none) ∧
  (s.rxcState = .push ↔ s.rxcByte ≠ none) ∧
  (s.rdState = .copy → s.rdByte ≠ none)

/-- The pointers and synchronizer stages are `P`-bit values and the synchronizers have `S` stages, under a
configuration the launch accepts (R25 to R29). -/
def PointersInRange (s : State) : Prop :=
  GoodConfig s.cfg ∧ s.wptr < s.cfg.n ∧ s.rptr < s.cfg.n ∧
  s.wsync.length = s.cfg.s ∧ s.rsync.length = s.cfg.s ∧
  (∀ g ∈ s.wsync, g < s.cfg.n) ∧ (∀ g ∈ s.rsync, g < s.cfg.n)

/-- The slot arrays keep their canonical form and have `N` slots (R24, R33). -/
def ArraysInForm (s : State) : Prop :=
  Memory.wf s.mem = true ∧ (∀ cell ∈ s.mem, cell.1 < s.cfg.n) ∧
  Memory.wf s.stage = true ∧ (∀ cell ∈ s.stage, cell.1 < s.cfg.n)

/-- A value of a parameter width fits its width (R27, R31, R32, R35; log 11). -/
def ValuesInWidth (s : State) : Prop :=
  s.ovfCount < 2 ^ s.cfg.ovw ∧ s.rdDst < 2 ^ s.cfg.addrw ∧ s.rdSize < 2 ^ s.cfg.sizew ∧
  s.txSrc < 2 ^ s.cfg.addrw ∧ s.txSize < 2 ^ s.cfg.sizew ∧ s.txOff < 2 ^ s.cfg.sizew ∧
  s.txcount < 2 ^ s.cfg.cw

/-- Every register access of the trace is one of AW/8 bytes at the address of a modelled register (R61, R64,
R68): one word inside the block's register window where the stride is AW/8, as R65 writes it (log 27). -/
def AccessesInWindow (s : State) : Prop :=
  ∀ a ∈ s.bus, a.width = accessBytes s.cfg ∧ ∃ idx, idx < s.cfg.nreg ∧ a.addr = regaddr s.cfg idx

/-- A pointer value that has been advanced `k` times from 0, in gray code. -/
def grayOfCount (n k : Nat) : Nat := gray (k % n)

/-- Numbers that never rise along the list. -/
def Descending (l : List Nat) : Prop := l.Pairwise fun a b => b ≤ a

/-- The FIFO as counts (R157, with R70 to R72 and R160): with `Wn` pushes and `Rn` pops so far, both
pointers and every synchronizer stage are counts of pushes (`ws`) or pops (`rs`) taken modulo `N`, each
stage holding an earlier count than the one it copies; no more than `N - 1` pushes are ahead of the write
side's view of the reader; the pops so far returned the first `Rn` pushed bytes; and every byte pushed
and not popped is in its slot. -/
def FifoCounts (s : State) (ws rs : List Nat) : Prop :=
  let wn := (rxs s.log).length
  let rn := (cons s.log).length
  s.wsync = ws.map (grayOfCount s.cfg.n) ∧ s.rsync = rs.map (grayOfCount s.cfg.n) ∧
  s.wptr = wn % s.cfg.n ∧ s.rptr = rn % s.cfg.n ∧
  Descending (wn :: ws ++ rn :: rs) ∧
  (∀ k ∈ rs, wn ≤ k + (s.cfg.n - 1)) ∧
  cons s.log = (rxs s.log).take rn ∧
  ∀ k, rn ≤ k → k < wn → Memory.read s.mem (k % s.cfg.n) = (rxs s.log)[k]?

/-- Order and integrity of the FIFO while no overflow was flagged (R157). -/
def FifoIntact (s : State) : Prop := s.ovfFlag = false → ∃ ws rs, FifoCounts s ws rs

/-- The bytes of the current chunk still to be taken (R232). -/
def chunkRest (s : State) : List Byte :=
  (List.range' s.stageIdx (s.stageLen - s.stageIdx)).filterMap (Memory.read s.stage)

/-- The bytes the TX engine has taken or staged and not yet written to the transmit register (R232 to
R235). -/
def pendingTx (s : State) : List Byte :=
  (if s.txState = .poll ∨ s.txState = .put then
    s.txCur.toList ++ (if s.txCrPending then [s.cfg.cr] else [])
   else []) ++ expandLf s.cfg (chunkRest s)

/-- Every staged byte has been or will be sent, in order, each LF followed by a CR and nothing else added
(R235, R237, R239), in the assembled block with no spin bound. -/
def TransmitFaithful (s : State) : Prop :=
  s.cfg.wiring = .assembled → s.cfg.spinBound = none →
    expandLf s.cfg (stagedBytes s.log) = txs s.cfg s.log ++ pendingTx s ∧
    (s.txState = .idle ∨ s.txState = .stage → s.stageIdx = s.stageLen) ∧
    ∀ i, s.stageIdx ≤ i → i < s.stageLen → Memory.read s.stage i ≠ none

/-- Follow the transmit discipline along a log: after a line-status read with THRE set a write to the
transmit register may follow, once; `none` as soon as one does without it (R328 item 3). -/
def followPolls (c : Config) : Bool → List Event → Option Bool
  | armed, [] => some armed
  | armed, .regrd idx v :: es =>
    if idx = c.lsrIndex then followPolls c (threSet c v) es else followPolls c armed es
  | armed, .regwr idx _ :: es =>
    if idx = c.thrIndex then (if armed then followPolls c false es else none) else followPolls c armed es
  | armed, .pushed _ _ :: es => followPolls c armed es
  | armed, .popped _ :: es => followPolls c armed es
  | armed, .popempty :: es => followPolls c armed es
  | armed, .wake :: es => followPolls c armed es
  | armed, .irqHandled :: es => followPolls c armed es
  | armed, .copyin _ _ _ :: es => followPolls c armed es
  | armed, .copyout _ _ _ :: es => followPolls c armed es
  | armed, .done _ _ _ :: es => followPolls c armed es

/-- Every write to the transmit register follows a line-status read with THRE set, in the assembled block
whose receive register is not its line-status register (R328 item 3, R235). -/
def PolledBeforePut (s : State) : Prop :=
  s.cfg.wiring = .assembled → s.cfg.rbrIndex ≠ s.cfg.lsrIndex →
    followPolls s.cfg false s.log = some (s.txState == .put)

/-- The pairings of operation, status and count that can complete (R291, R292). -/
def doneAllowed (c : Config) (op : HostOp) (status : Status) (count : Nat) : Bool :=
  match op, status with
  | .openOp, .ok => count == 0
  | .readOp, .ok => count == 1
  | .readOp, .copyFault => count == 0
  | .readOp, .interrupted => count == 0
  | .writeOp, .ok => true
  | .writeOp, .copyFault => count == 0
  | .writeOp, .txTimeout => c.spinBound.isSome && count == 0
  | .ctrlOp, .ok => count == 0
  | .ctrlOp, .copyFault => count == 0
  | .ctrlOp, .unsupported => count == 0
  | _, _ => false

/-- Every completion of the log is one R292 allows. -/
def CompletionsAllowed (s : State) : Prop :=
  ∀ op status count, Event.done op status count ∈ s.log → doneAllowed s.cfg op status count = true

/-! ### Runs and fairness (R331) -/

/-- An infinite run: from each state the next is reached by taking the next line of an infinite schedule,
so every line is one that R102 and R103 let stand, or an offer (R16, R103). -/
def IsRun (ls : Nat → Line) (r : Nat → State) : Prop :=
  ∀ k, step { r k with sched := [ls k] } = .next (r (k + 1))

/-- A line presents an operation. -/
def Presents (i : Instr) (l : Line) : Prop := ∃ a rest, l.action = .present a (encode i ++ rest)

/-- `F_CLK`: SYNC_WR and SYNC_RW are taken infinitely often (R331). -/
def FClk (ls : Nat → Line) : Prop :=
  (∀ k, ∃ j, k ≤ j ∧ Presents .syncWr (ls j)) ∧ ∀ k, ∃ j, k ≤ j ∧ Presents .syncRw (ls j)

/-- `F_ENG`: an engine step that stays enabled is eventually taken (R331). -/
def FEng (ls : Nat → Line) (r : Nat → State) : Prop :=
  ∀ e k, (∀ j, k ≤ j → engineEnabled e (r j) = true) → ∃ j, k ≤ j ∧ (ls j).action = .engine e

/-- `F_THRE`: whenever the TX engine is in `TX_POLL`, some later LSR read of it returns THRE set (R331). -/
def FThre (ls : Nat → Line) (r : Nat → State) : Prop :=
  ∀ k, (r k).txState = .poll → ∃ j v, k ≤ j ∧ (ls j).action = .engine .txPoll ∧
    (r (j + 1)).log = (r j).log ++ [.regrd (r j).cfg.lsrIndex v] ∧ threSet (r j).cfg v = true

/-- After state `k` of a run an operation completes, with one of the given statuses. -/
def CompletesAfter (r : Nat → State) (k : Nat) (op : HostOp) (statuses : List Status) : Prop :=
  ∃ j es status count, k < j ∧ (r j).log = (r k).log ++ es ∧ Event.done op status count ∈ es ∧
    status ∈ statuses

/-! ### Progress of a read and of a write (R331, R160, R240) -/

/-- How many SYNC_WR edges the read side is from seeing a byte, while no push or pop comes between: 0 if it
sees one, and more than `S` if none is on its way. -/
def edgesToAvail (s : State) : Nat := (s.wgray :: s.wsync).reverse.findIdx fun g => g != s.rgray

/-- A bound on the steps of the READ in progress still to be taken: the edges to a byte, RD.POP, RD.COPY. -/
def readWork (s : State) : Nat :=
  match s.rdState with
  | .idle => 0
  | .wait => edgesToAvail s + 2
  | .copy => 1

/-- A bound on the TX steps still to be taken for the WRITE in progress, failed polls not counted: eight
for each byte not staged, six for each byte of the chunk not taken, and the rest of the current byte. -/
def txWork (s : State) : Nat :=
  let rest := 8 * (s.txSize - s.txOff)
  let chunk := rest + 6 * (s.stageLen - s.stageIdx) + 2
  match s.txState with
  | .idle => 0
  | .stage => rest + 1
  | .next => chunk
  | .poll => if s.txCrPending then chunk + 4 else chunk + 2
  | .put => if s.txCrPending then chunk + 3 else chunk + 1

end Sys2Proof
end

