-- ==== Sys2Proof/Certificates/Slice0/Obligations.lean ====
section
/-! DEFINITION. The statements for the provers, each over every state and configuration its hypotheses
admit. A draw is the `answer` of the state where it carries one of the right kind, and a free value
otherwise; a statement that names a drawn value holds for every one. -/

open Sys2Proof Sys2Proof.Machine

/-! ### Encoding (30_encoding.md) -/

/-- R90, R91, R93, R94, R98: decoding the encoding of a well-formed operation gives it back, whatever follows
in the stream. It holds of the model's byte order (log 9). -/
def Obligations.DecodeUndoesEncode : Prop :=
  ∀ (i : Instr) (rest : List Byte), i.wellFormed = true → decode (encode i ++ rest) = .ok (i, rest)

/-- R93, R97: what the decoder accepts is the encoding of one well-formed operation and nothing else, so each
accepted word has one meaning. It holds of the model's byte order (log 9). -/
def Obligations.DecodedStreamIsItsEncoding : Prop :=
  ∀ (bytes rest : List Byte) (i : Instr),
    decode bytes = .ok (i, rest) → i.wellFormed = true ∧ bytes = encode i ++ rest

/-- R97: which headers are refused `RESERVED_OP`, and which of the others `RESERVED_FIELD`, by the arithmetic
of the header's number. The order of the bytes of a header is the model's (log 9). -/
def Obligations.HeaderRefusalsInOrder : Prop :=
  ∀ (b0 b1 : Byte) (rest : List Byte),
    let h := (joinHeader b0 b1).toNat
    let op := h / 4096
    let isReservedOp := op = 0 ∨ 13 ≤ op
    let fieldSet := h / 2048 % 2 = 1 ∨ (h / 256 % 8 ≠ 0 ∧ op ≠ 1 ∧ op ≠ 2) ∨ (h % 256 ≠ 0 ∧ op ≠ 2 ∧ op ≠ 3)
    (decode (b0 :: b1 :: rest) = .error .reservedOp ↔ isReservedOp) ∧
    (decode (b0 :: b1 :: rest) = .error .reservedField ↔ ¬isReservedOp ∧ fieldSet)

/-- R104: the encoding examples, each both ways (a refused one by its reason), whatever the byte order of a
word. -/
def Obligations.SpecExampleWords : Prop :=
  let accepts := fun (i : Instr) (h : Header) (ws : List Word) =>
    i.header = h ∧ i.operands = ws ∧ decode (headerBytes h ++ ws.flatMap wordBytes) = .ok (i, [])
  accepts (.regRd 5#3) 0x1500#16 [] ∧
  accepts (.regWr 0#3 0x61#8) 0x2061#16 [] ∧
  accepts (.push 0x68#8) 0x3068#16 [] ∧
  accepts .syncWr 0x5000#16 [] ∧
  accepts (.read 0x1000#32 1#32) 0x9000#16 [0x00001000#32, 0x00000001#32] ∧
  accepts (.write 0x2000#32 5#32) 0xA000#16 [0x00002000#32, 0x00000005#32] ∧
  accepts (.ctrlGet 0x3000#32) 0xB000#16 [0x00000001#32, 0x00003000#32] ∧
  accepts (.ctrlOther 2#32 0#32) 0xB000#16 [0x00000002#32, 0x00000000#32] ∧
  decode (headerBytes 0x0000#16) = .error .reservedOp ∧
  decode (headerBytes 0x5001#16) = .error .reservedField

/-- R92, R99: how much of a stream an operation takes follows from the OP of its header alone. The order of
the bytes of a header is the model's (log 9). -/
def Obligations.LengthFollowsFromOp : Prop :=
  ∀ (b0 b1 : Byte) (tail rest : List Byte) (i : Instr),
    decode (b0 :: b1 :: tail) = .ok (i, rest) →
      let op := (joinHeader b0 b1).toNat / 4096
      (b0 :: b1 :: tail).length = rest.length + (if op = 9 ∨ op = 10 ∨ op = 11 then 10 else 2)

/-- R93: with enough bytes behind it, a header is accepted exactly if it belongs to a row of the opcode table,
and no header belongs to two. The order of the bytes of a header is the model's (log 9). -/
def Obligations.AcceptedHeadersAreTableRows : Prop :=
  ∀ (b0 b1 : Byte) (tail : List Byte), 8 ≤ tail.length →
    ((∃ i rest, decode (b0 :: b1 :: tail) = .ok (i, rest)) ↔
      ∃ r ∈ opcodeRows, r.admits (joinHeader b0 b1) = true) ∧
    ∀ r ∈ opcodeRows, ∀ r' ∈ opcodeRows,
      r.admits (joinHeader b0 b1) = true → r'.admits (joinHeader b0 b1) = true → r = r'

/-! ### The step (R16, R36, R96, R103) -/

/-- R102, R103: a step runs the decoded operation. When the next line presents the encoding of a well-formed
operation that its agent may issue, that is enabled or is the agent's own offer, and that is annotated as
its draw asks, the step is `exec` of it at the state with the line taken off, its answer at hand and the
step counted; bytes left over stay the agent's next line, of a schedule if this one was, else an offer. In
a schedule a request to a busy engine, and an annotation that is missing or not drawn, are refused with
nothing else changed (lines, offers and answers are the model's, log 1, 2, 17, and so are the two refusals,
log 6). -/
def Obligations.StepRunsPresentedOperation : Prop :=
  ∀ (s : State) (a : Agent) (i : Instr) (rest : List Byte) (an : Annotation) (ls : List Line),
    s.refused = none → s.sched = ⟨.present a (encode i ++ rest), an⟩ :: ls →
    i.wellFormed = true → admitted s.cfg.wiring a i = true →
      let s1 := { s with sched := ls, answer := an.answer?, ticks := s.ticks + 1 }
      let annotated := annotationOk s.cfg (instrDraw i s) an
      let left := if an = .environment then Annotation.environment else .bare
      (ready i s = true ∨ an = .environment → annotated = true →
        step s = exec i { s1 with sched := if rest = [] then ls else ⟨.present a rest, left⟩ :: ls }) ∧
      (ready i s = false → an ≠ .environment → step s = .next { s1 with refused := some .lineNotEnabled }) ∧
      (ready i s = true → annotated = false →
        step s = .next { s1 with refused := some .illFormedAnnotation })

/-- R95, R102, R103: when the next line names an engine step that is enabled and is annotated as the step's
draw asks, the step takes it; a step that is not enabled is refused in a schedule and left alone as an
offer, and an annotation that is missing or not drawn is refused, with nothing else changed (the refusals
are the model's choice, log 6). R16: with no line left the step is one on an offer, a free value (log 1). -/
def Obligations.StepTakesEngineStep : Prop :=
  (∀ (s : State) (e : EngineStep) (an : Annotation) (ls : List Line),
    s.refused = none → s.sched = ⟨.engine e, an⟩ :: ls →
      let s1 := { s with sched := ls, answer := an.answer?, ticks := s.ticks + 1 }
      let annotated := annotationOk s.cfg (engineDraw e s) an
      (engineEnabled e s = true → annotated = true → step s = .next (engineStep e s1)) ∧
      (engineEnabled e s = false → an ≠ .environment →
        step s = .next { s1 with refused := some .lineNotEnabled }) ∧
      (engineEnabled e s = false → an = .environment → step s = .next s1) ∧
      (engineEnabled e s = true → annotated = false →
        step s = .next { s1 with refused := some .illFormedAnnotation })) ∧
  ∀ s : State, s.sched = [] → step s = step { s with sched := [⟨Config.freeAction s.ticks, .environment⟩] }

/-- R96, R97, R297: in the assembled block REG_RD, REG_WR, PUSH and POP are refused `INTERNAL_OP` whoever
presents them, after the two checks of the header, and nothing but the refusal is recorded (that no
presented header counts as an engine's own is the model's reading, log 13). -/
def Obligations.InternalOperationRefused : Prop :=
  ∀ (s : State) (a : Agent) (i : Instr) (rest : List Byte) (an : Annotation) (ls : List Line),
    s.refused = none → s.cfg.wiring = .assembled →
    s.sched = ⟨.present a (encode i ++ rest), an⟩ :: ls →
    ((∃ idx, i = .regRd idx) ∨ (∃ idx b, i = .regWr idx b) ∨ (∃ b, i = .push b) ∨ i = .pop) →
      step s = .next
        { s with sched := ls, answer := an.answer?, ticks := s.ticks + 1, refused := some .internalOp }

/-- R97, R297: a presented header that names no operation, or sets a reserved field, is refused by its reason,
whoever presents it, and nothing but the refusal is recorded. The order of the bytes of a header is the
model's (log 9). -/
def Obligations.ReservedHeaderRefused : Prop :=
  ∀ (s : State) (a : Agent) (b0 b1 : Byte) (tail : List Byte) (an : Annotation) (ls : List Line),
    s.refused = none → s.sched = ⟨.present a (b0 :: b1 :: tail), an⟩ :: ls →
      let op := (joinHeader b0 b1).toNat / 4096
      let s1 := { s with sched := ls, answer := an.answer?, ticks := s.ticks + 1 }
      (op = 0 ∨ 13 ≤ op → step s = .next { s1 with refused := some .reservedOp }) ∧
      (1 ≤ op → op ≤ 12 →
        ((joinHeader b0 b1).toNat / 2048 % 2 = 1 ∨
          ((joinHeader b0 b1).toNat / 256 % 8 ≠ 0 ∧ op ≠ 1 ∧ op ≠ 2) ∨
          ((joinHeader b0 b1).toNat % 256 ≠ 0 ∧ op ≠ 2 ∧ op ≠ 3)) →
        step s = .next { s1 with refused := some .reservedField })

/-- R36, and R294, R297, R298: `refused` and `faults` are empty at reset; a refusal sets `refused`, and the
state then has no further step, so it is never cleared; every other state has a next state, in which
faults are appended, never cleared (recording first and stopping after is the model's reading, log 7,
8). -/
def Obligations.RefusedStateHasNoStep : Prop :=
  State.reset.refused = none ∧ State.reset.faults = [] ∧
  ∀ s : State,
    (∀ r, (refuse r s).refused = some r) ∧
    (∀ f, (recordFault f s).faults = s.faults ++ [f]) ∧
    (∀ r, s.refused = some r → step s = .refused r) ∧
    (s.refused = none → ∃ t, step s = .next t ∧ ∃ fs, t.faults = s.faults ++ fs)

/-- R50, R37: a step appends to the event log, never edits it, and never changes the configuration; the same
of the trace of accesses, which is the model's own (log 14). -/
def Obligations.LogOnlyGrows : Prop :=
  ∀ s t : State, step s = .next t →
    (∃ es, t.log = s.log ++ es) ∧ (∃ as, t.bus = s.bus ++ as) ∧ t.cfg = s.cfg

/-- R52, R320: a launch puts every field at its reset value, and refuses exactly a configuration that
fails a check: `BAD_CONFIG` for the sizes, else `MISALIGNED_BASE` for the base (the order is read from
R320, log 15, and what a stride of 0, or one that is not
AW/8, gives is the model's choice, log 26, 27). -/
def Obligations.LaunchResetsAndChecks : Prop :=
  ∀ c : Config,
    let s := State.launch c
    let sizesOk := (∃ k, 1 ≤ k ∧ c.n = 2 ^ k) ∧ 2 ≤ c.s ∧ c.spinBound ≠ some 0
    ((∀ i, Memory.read s.mem i = none) ∧ s.wptr = 0 ∧ s.wgray = 0 ∧
      s.rsync.length = c.s ∧ (∀ g ∈ s.rsync, g = 0) ∧ s.ovfFlag = false ∧ s.ovfCount = 0 ∧
      s.rptr = 0 ∧ s.rgray = 0 ∧ s.wsync.length = c.s ∧ (∀ g ∈ s.wsync, g = 0) ∧
      s.rxcState = .idle ∧ s.rxcByte = none ∧ s.rdState = .idle ∧ s.rdByte = none ∧
      s.rdDst = 0 ∧ s.rdSize = 0 ∧ s.txState = .idle ∧ s.txSrc = 0 ∧ s.txSize = 0 ∧
      s.txOff = 0 ∧ (∀ i, Memory.read s.stage i = none) ∧ s.stageLen = 0 ∧ s.stageIdx = 0 ∧
      s.txCur = none ∧ s.txCrPending = false ∧ s.txSpins = 0 ∧ s.txcount = 0 ∧
      s.faults = [] ∧ s.log = []) ∧
    (¬sizesOk → s.refused = some .badConfig) ∧
    (sizesOk → c.base % c.stride ≠ 0 → s.refused = some .misalignedBase) ∧
    (sizesOk → c.base % c.stride = 0 → s.refused = none)

/-! ### The register mux (40_regmux.md) -/

/-- R130, R65: the address of a register is `(BASE + idx * STRIDE) mod 2^ADDRW`, and it is aligned to the
stride when the base is and the stride divides `2^ADDRW`. A stride that is not AW/8 is the model's to accept
(log 27). -/
def Obligations.RegisterAddressAligned : Prop :=
  (∀ (c : Config) (idx : Nat),
    regaddr c idx = (c.base + idx * c.stride) % 2 ^ c.addrw ∧
    (BaseAligned c → c.stride ∣ 2 ^ c.addrw → regaddr c idx % c.stride = 0)) ∧
  regaddr { Config.default with base := 0x10000000 } 5 = 0x10000014

/-- R131, R133, R140: REG_RD of a modelled index completes: one read of one `AW`-bit word at the register's
address, logged with the word the UART answered, and nothing else changed. An index at or above NREG is
refused `REG_INDEX_UNMODELLED` with nothing else changed. The trace of accesses is the model's (log 14). So
are the AW/8 bytes whatever the stride is (log 11, 27), and the answer is taken on `AW` bits (log 2, 11). -/
def Obligations.RegisterReadLogged : Prop :=
  ∀ (idx : BitVec 3) (s : State),
    (idx.toNat < s.cfg.nreg →
      ∃ v t, exec (.regRd idx) s = .next t ∧ v < 2 ^ s.cfg.aw ∧
        t.log = s.log ++ [.regrd idx.toNat v] ∧
        t.bus = s.bus ++
          [⟨false, (s.cfg.base + idx.toNat * s.cfg.stride) % 2 ^ s.cfg.addrw, s.cfg.aw / 8, v⟩] ∧
        (∀ w, s.answer = some (.word w) → v = w % 2 ^ s.cfg.aw) ∧
        wView t = wView s ∧ rdView t = rdView s ∧ txView t = txView s ∧ SameRest s t) ∧
    (s.cfg.nreg ≤ idx.toNat →
      exec (.regRd idx) s = .next { s with refused := some .regIndexUnmodelled })

/-- R132, R133: REG_WR of a modelled index completes: one write of the zero-extended byte at the register's
address, logged, and nothing else changed. An index at or above NREG is refused `REG_INDEX_UNMODELLED` with
nothing else changed. The trace of accesses is the model's (log 14). So are the AW/8 bytes whatever the stride
is, and a byte not cut below `AW` = 8 (log 11, 27). -/
def Obligations.RegisterWriteLogged : Prop :=
  ∀ (idx : BitVec 3) (byte : Byte) (s : State),
    (idx.toNat < s.cfg.nreg →
      ∃ t, exec (.regWr idx byte) s = .next t ∧
        t.log = s.log ++ [.regwr idx.toNat byte.toNat] ∧
        t.bus = s.bus ++
          [⟨true, (s.cfg.base + idx.toNat * s.cfg.stride) % 2 ^ s.cfg.addrw, s.cfg.aw / 8, byte.toNat⟩] ∧
        wView t = wView s ∧ rdView t = rdView s ∧ txView t = txView s ∧ SameRest s t) ∧
    (s.cfg.nreg ≤ idx.toNat →
      exec (.regWr idx byte) s = .next { s with refused := some .regIndexUnmodelled })

/-- R61, R64, R68: every register access a step makes is one of AW/8 bytes at the address of a modelled
register (seen in the model's trace of accesses, log 14). Where the stride is AW/8, as R65 writes it, that is
one register of the block's window; for a smaller one, which the model accepts, it overlaps the next (log
27). -/
def Obligations.AccessesStayInWindow : Prop :=
  ∀ s t : State, AccessesInWindow s → step s = .next t → AccessesInWindow t

/-- R138: in the assembled block a step reads only `RBR_INDEX` and `LSR_INDEX` and writes only
`THR_INDEX`. -/
def Obligations.EnginesUseRoleRegisters : Prop :=
  ∀ (s t : State) (es : List Event), s.cfg.wiring = .assembled → step s = .next t →
    t.log = s.log ++ es →
      (∀ idx v, Event.regrd idx v ∈ es → idx = s.cfg.rbrIndex ∨ idx = s.cfg.lsrIndex) ∧
      (∀ idx v, Event.regwr idx v ∈ es → idx = s.cfg.thrIndex)

/-! ### The asynchronous FIFO (41_rxfifo.md) -/

/-- R151: `gray`, and `g2b` by shifts and bit by bit from the top; `g2b` undoes `gray`; consecutive gray
codes, the wrap from `N - 1` to `0` included, differ in exactly one bit; and the two codes of the wrap at
`P = 6`. -/
def Obligations.GrayCodeChangesOneBit : Prop :=
  (∀ b, gray b = b ^^^ (b >>> 1)) ∧
  (∀ p g, g2b p g = ((List.range p).map fun k => g >>> k).foldl (· ^^^ ·) 0) ∧
  (∀ p x : Nat, 1 ≤ p → x < 2 ^ p →
    g2b p (gray x) = x ∧
    ∃ i, i < p ∧ gray x ^^^ gray ((x + 1) % 2 ^ p) = 2 ^ i) ∧
  (∀ p g : Nat, 1 ≤ p → g < 2 ^ p →
    (g2b p g).testBit (p - 1) = g.testBit (p - 1) ∧
    ∀ i, i + 1 < p → (g2b p g).testBit i = ((g2b p g).testBit (i + 1) ^^ g.testBit i)) ∧
  gray 63 = 0x20 ∧ gray 0 = 0

/-- R155, R162: PUSH completes in every state: it writes the slot at `wptr` and no other, advances the
pointer and its gray copy, and sets the overflow status exactly if the write side sees the buffer full;
everything else is unchanged. -/
def Obligations.PushWritesAndAdvances : Prop :=
  ∀ (b : Byte) (s : State),
    ∃ t full, exec (.push b) s = .next t ∧
      (full = true ↔ (s.wptr + 1) % s.cfg.n = g2b s.cfg.p (s.rsync.getD (s.cfg.s - 1) 0)) ∧
      (∀ i, Memory.read t.mem i = if i = s.wptr then some b else Memory.read s.mem i) ∧
      t.wptr = (s.wptr + 1) % s.cfg.n ∧ t.wgray = gray t.wptr ∧
      t.ovfFlag = (s.ovfFlag || full) ∧
      t.ovfCount = (if full then (s.ovfCount + 1) % 2 ^ s.cfg.ovw else s.ovfCount) ∧
      t.log = s.log ++ [.pushed b full] ∧
      t.rsync = s.rsync ∧ t.rxcState = s.rxcState ∧ t.rxcByte = s.rxcByte ∧
      rdView t = rdView s ∧ txView t = txView s ∧ SameRest s t ∧ t.bus = s.bus

/-- R156: POP completes in every state. Empty: it logs POPEMPTY and changes nothing. Not empty: the byte is
the slot's before any overflow and a draw after one, and the pointer and its gray copy advance. Not
empty, no overflow and an unwritten slot: the fault is recorded and nothing else changes (the model's
reading, log 8). -/
def Obligations.PopReturnsByteOrEmpty : Prop :=
  ∀ s : State,
    let took := fun b : Byte => ∃ t, exec .pop s = .next t ∧
      t.rptr = (s.rptr + 1) % s.cfg.n ∧ t.rgray = gray t.rptr ∧ t.log = s.log ++ [.popped b] ∧
      t.wsync = s.wsync ∧ t.rdState = s.rdState ∧ t.rdByte = s.rdByte ∧ t.rdDst = s.rdDst ∧
      t.rdSize = s.rdSize ∧ wView t = wView s ∧ txView t = txView s ∧ SameRest s t ∧ t.bus = s.bus
    (s.rgray = s.wsync.getD (s.cfg.s - 1) 0 →
      exec .pop s = .next { s with log := s.log ++ [.popempty] }) ∧
    (s.rgray ≠ s.wsync.getD (s.cfg.s - 1) 0 →
      (s.ovfFlag = false → ∀ b, Memory.read s.mem s.rptr = some b → took b) ∧
      (s.ovfFlag = true → ∃ b, took b ∧ ∀ x, s.answer = some (.byte x) → b = x) ∧
      (s.ovfFlag = false → Memory.read s.mem s.rptr = none →
        exec .pop s = .next { s with faults := s.faults ++ [.unwrittenSlot] }))

/-- R158, R159: a clock edge shifts its synchronizer: the first stage takes the other domain's gray
register, each later stage its predecessor; everything else, memory and the other synchronizer
included, is unchanged. -/
def Obligations.ClockEdgeShiftsSynchronizer : Prop :=
  ∀ s : State, 1 ≤ s.cfg.s → s.wsync.length = s.cfg.s → s.rsync.length = s.cfg.s →
    (∃ w, exec .syncWr s = .next { s with wsync := w } ∧ w.length = s.cfg.s ∧ w[0]? = some s.wgray ∧
      ∀ i, 1 ≤ i → i < s.cfg.s → w[i]? = s.wsync[i - 1]?) ∧
    (∃ r, exec .syncRw s = .next { s with rsync := r } ∧ r.length = s.cfg.s ∧ r[0]? = some s.rgray ∧
      ∀ i, 1 ≤ i → i < s.cfg.s → r[i]? = s.rsync[i - 1]?)

/-- R160, R101: after `k` SYNC_WR operations presented by the clock, `k` at most `S`, the first `k` stages
of `wsync` hold `wgray` and the rest the old stages moved up, so `S` of them carry it to the last stage
and fewer do not reach it; and the same of `rgray`, SYNC_RW and `rsync`. Nothing else changes but the
model's schedule, answer and step count (log 4). -/
def Obligations.CrossingTakesSEdges : Prop :=
  ∀ (s : State) (k : Nat) (ls : List Line), s.refused = none → k ≤ s.cfg.s →
    let rest := { s with sched := ls, answer := if k = 0 then s.answer else none, ticks := s.ticks + k }
    (s.wsync.length = s.cfg.s → s.sched = List.replicate k (opLine .syncWr .bare) ++ ls →
      core.run k s =
        .next { rest with wsync := List.replicate k s.wgray ++ s.wsync.take (s.cfg.s - k) }) ∧
    (s.rsync.length = s.cfg.s → s.sched = List.replicate k (opLine .syncRw .bare) ++ ls →
      core.run k s =
        .next { rest with rsync := List.replicate k s.rgray ++ s.rsync.take (s.cfg.s - k) })

/-- R40, R152 to R154: the two views of empty, of full and of the counts agree: `empty_r` iff
`rptr = wq` iff `rd_count = 0`; `full_w` iff `(wptr + 1) mod N = rq` iff `wr_count = N - 1`; PUSH's
`was_full` is `full_w`; and the counts are the differences modulo `N`. -/
def Obligations.FifoSignalsAgree : Prop :=
  ∀ s : State, PointersInRange s → s.rgray = gray s.rptr →
    (emptyR s = true ↔ s.rptr = wq s) ∧ (emptyR s = true ↔ rdCount s = 0) ∧
    (fullW s = true ↔ (s.wptr + 1) % s.cfg.n = rq s) ∧ (fullW s = true ↔ wrCount s = s.cfg.n - 1) ∧
    wasFull s = fullW s ∧ rxAvail s = !emptyR s ∧
    (rdCount s : Int) = ((wq s : Int) - s.rptr) % s.cfg.n ∧
    (wrCount s : Int) = ((s.wptr : Int) - rq s) % s.cfg.n

/-- R157, R70, R71, R72: order and integrity of the FIFO is kept by every step. -/
def Obligations.FifoOrderKept : Prop :=
  ∀ s t : State, PointersInRange s → EngineInv s → FifoIntact s → step s = .next t → FifoIntact t

/-- R157, R72: what an intact FIFO says of its streams while no overflow was flagged: at most `N - 1`
bytes are unread, the `k`-th successful POP returned the byte of the `k`-th PUSH, the consumed stream
is a prefix of the received one, and the two counts bound the true occupancy. -/
def Obligations.FifoIntactStreams : Prop :=
  ∀ s : State, PointersInRange s → FifoIntact s → s.ovfFlag = false →
    let wn := (rxs s.log).length
    let rn := (cons s.log).length
    rn ≤ wn ∧ wn - rn ≤ s.cfg.n - 1 ∧ (∀ k, k < rn → (cons s.log)[k]? = (rxs s.log)[k]?) ∧
    cons s.log <+: rxs s.log ∧ rdCount s ≤ wn - rn ∧ wn - rn ≤ wrCount s

/-- R152, R153, R163: empty and full are seen early, never late: with nothing unread the read side sees
empty, and with `N - 1` bytes unread PUSH is told the buffer is full. -/
def Obligations.EmptyAndFullNeverLate : Prop :=
  ∀ s : State, PointersInRange s → s.rgray = gray s.rptr → FifoIntact s → s.ovfFlag = false →
    let wn := (rxs s.log).length
    let rn := (cons s.log).length
    (wn = rn → emptyR s = true) ∧ (wn = rn + (s.cfg.n - 1) → wasFull s = true)

/-- R168, R298: no step from a state with an intact FIFO records a fault, so `UNWRITTEN_SLOT` is
unreachable. -/
def Obligations.UnwrittenSlotNeverRead : Prop :=
  ∀ s t : State, PointersInRange s → EngineInv s → FifoIntact s → step s = .next t →
    t.faults = s.faults

/-- R164, R27: the overflow status changes only by a PUSH into a buffer the write side sees as full, which
sets the flag and counts one modulo `2^OVW`; no other step, no control opcode among them, touches or
clears it. -/
def Obligations.OverflowStatusSticky : Prop :=
  ∀ (s t : State) (es : List Event), step s = .next t → t.log = s.log ++ es →
    ((∀ b, Event.pushed b true ∉ es) → t.ovfFlag = s.ovfFlag ∧ t.ovfCount = s.ovfCount) ∧
    ((∃ b, Event.pushed b true ∈ es) →
      t.ovfFlag = true ∧ t.ovfCount = (s.ovfCount + 1) % 2 ^ s.cfg.ovw) ∧
    (s.ovfFlag = true → t.ovfFlag = true)

/-- R162: with `N - 1` bytes truly unread, the next PUSH fills the one unused slot and makes the pointers
equal, so that once it has crossed the FIFO reads as empty. The units are taken alone (log 13). -/
def Obligations.OverflowLapReadsEmpty : Prop :=
  ∀ (s : State) (b : Byte) (ls : List Line),
    PointersInRange s → s.rgray = gray s.rptr → s.refused = none → s.cfg.wiring = .units →
    s.wptr = (s.rptr + (s.cfg.n - 1)) % s.cfg.n →
    s.sched = opLine (.push b) .bare :: expandPseudo s.cfg .xferW ++ ls →
      ∃ t, core.run (1 + s.cfg.s) s = .next t ∧ t.wptr = t.rptr ∧ t.rptr = s.rptr ∧
        emptyR t = true ∧ rdCount t = 0 ∧ Memory.read t.mem s.wptr = some b

/-! ### The receive path (42_rx_path.md) -/

/-- R200, R296, R299: RX_IRQ completes when the capture engine is idle: it moves it to `RXC_READ` and
changes nothing else. While the engine is busy the request is held, neither lost nor nested (held
requests are a field of the model's, log 5). -/
def Obligations.InterruptAcceptedWhenIdle : Prop :=
  ∀ s : State,
    (s.rxcState = .idle → exec .rxIrq s = .next { s with rxcState := .read }) ∧
    (s.rxcState ≠ .idle → exec .rxIrq s = .next { s with held := s.held ++ [.rxIrq] })

/-- R201: RXC.READ reads the receive register once and keeps the low byte of the answer, whatever the
upper bits. -/
def Obligations.CaptureKeepsLowByte : Prop :=
  ∀ (s : State) (w : Nat), s.cfg.rbrIndex < s.cfg.nreg → s.answer = some (.word w) → w < 2 ^ s.cfg.aw →
    let t := engineStep .rxcRead s
    t.rxcByte = some (BitVec.ofNat 8 w) ∧ t.rxcState = .push ∧
    t.log = s.log ++ [.regrd s.cfg.rbrIndex w] ∧
    t.mem = s.mem ∧ t.wptr = s.wptr ∧ t.wgray = s.wgray ∧ t.rsync = s.rsync ∧ t.ovfFlag = s.ovfFlag ∧
    t.ovfCount = s.ovfCount ∧ rdView t = rdView s ∧ txView t = txView s ∧ SameRest s t

/-- R200 to R203, R101: one whole interrupt, in the assembled block, a register word having room for a byte:
from an idle capture engine, RX_IRQ, RXC.READ and RXC.PUSH run without a hold, log the read, the push, the wake after it and the handled
status in that order, store the byte at `wptr`, and leave the engine idle. -/
def Obligations.InterruptHandlerCompletes : Prop :=
  ∀ (s : State) (b : Byte) (ls : List Line),
    s.refused = none → s.cfg.wiring = .assembled → s.rxcState = .idle →
    s.cfg.rbrIndex < s.cfg.nreg → 8 ≤ s.cfg.aw → s.sched = expandPseudo s.cfg (.recv b) ++ ls →
      ∃ t full, core.run 3 s = .next t ∧ full = wasFull s ∧
        t.log = s.log ++ [.regrd s.cfg.rbrIndex b.toNat, .pushed b full, .wake, .irqHandled] ∧
        (∀ i, Memory.read t.mem i = if i = s.wptr then some b else Memory.read s.mem i) ∧
        t.wptr = (s.wptr + 1) % s.cfg.n ∧ t.rxcState = .idle ∧ t.rxcByte = none ∧
        rdView t = rdView s ∧ txView t = txView s ∧ t.sched = ls ∧ t.held = s.held ∧ t.refused = none

/-- R204, R212, R214, R299: READ completes when the read engine is idle: it records destination and size and
waits, and changes nothing else. While a read is in progress the request is held (log 5). Operands wider than
`ADDRW` or `SIZEW` are taken modulo it (log 11). -/
def Obligations.ReadStartsOrHolds : Prop :=
  ∀ (dst size : Word) (s : State),
    (s.rdState = .idle →
      ∃ t, exec (.read dst size) s = .next t ∧ waiting t = true ∧ t.rdDst = dst.toNat % 2 ^ s.cfg.addrw ∧
        t.rdSize = size.toNat % 2 ^ s.cfg.sizew ∧
        t.rdByte = s.rdByte ∧ t.rptr = s.rptr ∧ t.rgray = s.rgray ∧ t.wsync = s.wsync ∧
        wView t = wView s ∧ txView t = txView s ∧ SameRest s t ∧ t.log = s.log ∧ t.bus = s.bus) ∧
    (s.rdState ≠ .idle → exec (.read dst size) s = .next { s with held := s.held ++ [.read dst size] })

/-- R205, R206, R209: RD.POP is enabled exactly in `RD_WAIT` with the FIFO seen non-empty. It takes a byte,
advances, and goes to `RD_COPY`: before any overflow the byte of the slot at `rptr`, after one a draw. -/
def Obligations.ReadPopsWhenAvailable : Prop :=
  ∀ s : State, s.cfg.wiring = .assembled →
    let t := engineStep .rdPop s
    let took := fun b : Byte =>
      t.rdByte = some b ∧ t.rdState = .copy ∧ t.rptr = (s.rptr + 1) % s.cfg.n ∧ t.rgray = gray t.rptr ∧
      t.log = s.log ++ [.popped b] ∧ t.rdDst = s.rdDst ∧ t.rdSize = s.rdSize ∧ t.wsync = s.wsync ∧
      wView t = wView s ∧ txView t = txView s ∧ SameRest s t ∧ t.bus = s.bus
    (engineEnabled .rdPop s = true ↔ s.rdState = .wait ∧ rxAvail s = true) ∧
    (engineEnabled .rdPop s = true → s.ovfFlag = false → ∀ b, Memory.read s.mem s.rptr = some b → took b) ∧
    (engineEnabled .rdPop s = true → s.ovfFlag = true →
      ∃ b, took b ∧ ∀ x, s.answer = some (.byte x) → b = x)

/-- R207, R211, R293: RD.COPY copies the one popped byte out and completes the read: count 1 on success,
`ST_COPY_FAULT` with count 0 on failure, the byte being gone either way. -/
def Obligations.ReadCopyCompletes : Prop :=
  ∀ (s : State) (b : Byte) (ok : Bool), s.rdByte = some b → s.answer = some (.copied ok) →
    let t := engineStep .rdCopy s
    t.log = s.log ++ [.copyout s.rdDst [b] ok,
      .done .readOp (if ok then .ok else .copyFault) (if ok then 1 else 0)] ∧
    t.rdByte = none ∧ t.rdState = .idle ∧ t.rptr = s.rptr ∧ t.rgray = s.rgray ∧ t.wsync = s.wsync ∧
    t.rdDst = s.rdDst ∧ t.rdSize = s.rdSize ∧ wView t = wView s ∧ txView t = txView s ∧ SameRest s t ∧
    t.bus = s.bus

/-- R208: CANCEL, header `1100 0000 0000 0000`, completes in every state: a waiting read ends
`ST_INTERRUPTED` with count 0 and the FIFO untouched; in any other state nothing changes and nothing is logged. -/
def Obligations.CancelEndsOnlyAWait : Prop :=
  Instr.cancel.header = 0b1100000000000000#16 ∧ Instr.cancel.operands = [] ∧
  ∀ s : State,
    (s.rdState = .wait →
      ∃ t, exec .cancel s = .next t ∧ t.log = s.log ++ [.done .readOp .interrupted 0] ∧
        t.rdState = .idle ∧ waiting t = false ∧ t.rptr = s.rptr ∧ t.rgray = s.rgray ∧ t.wsync = s.wsync ∧
        t.rdByte = s.rdByte ∧ t.rdDst = s.rdDst ∧ t.rdSize = s.rdSize ∧ wView t = wView s ∧
        txView t = txView s ∧ SameRest s t ∧ t.bus = s.bus) ∧
    (s.rdState ≠ .wait → exec .cancel s = .next s)

/-- R213: CANCEL and RD.POP race in `RD_WAIT` with a byte available. If RD.POP is first, CANCEL does
nothing; if CANCEL is first, the read ends interrupted, RD.POP is no longer enabled and the byte
stays where it was. -/
def Obligations.CancelRacesPop : Prop :=
  ∀ (s : State) (b : Byte), s.cfg.wiring = .assembled → s.rdState = .wait → rxAvail s = true →
    s.ovfFlag = false → Memory.read s.mem s.rptr = some b →
      exec .cancel (engineStep .rdPop s) = .next (engineStep .rdPop s) ∧
      (engineStep .rdPop s).rdByte = some b ∧
      ∃ t, exec .cancel s = .next t ∧ engineEnabled .rdPop t = false ∧ rxAvail t = true ∧
        Memory.read t.mem t.rptr = some b ∧ t.rptr = s.rptr ∧
        t.log = s.log ++ [.done .readOp .interrupted 0]

/-- R215, R205 to R208: a blocking read end to end, a register word having room for a byte. From an idle,
quiescent, empty FIFO with no overflow, a READ waits with RD.POP not enabled; after a byte is received and has
crossed, RD.POP and a successful RD.COPY deliver exactly that byte and the read completes with count 1. A
destination wider than `ADDRW` is taken modulo it (log 11). -/
def Obligations.BlockingReadDelivers : Prop :=
  ∀ (s : State) (b : Byte) (dst size : Word) (ls : List Line),
    PointersInRange s → s.wgray = gray s.wptr → s.rgray = gray s.rptr → Quiescent s →
    s.wptr = s.rptr → s.ovfFlag = false → s.cfg.wiring = .assembled → s.cfg.rbrIndex < s.cfg.nreg →
    8 ≤ s.cfg.aw →
    s.sched = opLine (.read dst size) .bare :: expandPseudo s.cfg (.recv b) ++ expandPseudo s.cfg .xferW ++
      [engineLine .rdPop .bare, engineLine .rdCopy (.answer (.copied true))] ++ ls →
      (∃ u, core.run 1 s = .next u ∧ waiting u = true ∧ engineEnabled .rdPop u = false) ∧
      ∃ t, core.run (6 + s.cfg.s) s = .next t ∧
        t.log = s.log ++ [.regrd s.cfg.rbrIndex b.toNat, .pushed b false, .wake, .irqHandled,
          .popped b, .copyout (dst.toNat % 2 ^ s.cfg.addrw) [b] true, .done .readOp .ok 1] ∧
        t.rdState = .idle ∧ t.rxcState = .idle ∧ t.rptr = t.wptr ∧ emptyR t = true ∧ t.sched = ls ∧
        NoFault t

/-! ### The transmit path (43_tx_path.md) -/

/-- R230, R241, R299: WRITE completes when the TX engine is idle: it records the call, empties the chunk and
starts staging, and changes nothing else. While a write is in progress the request is held (log 5). Operands
wider than `ADDRW` or `SIZEW` are taken modulo it (log 11). -/
def Obligations.WriteStartsOrHolds : Prop :=
  ∀ (src size : Word) (s : State),
    (s.txState = .idle →
      ∃ t, exec (.write src size) s = .next t ∧ t.txState = .stage ∧
        t.txSrc = src.toNat % 2 ^ s.cfg.addrw ∧ t.txSize = size.toNat % 2 ^ s.cfg.sizew ∧ t.txOff = 0 ∧
        t.stageLen = 0 ∧ t.stageIdx = 0 ∧
        (∀ i, Memory.read t.stage i = Memory.read s.stage i) ∧ t.txCur = s.txCur ∧
        t.txCrPending = s.txCrPending ∧ t.txSpins = s.txSpins ∧ t.txcount = s.txcount ∧
        wView t = wView s ∧ rdView t = rdView s ∧ SameRest s t ∧ t.log = s.log ∧ t.bus = s.bus) ∧
    (s.txState ≠ .idle → exec (.write src size) s = .next { s with held := s.held ++ [.write src size] })

/-- R231, R238, R239: TX.STAGE. With the whole call sent it completes with the size, copying nothing, so a
WRITE of size 0 completes at once. Otherwise it asks for `min(N, size - off)` bytes at `src + off`:
a failed copy completes the call `ST_COPY_FAULT` with count 0 and stages nothing; a successful one
stages exactly those bytes and leaves the other slots as they were. -/
def Obligations.StageCopiesNextChunk : Prop :=
  ∀ s : State, s.txOff ≤ s.txSize →
    (s.txOff = s.txSize →
      engineStep .txStage s =
        { s with txState := .idle, log := s.log ++ [.done .writeOp .ok s.txSize] }) ∧
    (s.txOff ≠ s.txSize →
      ∀ k addr, k = min s.cfg.n (s.txSize - s.txOff) → addr = (s.txSrc + s.txOff) % 2 ^ s.cfg.addrw →
      (s.answer = some (.copiedIn none) →
        engineStep .txStage s =
          { s with
            txState := .idle
            log := s.log ++ [.copyin addr k none, .done .writeOp .copyFault 0] }) ∧
      ∀ bytes : List Byte, bytes.length = k → s.answer = some (.copiedIn (some bytes)) →
        let t := engineStep .txStage s
        t.log = s.log ++ [.copyin addr k (some bytes)] ∧
        (∀ i, Memory.read t.stage i = if i < k then bytes[i]? else Memory.read s.stage i) ∧
        t.stageLen = k ∧ t.stageIdx = 0 ∧ t.txOff = s.txOff + k ∧ t.txOff ≤ t.txSize ∧
        t.txState = .next ∧ t.txSrc = s.txSrc ∧ t.txSize = s.txSize ∧ t.txCur = s.txCur ∧
        t.txCrPending = s.txCrPending ∧ t.txSpins = s.txSpins ∧ t.txcount = s.txcount ∧
        wView t = wView s ∧ rdView t = rdView s ∧ SameRest s t ∧ t.bus = s.bus)

/-- R232, R235: TX.NEXT. With the chunk sent it goes back to stage the next; otherwise it takes the next
byte, notes whether a CR is to follow it, and polls. Nothing is logged or stored. -/
def Obligations.NextTakesChunkByte : Prop :=
  ∀ s : State,
    (s.stageIdx = s.stageLen → engineStep .txNext s = { s with txState := .stage }) ∧
    (s.stageIdx ≠ s.stageLen → ∀ b, Memory.read s.stage s.stageIdx = some b →
      engineStep .txNext s =
        { s with
          txCur := some b
          txCrPending := decide (b = s.cfg.lf)
          stageIdx := s.stageIdx + 1
          txSpins := 0
          txState := .poll })

/-- R233, R240: TX.POLL reads the line-status register once. With THRE set it goes to `TX_PUT`. With THRE
clear and no spin bound it stays and nothing but the log and the trace changes, so a poll can fail
forever; with a bound it counts, and at the bound ends the call `ST_TX_TIMEOUT` with count 0. R63,
R131: the bits of the word above bit 7 are ignored, whatever the mask is. -/
def Obligations.PollWaitsForThre : Prop :=
  ∀ (s : State) (w : Nat), s.cfg.lsrIndex < s.cfg.nreg → s.answer = some (.word w) → w < 2 ^ s.cfg.aw →
    s.txState = .poll →
    let t := engineStep .txPoll s
    let thre := (w % 256) &&& s.cfg.threMask ≠ 0
    (thre → t.txState = .put ∧ t.txSpins = s.txSpins ∧ t.log = s.log ++ [.regrd s.cfg.lsrIndex w]) ∧
    (¬thre → s.cfg.spinBound = none →
      txView t = txView s ∧ t.log = s.log ++ [.regrd s.cfg.lsrIndex w]) ∧
    (¬thre → ∀ bound, s.cfg.spinBound = some bound → t.txSpins = s.txSpins + 1 ∧
      (s.txSpins + 1 = bound → t.txState = .idle ∧
        t.log = s.log ++ [.regrd s.cfg.lsrIndex w, .done .writeOp .txTimeout 0]) ∧
      (s.txSpins + 1 ≠ bound → t.txState = .poll ∧ t.log = s.log ++ [.regrd s.cfg.lsrIndex w])) ∧
    t.txSrc = s.txSrc ∧ t.txSize = s.txSize ∧ t.txOff = s.txOff ∧ t.stage = s.stage ∧
    t.stageLen = s.stageLen ∧ t.stageIdx = s.stageIdx ∧ t.txCur = s.txCur ∧
    t.txCrPending = s.txCrPending ∧ t.txcount = s.txcount ∧
    wView t = wView s ∧ rdView t = rdView s ∧ SameRest s t

/-- R234, R235, R236: TX.PUT writes the current byte to the transmit register and counts one modulo
`2^CW`. After an LF whose CR is pending the CR becomes the current byte and is polled for like any
other; otherwise the engine goes on to the next byte of the chunk. -/
def Obligations.PutWritesAndCounts : Prop :=
  ∀ (s : State) (b : Byte), s.cfg.thrIndex < s.cfg.nreg → s.txCur = some b →
    let t := engineStep .txPut s
    t.log = s.log ++ [.regwr s.cfg.thrIndex b.toNat] ∧
    t.txcount = (s.txcount + 1) % 2 ^ s.cfg.cw ∧
    (s.txCrPending = true →
      t.txCur = some s.cfg.cr ∧ t.txCrPending = false ∧ t.txSpins = 0 ∧ t.txState = .poll) ∧
    (s.txCrPending = false →
      t.txCur = none ∧ t.txCrPending = false ∧ t.txSpins = s.txSpins ∧ t.txState = .next) ∧
    t.txSrc = s.txSrc ∧ t.txSize = s.txSize ∧ t.txOff = s.txOff ∧ t.stage = s.stage ∧
    t.stageLen = s.stageLen ∧ t.stageIdx = s.stageIdx ∧
    wView t = wView s ∧ rdView t = rdView s ∧ SameRest s t

/-- R235, R237, R238, R239: in the assembled block without a spin bound every step keeps the transmitted
stream faithful: it is, with what the engine
still has in hand, the staged bytes in order with each LF followed by a CR. -/
def Obligations.TransmitStreamFaithful : Prop :=
  ∀ s t : State, EngineInv s → TransmitFaithful s → step s = .next t → TransmitFaithful t

/-- R236, R35, R274: in the assembled block the counter rises by exactly one, modulo `2^CW`, for every byte
of the transmitted stream, and changes otherwise only to 0, by CTRL_RESET. -/
def Obligations.CounterCountsTransmissions : Prop :=
  ∀ (s t : State) (es : List Event), s.cfg.wiring = .assembled → s.txcount < 2 ^ s.cfg.cw →
    step s = .next t → t.log = s.log ++ es →
      t.txcount = (s.txcount + (txs s.cfg es).length) % 2 ^ s.cfg.cw ∨
      (t.txcount = 0 ∧ es = [.done .ctrlOp .ok 0])

/-- R328 item 3, R235: every step keeps the transmit discipline: in the assembled block, where the receive and
the line-status register are two registers, each write to the transmit register, a CR's included, follows a
line-status read with THRE set. -/
def Obligations.PollPrecedesEveryPut : Prop :=
  ∀ s t : State, PolledBeforePut s → step s = .next t → PolledBeforePut t

/-- R331, R160, R240, R242: in the assembled block a step of the TX engine other than a failed poll brings
the write in progress closer to its end, and a step of another engine leaves that distance alone; SYNC_WR
while a byte is on its way, RD.POP that takes a byte, and RD.COPY bring the read in progress closer to its
end, and a step of the TX engine or RXC.READ leaves that distance alone; each distance is 0 exactly when
its engine is idle. -/
def Obligations.TransfersProgress : Prop :=
  ∀ s : State, EngineInv s → s.cfg.wiring = .assembled → 1 ≤ s.cfg.n → 1 ≤ s.cfg.s →
    s.wsync.length = s.cfg.s → s.cfg.thrIndex < s.cfg.nreg → s.cfg.lsrIndex < s.cfg.nreg →
    (∀ e, engineEnabled e s = true →
      (e = .txStage ∨ e = .txNext ∨ e = .txPut → txWork (engineStep e s) < txWork s) ∧
      (e = .txPoll → (engineStep e s).txState = .put → txWork (engineStep e s) < txWork s) ∧
      (e = .rxcRead ∨ e = .rxcPush ∨ e = .rdPop ∨ e = .rdCopy → txWork (engineStep e s) = txWork s) ∧
      (e = .rdPop → popSource s ≠ none → readWork (engineStep e s) < readWork s) ∧
      (e = .rdCopy → readWork (engineStep e s) < readWork s) ∧
      (e = .rxcRead ∨ e = .txStage ∨ e = .txNext ∨ e = .txPoll ∨ e = .txPut →
        readWork (engineStep e s) = readWork s)) ∧
    (s.rdState = .wait → rxAvail s = false → s.wgray ≠ s.rgray →
      ∃ t, exec .syncWr s = .next t ∧ readWork t < readWork s) ∧
    (rxAvail s = true ↔ edgesToAvail s = 0) ∧
    (txWork s = 0 ↔ s.txState = .idle) ∧ (readWork s = 0 ↔ s.rdState = .idle)

/-- R331: under `F_CLK` and `F_ENG` a pushed byte that no pop has taken eventually makes `rx_avail = 1`, and
a READ waiting meanwhile completes, unless an overflow is flagged (after one the FIFO can read as empty
for good, R162). -/
def Obligations.PushedByteIsRead : Prop :=
  ∀ (ls : Nat → Line) (r : Nat → State), IsRun ls r → FClk ls → FEng ls r →
    (r 0).cfg.wiring = .assembled → PointersInRange (r 0) → EngineInv (r 0) → FifoIntact (r 0) →
    ∀ k, (cons (r k).log).length < (rxs (r k).log).length →
      (∃ j, k ≤ j ∧ (rxAvail (r j) = true ∨ (r j).ovfFlag = true)) ∧
      ((r k).rdState = .wait →
        (∃ j, k ≤ j ∧ (r j).ovfFlag = true) ∨ CompletesAfter r k .readOp [.ok, .copyFault, .interrupted])

/-- R331, R240: under `F_ENG` and `F_THRE`, without a spin bound, every WRITE in progress completes, with
`ST_OK` or `ST_COPY_FAULT`. -/
def Obligations.EveryWriteCompletes : Prop :=
  ∀ (ls : Nat → Line) (r : Nat → State), IsRun ls r → FEng ls r → FThre ls r →
    (r 0).cfg.wiring = .assembled → (r 0).cfg.spinBound = none → 1 ≤ (r 0).cfg.n → EngineInv (r 0) →
    ∀ k, (r k).txState ≠ .idle → CompletesAfter r k .writeOp [.ok, .copyFault]

/-! ### Open and the control port (44_control.md) -/

/-- R270: OPEN, header `1000 0000 0000 0000`, completes in every state and changes nothing but the log: it
creates no state of its own. -/
def Obligations.OpenAlwaysSucceeds : Prop :=
  Instr.openDev.header = 0b1000000000000000#16 ∧ Instr.openDev.operands = [] ∧
  ∀ s : State, ∃ t, exec .openDev s = .next t ∧ t.log = s.log ++ [.done .openOp .ok 0] ∧ SameButLog s t

/-- R271, R324: CTRL_RESET completes in every state whatever its argument: the counter is 0 and nothing
else changes: not the FIFO, not the overflow status, not an engine. -/
def Obligations.ControlResetClearsCounterOnly : Prop :=
  ∀ (arg : Word) (s : State),
    ∃ t, exec (.ctrlReset arg) s = .next t ∧ t.txcount = 0 ∧
      t.log = s.log ++ [.done .ctrlOp .ok 0] ∧
      txView t = { txView s with txcount := 0 } ∧
      wView t = wView s ∧ rdView t = rdView s ∧ SameRest s t ∧ t.bus = s.bus

/-- R272, R63: CTRL_GET completes in every state: it copies out the `CW/8` bytes of the counter, byte `k`
being bits `8k` to `8k+7`, and completes `ST_OK` or `ST_COPY_FAULT` by the copy's outcome; the counter and
everything else but the log are unchanged. An argument wider than `ADDRW` is taken modulo it, and a `CW` that
is no multiple of 8 is rounded down (log 11). -/
def Obligations.ControlGetCopiesCounter : Prop :=
  ∀ (arg : Word) (s : State),
    ∃ t bytes ok, exec (.ctrlGet arg) s = .next t ∧ bytes.length = s.cfg.cw / 8 ∧
      (∀ k, k < s.cfg.cw / 8 → bytes[k]? = some (BitVec.ofNat 8 (s.txcount / 256 ^ k))) ∧
      (∀ o, s.answer = some (.copied o) → ok = o) ∧
      t.log = s.log ++
        [.copyout (arg.toNat % 2 ^ s.cfg.addrw) bytes ok,
          .done .ctrlOp (if ok then .ok else .copyFault) 0] ∧
      SameButLog s t

/-- R273: every control opcode other than 0 and 1, under the header `1011 0000 0000 0000`, completes
`ST_UNSUPPORTED` with count 0 in every state, and changes nothing but the log: not the overflow status,
and its argument is not accessed. -/
def Obligations.ControlOtherUnsupported : Prop :=
  ∀ (opcode arg : Word) (s : State), 2 ≤ opcode.toNat →
    ctrlOf opcode arg = .ctrlOther opcode arg ∧
    (Instr.ctrlOther opcode arg).header = 0b1011000000000000#16 ∧
    (Instr.ctrlOther opcode arg).operands = [opcode, arg] ∧
    ∃ t, exec (.ctrlOther opcode arg) s = .next t ∧
      t.log = s.log ++ [.done .ctrlOp .unsupported 0] ∧ SameButLog s t

/-! ### Whole-machine rules -/

/-- R38: every step keeps the invariants the spec lists. -/
def Obligations.ListedInvariantsKept : Prop :=
  ∀ s t : State, EngineInv s → step s = .next t → EngineInv t

/-- R24 to R29, R31 to R33, R35: every step keeps the pointers and synchronizer stages within `P` bits, the
synchronizers at `S` stages, the two slot arrays within `N` slots, and each value of a parameter width
within it. The canonical form the arrays keep beside is the model's own (log 12). -/
def Obligations.PointersAndArraysKept : Prop :=
  ∀ s t : State, PointersInRange s → ArraysInForm s → ValuesInWidth s → EngineInv s → step s = .next t →
    PointersInRange t ∧ ArraysInForm t ∧ ValuesInWidth t

/-- Every invariant holds at the launch of an accepted configuration, and the state is quiescent (R327,
R166). Of the invariants, the form of the slot arrays and the trace of accesses, empty at launch, are the
model's own (log 12; log 4, 14). -/
def Obligations.LaunchMeetsInvariants : Prop :=
  ∀ c : Config, GoodConfig c →
    let s := State.launch c
    EngineInv s ∧ PointersInRange s ∧ ArraysInForm s ∧ ValuesInWidth s ∧ AccessesInWindow s ∧ FifoIntact s ∧
    TransmitFaithful s ∧ PolledBeforePut s ∧ CompletionsAllowed s ∧ Quiescent s ∧
    emptyR s = true ∧ fullW s = false ∧ rdCount s = 0 ∧ wrCount s = 0 ∧
    (∀ i, Memory.read s.mem i = none)

/-- R41, R22, R242: no step writes a field of the other domain: the W-domain operations and engine steps
leave the read side and the transmit side alone, and the R-domain ones leave the W side alone; the TX
engine and the control port touch no FIFO or read-engine state, and the read path no transmit state. -/
def Obligations.DomainsOwnTheirFields : Prop :=
  ∀ s : State,
    (∀ i t, (i = .syncRw ∨ i = .rxIrq ∨ ∃ b, i = .push b) → exec i s = .next t →
      rdView t = rdView s ∧ txView t = txView s) ∧
    (∀ e, (e = .rxcRead ∨ e = .rxcPush) →
      rdView (engineStep e s) = rdView s ∧ txView (engineStep e s) = txView s) ∧
    (∀ i t, (i = .syncWr ∨ i = .pop ∨ i = .cancel ∨ ∃ d n, i = .read d n) → exec i s = .next t →
      wView t = wView s ∧ txView t = txView s) ∧
    (∀ e, (e = .rdPop ∨ e = .rdCopy) →
      wView (engineStep e s) = wView s ∧ txView (engineStep e s) = txView s) ∧
    (∀ i t, ((∃ d n, i = .write d n) ∨ i = .openDev ∨ (∃ a, i = .ctrlReset a) ∨ (∃ a, i = .ctrlGet a) ∨
        ∃ o a, i = .ctrlOther o a) → exec i s = .next t →
      wView t = wView s ∧ rdView t = rdView s) ∧
    (∀ e, (e = .txStage ∨ e = .txNext ∨ e = .txPoll ∨ e = .txPut) →
      wView (engineStep e s) = wView s ∧ rdView (engineStep e s) = rdView s)

/-- R291, R292: every step keeps the log's completions to the pairings of operation, status and count that
can occur. -/
def Obligations.CompletionPairingsKept : Prop :=
  ∀ s t : State, CompletionsAllowed s → step s = .next t → CompletionsAllowed t

/-- R14, R299, R200, R204, R230, R296: a RX_IRQ, READ or WRITE that an agent offers while its engine is busy
is held, neither refused nor lost, in the rest of a stream too; a held one is taken once its hold is
lifted, and is then no longer held. While it is not lifted the request stays, and in a schedule the line
that resumes it is ill-formed, as it is with an answer that nothing draws (the resuming line is the
model's form of it, log 5, 6). That the rest of the stream becomes the next line, an offer, and does not wait
behind the held request is the model's choice (log 17). -/
def Obligations.HeldRequestTakenWhenLifted : Prop :=
  ∀ (s : State) (i : Instr) (ls : List Line), s.refused = none →
    (i = .rxIrq ∨ (∃ d n, i = .read d n) ∨ ∃ a n, i = .write a n) →
      let s1 := { s with sched := ls, answer := none, ticks := s.ticks + 1 }
      (∀ (a : Agent) (rest : List Byte), s.sched = ⟨.present a (encode i ++ rest), .environment⟩ :: ls →
        ready i s = false →
        step s = .next
          { s1 with
            held := s.held ++ [i]
            sched := if rest = [] then ls else ⟨.present a rest, .environment⟩ :: ls }) ∧
      ∀ (k : Nat) (an : Annotation), s.sched = ⟨.resume k, an⟩ :: ls → s.held[k]? = some i →
        let s2 := { s1 with answer := an.answer? }
        (ready i s = true → an.answer? = none → step s = exec i { s1 with held := s.held.eraseIdx k }) ∧
        (ready i s = false → an ≠ .environment → step s = .next { s2 with refused := some .lineNotEnabled }) ∧
        (ready i s = false → an = .environment → step s = .next s1) ∧
        (ready i s = true → an.answer? ≠ none →
          step s = .next { s2 with refused := some .illFormedAnnotation })
end

