-- ==== Sys2Proof/Laws/Encoding.lean ====
section
/-! SUPPORT. The encoding's small lemmas: words and headers from their bytes and back, the fields of a built
header, and what an accepted header leaves zero (R63, R90, R97). -/

namespace Sys2Proof

/-! ### Bytes and fields -/

theorem joinHeader_bytes (h : Header) : joinHeader (h.extractLsb' 0 8) (h.extractLsb' 8 8) = h := by
  apply BitVec.eq_of_getLsbD_eq
  intro i hi
  simp only [joinHeader, BitVec.getLsbD_append, BitVec.getLsbD_extractLsb']
  by_cases h8 : i < 8
  · simp [h8]
  · have : i - 8 < 8 := by omega
    have e : 8 + (i - 8) = i := by omega
    simp [h8, this, e]

theorem joinWord_bytes (w : Word) : joinWord (w.extractLsb' 0 8) (w.extractLsb' 8 8) (w.extractLsb' 16 8) (w.extractLsb' 24 8) = w := by
  apply BitVec.eq_of_getLsbD_eq
  intro i hi
  simp only [joinWord, BitVec.getLsbD_append, BitVec.getLsbD_extractLsb']
  by_cases h8 : i < 8
  · simp [h8]
  · by_cases h16 : i - 8 < 8
    · have e : 8 + (i - 8) = i := by omega
      simp [h8, h16, e]
    · by_cases h24 : i - 8 - 8 < 8
      · simp [h8, h16, h24]; congr 1; omega
      · have h32 : i - 8 - 8 - 8 < 8 := by omega
        simp [h8, h16, h24, h32]; congr 1; omega

theorem make_op (op : BitVec 4) (idx : BitVec 3) (d : Byte) : (Header.make op idx d).op = op := by
  apply BitVec.eq_of_getLsbD_eq
  intro i hi
  simp only [Header.make, Header.op, BitVec.getLsbD_append, BitVec.getLsbD_extractLsb']
  have h1 : ¬ (12 + i < 8) := by omega
  have h2 : ¬ (12 + i - 8 < 3) := by omega
  have h3 : ¬ (12 + i - 8 - 3 < 1) := by omega
  have e : 12 + i - 8 - 3 - 1 = i := by omega
  simp only [h1, h2, hi, h3, e, if_false, decide_true, Bool.true_and]
theorem make_rsv (op : BitVec 4) (idx : BitVec 3) (d : Byte) : (Header.make op idx d).rsv = 0#1 := by
  apply BitVec.eq_of_getLsbD_eq
  intro i hi
  simp only [Header.make, Header.rsv, BitVec.getLsbD_append, BitVec.getLsbD_extractLsb']
  obtain rfl : i = 0 := by omega
  simp
theorem make_idx (op : BitVec 4) (idx : BitVec 3) (d : Byte) : (Header.make op idx d).idx = idx := by
  apply BitVec.eq_of_getLsbD_eq
  intro i hi
  simp only [Header.make, Header.idx, BitVec.getLsbD_append, BitVec.getLsbD_extractLsb']
  have h1 : ¬ (8 + i < 8) := by omega
  simp [h1, hi]
theorem make_data (op : BitVec 4) (idx : BitVec 3) (d : Byte) : (Header.make op idx d).data = d := by
  apply BitVec.eq_of_getLsbD_eq
  intro i hi
  simp only [Header.make, Header.data, BitVec.getLsbD_append, BitVec.getLsbD_extractLsb']
  simp [hi]

theorem header_eq_make (h : Header) (hr : h.rsv = 0#1) : h = Header.make h.op h.idx h.data := by
  apply BitVec.eq_of_getLsbD_eq
  intro i hi
  simp only [Header.make, Header.op, Header.idx, Header.data, BitVec.getLsbD_append, BitVec.getLsbD_extractLsb']
  by_cases h8 : i < 8
  · simp [h8]
  · by_cases h11 : i - 8 < 3
    · simp [h8, h11]; congr 1; omega
    · by_cases h12 : i - 8 - 3 < 1
      · have : i = 11 := by omega
        subst this
        have := congrArg (fun b => b.getLsbD 0) hr
        simpa [Header.rsv] using this
      · have : i - 12 < 4 := by omega
        have e : i - 8 - 3 - 1 = i - 12 := by omega
        simp [h8, h11, h12, this, e]; congr 1; omega

theorem headerBytes_join (b0 b1 : Byte) : headerBytes (joinHeader b0 b1) = [b0, b1] := by
  simp only [headerBytes, joinHeader, List.cons.injEq, and_true]
  constructor <;> apply BitVec.eq_of_getLsbD_eq <;> intro i hi <;>
    simp only [BitVec.getLsbD_extractLsb', BitVec.getLsbD_append] 
  · simp [hi]
  · have h1 : ¬ (8 + i < 8) := by omega
    simp [hi]
theorem wordBytes_join (b0 b1 b2 b3 : Byte) : wordBytes (joinWord b0 b1 b2 b3) = [b0, b1, b2, b3] := by
  simp only [wordBytes, joinWord, List.cons.injEq, and_true]
  refine ⟨?_, ?_, ?_, ?_⟩ <;> apply BitVec.eq_of_getLsbD_eq <;> intro i hi <;>
    simp only [BitVec.getLsbD_extractLsb', BitVec.getLsbD_append] 
  · simp [hi]
  · simp [hi]
  · have h1 : ¬ (16 + i < 8) := by omega
    have h2 : ¬ (16 + i - 8 < 8) := by omega
    have h3 : (16 + i - 8 - 8) = i := by omega
    simp only [hi, h1, h2, h3]; simp
  · have h1 : ¬ (24 + i < 8) := by omega
    have h2 : ¬ (24 + i - 8 < 8) := by omega
    have h3 : ¬ (24 + i - 8 - 8 < 8) := by omega
    have h4 : 24 + i - 8 - 8 - 8 = i := by omega
    simp only [hi, h1, h2, h3, h4]; simp

theorem reservedField_clear (h : Header) (h2 : h.reservedFieldSet = false) : h.rsv = 0#1 ∧
   (opUsesIdx h.op = false → h.idx = 0#3) ∧ (opUsesData h.op = false → h.data = 0#8) := by
  simp [Header.reservedFieldSet] at h2
  refine ⟨h2.1.1, fun hu => ?_, fun hu => ?_⟩ 
  · by_contra hn; simp [h2.1.2 hn] at hu
  · by_contra hn; simp [h2.2 hn] at hu

end Sys2Proof
end

