-- ==== Sys2Proof/Laws/Gray.lean ====
section
/-! SUPPORT. The gray code (R151): it stays within `P` bits, it is undone by `g2b`, and it is injective. -/

namespace Sys2Proof.Machine

theorem gray_testBit (b i : Nat) : (gray b).testBit i = (b.testBit i ^^ b.testBit (i + 1)) := by
  simp [gray, Nat.testBit_xor, Nat.testBit_shiftRight, Nat.add_comm]

theorem gray_lt {p b : Nat} (h : b < 2 ^ p) : gray b < 2 ^ p :=
  Nat.xor_lt_two_pow h (lt_of_le_of_lt (Nat.shiftRight_le b 1) h)

/-- The first `p` shifted terms of a gray code telescope. -/
theorem g2b_gray_xor (p b : Nat) : g2b p (gray b) = b ^^^ (b >>> p) := by
  induction p with
  | zero => simp [g2b]
  | succ p ih =>
    have h : gray b >>> p = (b >>> p) ^^^ (b >>> (p + 1)) := by
      simp [gray, Nat.shiftRight_xor_distrib, ← Nat.shiftRight_add, Nat.add_comm]
    rw [g2b, ih, h, ← Nat.xor_assoc, Nat.xor_assoc b, Nat.xor_self, Nat.xor_zero]

theorem g2b_gray {p b : Nat} (h : b < 2 ^ p) : g2b p (gray b) = b := by
  rw [g2b_gray_xor, Nat.shiftRight_eq_div_pow, Nat.div_eq_of_lt h, Nat.xor_zero]

theorem gray_injective : Function.Injective gray := by
  intro a b h
  obtain ⟨p, ha, hb⟩ : ∃ p, a < 2 ^ p ∧ b < 2 ^ p :=
    ⟨a + b, lt_of_le_of_lt (Nat.le_add_right a b) Nat.lt_two_pow_self,
      lt_of_le_of_lt (Nat.le_add_left b a) Nat.lt_two_pow_self⟩
  rw [← g2b_gray ha, h, g2b_gray hb]

theorem gray_inj {a b : Nat} : gray a = gray b ↔ a = b := gray_injective.eq_iff

@[simp] theorem gray_zero : gray 0 = 0 := rfl

/-- The same inverse, bit by bit from the top, as R151 first defines it: each bit of `g2b` is the next
higher bit of it with the gray bit folded in. -/
theorem g2b_testBit_step {p g i : Nat} (hg : g < 2 ^ p) (hi : i < p) :
    (g2b p g).testBit i = ((g2b p g).testBit (i + 1) ^^ g.testBit i) := by
  have h : ∀ k j, (g2b k g).testBit j = ((List.range k).map fun m => g.testBit (m + j)).foldl xor false := by
    intro k j
    induction k with
    | zero => simp [g2b]
    | succ k ih => simp [g2b, Nat.testBit_xor, Nat.testBit_shiftRight, ih, List.range_succ]
  have hf : ∀ (l : List Bool) (x : Bool), l.foldl xor x = (x ^^ l.foldl xor false) := by
    intro l
    induction l with
    | nil => simp
    | cons a l ih => intro x; rw [List.foldl_cons, List.foldl_cons, ih, ih (false ^^ a)]; simp
  obtain ⟨q, rfl⟩ : ∃ q, p = q + 1 := ⟨p - 1, by omega⟩
  have htop : g.testBit (q + 1 + i) = false :=
    Nat.testBit_lt_two_pow (lt_of_lt_of_le hg (Nat.pow_le_pow_right (by norm_num) (by omega)))
  have hshift : ((List.range q).map fun m => g.testBit (m + 1 + i)) =
      ((List.range q).map fun m => g.testBit (m + (i + 1))) := by
    refine List.map_congr_left fun m _ => ?_
    rw [Nat.add_assoc m 1 i, Nat.add_comm 1 i]
  rw [h, h, List.range_succ_eq_map, List.map_cons, List.map_map, List.foldl_cons, hf]
  rw [show List.map (fun m => g.testBit (m + (i + 1))) (0 :: List.map Nat.succ (List.range q)) =
      List.map (fun m => g.testBit (m + (i + 1))) (List.range (q + 1)) by rw [List.range_succ_eq_map]]
  rw [List.range_succ, List.map_append, List.foldl_append]
  simp only [List.map_cons, List.map_nil, List.foldl_cons, List.foldl_nil]
  have htop' : g.testBit (q + (i + 1)) = false := by rw [← htop]; congr 1; omega
  rw [htop', Bool.xor_false, ← hshift]
  simp only [Function.comp_def, Nat.succ_eq_add_one, Nat.zero_add, Bool.false_xor]
  rw [Bool.xor_comm]

end Sys2Proof.Machine
end

