-- ==== Sys2Proof/Laws/Memory.lean ====
section
/-! SUPPORT. The laws of the slot arrays: a slot reads as last written, other slots are left alone, and
every operation keeps the canonical form. -/

namespace Sys2Proof.Machine

theorem memory_read_write_same (m : List Host.Cell) (a : Nat) (b : Byte) :
    Memory.read (Memory.write m a b) a = some b := by
  induction m with
  | nil => simp [Memory.write, Memory.read]
  | cons cell rest ih =>
    obtain ⟨k, c⟩ := cell
    simp only [Memory.write]
    split
    · simp [Memory.read]
    · split
      · simp [Memory.read]
      · rename_i h1 h2
        simp [Memory.read, Ne.symm h2, ih]

theorem memory_read_write_other (m : List Host.Cell) {a x : Nat} (b : Byte) (h : x ≠ a) :
    Memory.read (Memory.write m a b) x = Memory.read m x := by
  induction m with
  | nil => simp [Memory.write, Memory.read, Ne.symm h]
  | cons cell rest ih =>
    obtain ⟨k, c⟩ := cell
    simp only [Memory.write]
    split
    · simp [Memory.read, Ne.symm h]
    · split
      · rename_i h2
        simp [Memory.read, Ne.symm h, ← h2]
      · simp [Memory.read, ih]

/-- Reading any slot after a write. -/
theorem memory_read_write (m : List Host.Cell) (a x : Nat) (b : Byte) :
    Memory.read (Memory.write m a b) x = if x = a then some b else Memory.read m x := by
  split
  · next h => rw [h, memory_read_write_same]
  · next h => exact memory_read_write_other m b h

/-- The canonical form says that every cell of the tail lies above the head. -/
theorem memory_wf_cons (k : Nat) (c : Byte) (m : List Host.Cell) :
    Memory.wf ((k, c) :: m) = true ↔ (∀ cell ∈ m, k < cell.1) ∧ Memory.wf m = true := by
  induction m generalizing k c with
  | nil => simp [Memory.wf]
  | cons cell rest ih =>
    obtain ⟨l, d⟩ := cell
    simp only [Memory.wf, Bool.and_eq_true, decide_eq_true_eq, List.mem_cons, forall_eq_or_imp]
    constructor
    · rintro ⟨h1, h2⟩
      exact ⟨⟨h1, fun x hx => lt_trans h1 (((ih l d).mp h2).1 x hx)⟩, h2⟩
    · rintro ⟨⟨h1, -⟩, h2⟩
      exact ⟨h1, h2⟩

/-- The cells of a written array are the old ones and the new one. -/
theorem memory_mem_write (m : List Host.Cell) (a : Nat) (b : Byte) (cell : Host.Cell)
    (h : cell ∈ Memory.write m a b) : cell = (a, b) ∨ cell ∈ m := by
  induction m with
  | nil => simpa [Memory.write] using h
  | cons x rest ih =>
    obtain ⟨k, c⟩ := x
    simp only [Memory.write] at h
    split at h
    · simpa using h
    · split at h
      · simp only [List.mem_cons] at h ⊢
        exact h.imp_right .inr
      · simp only [List.mem_cons] at h ⊢
        rcases h with h | h
        · exact .inr (.inl h)
        · exact (ih h).imp_right .inr

theorem memory_wf_write (m : List Host.Cell) (a : Nat) (b : Byte) (h : Memory.wf m = true) :
    Memory.wf (Memory.write m a b) = true := by
  induction m with
  | nil => rfl
  | cons x rest ih =>
    obtain ⟨k, c⟩ := x
    have hk := (memory_wf_cons k c rest).mp h
    simp only [Memory.write]
    split
    · next h1 =>
      refine (memory_wf_cons a b _).mpr ⟨fun cell hc => ?_, h⟩
      rcases List.mem_cons.mp hc with rfl | hc
      · exact h1
      · exact lt_trans h1 (hk.1 cell hc)
    · split
      · next h2 => exact (memory_wf_cons a b rest).mpr ⟨h2 ▸ hk.1, hk.2⟩
      · next h1 h2 =>
        refine (memory_wf_cons k c _).mpr ⟨fun cell hc => ?_, ih hk.2⟩
        rcases memory_mem_write rest a b cell hc with rfl | hc
        · show k < a
          omega
        · exact hk.1 cell hc

theorem memory_wf_writeAll (m : List Host.Cell) (a : Nat) (bs : List Byte) (h : Memory.wf m = true) :
    Memory.wf (Memory.writeAll m a bs) = true := by
  induction bs generalizing m a with
  | nil => exact h
  | cons b bs ih => exact ih _ _ (memory_wf_write m a b h)

theorem memory_mem_writeAll (m : List Host.Cell) (a : Nat) (bs : List Byte) (cell : Host.Cell)
    (h : cell ∈ Memory.writeAll m a bs) : (a ≤ cell.1 ∧ cell.1 < a + bs.length) ∨ cell ∈ m := by
  induction bs generalizing m a with
  | nil => exact .inr h
  | cons b bs ih =>
    rcases ih _ _ h with h | h
    · left; simp only [List.length_cons]; omega
    · rcases memory_mem_write m a b cell h with rfl | h
      · left; simp
      · exact .inr h

/-- Reading any slot after consecutive writes. -/
theorem memory_read_writeAll (m : List Host.Cell) (a x : Nat) (bs : List Byte) :
    Memory.read (Memory.writeAll m a bs) x =
      if a ≤ x ∧ x < a + bs.length then bs[x - a]? else Memory.read m x := by
  induction bs generalizing m a with
  | nil => simp [Memory.writeAll]
  | cons b bs ih =>
    simp only [Memory.writeAll, ih, memory_read_write, List.length_cons]
    by_cases h1 : a + 1 ≤ x ∧ x < a + 1 + bs.length
    · obtain ⟨d, rfl⟩ : ∃ d, x = a + 1 + d := ⟨x - (a + 1), by omega⟩
      have h2 : a ≤ a + 1 + d ∧ a + 1 + d < a + (bs.length + 1) := by omega
      have h3 : a + 1 + d - a = d + 1 := by omega
      simp [h1, h2, h3]
    · by_cases h2 : x = a
      · subst h2; simp
      · have h3 : ¬(a ≤ x ∧ x < a + (bs.length + 1)) := by omega
        rw [if_neg h1, if_neg h2, if_neg h3]

end Sys2Proof.Machine
end

