-- ==== Sys2Proof/Laws/State.lean ====
section
/-! SUPPORT. Field by field, what the named updates of the state leave: one lemma per field per update, so
that no proof unfolds a record update. -/

namespace Sys2Proof.Machine

variable (s : State)

/-! ### `emit` -/

@[simp] theorem emit_cfg (es : List Event) : (emit es s).cfg = s.cfg := rfl
@[simp] theorem emit_mem (es : List Event) : (emit es s).mem = s.mem := rfl
@[simp] theorem emit_wptr (es : List Event) : (emit es s).wptr = s.wptr := rfl
@[simp] theorem emit_wgray (es : List Event) : (emit es s).wgray = s.wgray := rfl
@[simp] theorem emit_rsync (es : List Event) : (emit es s).rsync = s.rsync := rfl
@[simp] theorem emit_ovfFlag (es : List Event) : (emit es s).ovfFlag = s.ovfFlag := rfl
@[simp] theorem emit_ovfCount (es : List Event) : (emit es s).ovfCount = s.ovfCount := rfl
@[simp] theorem emit_rptr (es : List Event) : (emit es s).rptr = s.rptr := rfl
@[simp] theorem emit_rgray (es : List Event) : (emit es s).rgray = s.rgray := rfl
@[simp] theorem emit_wsync (es : List Event) : (emit es s).wsync = s.wsync := rfl
@[simp] theorem emit_rxcState (es : List Event) : (emit es s).rxcState = s.rxcState := rfl
@[simp] theorem emit_rxcByte (es : List Event) : (emit es s).rxcByte = s.rxcByte := rfl
@[simp] theorem emit_rdState (es : List Event) : (emit es s).rdState = s.rdState := rfl
@[simp] theorem emit_rdByte (es : List Event) : (emit es s).rdByte = s.rdByte := rfl
@[simp] theorem emit_rdDst (es : List Event) : (emit es s).rdDst = s.rdDst := rfl
@[simp] theorem emit_rdSize (es : List Event) : (emit es s).rdSize = s.rdSize := rfl
@[simp] theorem emit_txState (es : List Event) : (emit es s).txState = s.txState := rfl
@[simp] theorem emit_txSrc (es : List Event) : (emit es s).txSrc = s.txSrc := rfl
@[simp] theorem emit_txSize (es : List Event) : (emit es s).txSize = s.txSize := rfl
@[simp] theorem emit_txOff (es : List Event) : (emit es s).txOff = s.txOff := rfl
@[simp] theorem emit_stage (es : List Event) : (emit es s).stage = s.stage := rfl
@[simp] theorem emit_stageLen (es : List Event) : (emit es s).stageLen = s.stageLen := rfl
@[simp] theorem emit_stageIdx (es : List Event) : (emit es s).stageIdx = s.stageIdx := rfl
@[simp] theorem emit_txCur (es : List Event) : (emit es s).txCur = s.txCur := rfl
@[simp] theorem emit_txCrPending (es : List Event) : (emit es s).txCrPending = s.txCrPending := rfl
@[simp] theorem emit_txSpins (es : List Event) : (emit es s).txSpins = s.txSpins := rfl
@[simp] theorem emit_txcount (es : List Event) : (emit es s).txcount = s.txcount := rfl
@[simp] theorem emit_refused (es : List Event) : (emit es s).refused = s.refused := rfl
@[simp] theorem emit_faults (es : List Event) : (emit es s).faults = s.faults := rfl
@[simp] theorem emit_log (es : List Event) : (emit es s).log = s.log ++ es := rfl
@[simp] theorem emit_sched (es : List Event) : (emit es s).sched = s.sched := rfl
@[simp] theorem emit_held (es : List Event) : (emit es s).held = s.held := rfl
@[simp] theorem emit_answer (es : List Event) : (emit es s).answer = s.answer := rfl
@[simp] theorem emit_ticks (es : List Event) : (emit es s).ticks = s.ticks := rfl
@[simp] theorem emit_bus (es : List Event) : (emit es s).bus = s.bus := rfl

/-! ### `complete` -/

@[simp] theorem complete_cfg (op : HostOp) (st : Status) (n : Nat) : (complete op st n s).cfg = s.cfg := rfl
@[simp] theorem complete_mem (op : HostOp) (st : Status) (n : Nat) : (complete op st n s).mem = s.mem := rfl
@[simp] theorem complete_wptr (op : HostOp) (st : Status) (n : Nat) : (complete op st n s).wptr = s.wptr := rfl
@[simp] theorem complete_wgray (op : HostOp) (st : Status) (n : Nat) : (complete op st n s).wgray = s.wgray := rfl
@[simp] theorem complete_rsync (op : HostOp) (st : Status) (n : Nat) : (complete op st n s).rsync = s.rsync := rfl
@[simp] theorem complete_ovfFlag (op : HostOp) (st : Status) (n : Nat) : (complete op st n s).ovfFlag = s.ovfFlag := rfl
@[simp] theorem complete_ovfCount (op : HostOp) (st : Status) (n : Nat) : (complete op st n s).ovfCount = s.ovfCount := rfl
@[simp] theorem complete_rptr (op : HostOp) (st : Status) (n : Nat) : (complete op st n s).rptr = s.rptr := rfl
@[simp] theorem complete_rgray (op : HostOp) (st : Status) (n : Nat) : (complete op st n s).rgray = s.rgray := rfl
@[simp] theorem complete_wsync (op : HostOp) (st : Status) (n : Nat) : (complete op st n s).wsync = s.wsync := rfl
@[simp] theorem complete_rxcState (op : HostOp) (st : Status) (n : Nat) : (complete op st n s).rxcState = s.rxcState := rfl
@[simp] theorem complete_rxcByte (op : HostOp) (st : Status) (n : Nat) : (complete op st n s).rxcByte = s.rxcByte := rfl
@[simp] theorem complete_rdState (op : HostOp) (st : Status) (n : Nat) : (complete op st n s).rdState = s.rdState := rfl
@[simp] theorem complete_rdByte (op : HostOp) (st : Status) (n : Nat) : (complete op st n s).rdByte = s.rdByte := rfl
@[simp] theorem complete_rdDst (op : HostOp) (st : Status) (n : Nat) : (complete op st n s).rdDst = s.rdDst := rfl
@[simp] theorem complete_rdSize (op : HostOp) (st : Status) (n : Nat) : (complete op st n s).rdSize = s.rdSize := rfl
@[simp] theorem complete_txState (op : HostOp) (st : Status) (n : Nat) : (complete op st n s).txState = s.txState := rfl
@[simp] theorem complete_txSrc (op : HostOp) (st : Status) (n : Nat) : (complete op st n s).txSrc = s.txSrc := rfl
@[simp] theorem complete_txSize (op : HostOp) (st : Status) (n : Nat) : (complete op st n s).txSize = s.txSize := rfl
@[simp] theorem complete_txOff (op : HostOp) (st : Status) (n : Nat) : (complete op st n s).txOff = s.txOff := rfl
@[simp] theorem complete_stage (op : HostOp) (st : Status) (n : Nat) : (complete op st n s).stage = s.stage := rfl
@[simp] theorem complete_stageLen (op : HostOp) (st : Status) (n : Nat) : (complete op st n s).stageLen = s.stageLen := rfl
@[simp] theorem complete_stageIdx (op : HostOp) (st : Status) (n : Nat) : (complete op st n s).stageIdx = s.stageIdx := rfl
@[simp] theorem complete_txCur (op : HostOp) (st : Status) (n : Nat) : (complete op st n s).txCur = s.txCur := rfl
@[simp] theorem complete_txCrPending (op : HostOp) (st : Status) (n : Nat) : (complete op st n s).txCrPending = s.txCrPending := rfl
@[simp] theorem complete_txSpins (op : HostOp) (st : Status) (n : Nat) : (complete op st n s).txSpins = s.txSpins := rfl
@[simp] theorem complete_txcount (op : HostOp) (st : Status) (n : Nat) : (complete op st n s).txcount = s.txcount := rfl
@[simp] theorem complete_refused (op : HostOp) (st : Status) (n : Nat) : (complete op st n s).refused = s.refused := rfl
@[simp] theorem complete_faults (op : HostOp) (st : Status) (n : Nat) : (complete op st n s).faults = s.faults := rfl
@[simp] theorem complete_log (op : HostOp) (st : Status) (n : Nat) : (complete op st n s).log = s.log ++ [.done op st n] := rfl
@[simp] theorem complete_sched (op : HostOp) (st : Status) (n : Nat) : (complete op st n s).sched = s.sched := rfl
@[simp] theorem complete_held (op : HostOp) (st : Status) (n : Nat) : (complete op st n s).held = s.held := rfl
@[simp] theorem complete_answer (op : HostOp) (st : Status) (n : Nat) : (complete op st n s).answer = s.answer := rfl
@[simp] theorem complete_ticks (op : HostOp) (st : Status) (n : Nat) : (complete op st n s).ticks = s.ticks := rfl
@[simp] theorem complete_bus (op : HostOp) (st : Status) (n : Nat) : (complete op st n s).bus = s.bus := rfl

/-! ### `refuse` -/

@[simp] theorem refuse_cfg (r : Refusal) : (refuse r s).cfg = s.cfg := rfl
@[simp] theorem refuse_mem (r : Refusal) : (refuse r s).mem = s.mem := rfl
@[simp] theorem refuse_wptr (r : Refusal) : (refuse r s).wptr = s.wptr := rfl
@[simp] theorem refuse_wgray (r : Refusal) : (refuse r s).wgray = s.wgray := rfl
@[simp] theorem refuse_rsync (r : Refusal) : (refuse r s).rsync = s.rsync := rfl
@[simp] theorem refuse_ovfFlag (r : Refusal) : (refuse r s).ovfFlag = s.ovfFlag := rfl
@[simp] theorem refuse_ovfCount (r : Refusal) : (refuse r s).ovfCount = s.ovfCount := rfl
@[simp] theorem refuse_rptr (r : Refusal) : (refuse r s).rptr = s.rptr := rfl
@[simp] theorem refuse_rgray (r : Refusal) : (refuse r s).rgray = s.rgray := rfl
@[simp] theorem refuse_wsync (r : Refusal) : (refuse r s).wsync = s.wsync := rfl
@[simp] theorem refuse_rxcState (r : Refusal) : (refuse r s).rxcState = s.rxcState := rfl
@[simp] theorem refuse_rxcByte (r : Refusal) : (refuse r s).rxcByte = s.rxcByte := rfl
@[simp] theorem refuse_rdState (r : Refusal) : (refuse r s).rdState = s.rdState := rfl
@[simp] theorem refuse_rdByte (r : Refusal) : (refuse r s).rdByte = s.rdByte := rfl
@[simp] theorem refuse_rdDst (r : Refusal) : (refuse r s).rdDst = s.rdDst := rfl
@[simp] theorem refuse_rdSize (r : Refusal) : (refuse r s).rdSize = s.rdSize := rfl
@[simp] theorem refuse_txState (r : Refusal) : (refuse r s).txState = s.txState := rfl
@[simp] theorem refuse_txSrc (r : Refusal) : (refuse r s).txSrc = s.txSrc := rfl
@[simp] theorem refuse_txSize (r : Refusal) : (refuse r s).txSize = s.txSize := rfl
@[simp] theorem refuse_txOff (r : Refusal) : (refuse r s).txOff = s.txOff := rfl
@[simp] theorem refuse_stage (r : Refusal) : (refuse r s).stage = s.stage := rfl
@[simp] theorem refuse_stageLen (r : Refusal) : (refuse r s).stageLen = s.stageLen := rfl
@[simp] theorem refuse_stageIdx (r : Refusal) : (refuse r s).stageIdx = s.stageIdx := rfl
@[simp] theorem refuse_txCur (r : Refusal) : (refuse r s).txCur = s.txCur := rfl
@[simp] theorem refuse_txCrPending (r : Refusal) : (refuse r s).txCrPending = s.txCrPending := rfl
@[simp] theorem refuse_txSpins (r : Refusal) : (refuse r s).txSpins = s.txSpins := rfl
@[simp] theorem refuse_txcount (r : Refusal) : (refuse r s).txcount = s.txcount := rfl
@[simp] theorem refuse_refused (r : Refusal) : (refuse r s).refused = some r := rfl
@[simp] theorem refuse_faults (r : Refusal) : (refuse r s).faults = s.faults := rfl
@[simp] theorem refuse_log (r : Refusal) : (refuse r s).log = s.log := rfl
@[simp] theorem refuse_sched (r : Refusal) : (refuse r s).sched = s.sched := rfl
@[simp] theorem refuse_held (r : Refusal) : (refuse r s).held = s.held := rfl
@[simp] theorem refuse_answer (r : Refusal) : (refuse r s).answer = s.answer := rfl
@[simp] theorem refuse_ticks (r : Refusal) : (refuse r s).ticks = s.ticks := rfl
@[simp] theorem refuse_bus (r : Refusal) : (refuse r s).bus = s.bus := rfl

/-! ### `recordFault` -/

@[simp] theorem recordFault_cfg (f : Fault) : (recordFault f s).cfg = s.cfg := rfl
@[simp] theorem recordFault_mem (f : Fault) : (recordFault f s).mem = s.mem := rfl
@[simp] theorem recordFault_wptr (f : Fault) : (recordFault f s).wptr = s.wptr := rfl
@[simp] theorem recordFault_wgray (f : Fault) : (recordFault f s).wgray = s.wgray := rfl
@[simp] theorem recordFault_rsync (f : Fault) : (recordFault f s).rsync = s.rsync := rfl
@[simp] theorem recordFault_ovfFlag (f : Fault) : (recordFault f s).ovfFlag = s.ovfFlag := rfl
@[simp] theorem recordFault_ovfCount (f : Fault) : (recordFault f s).ovfCount = s.ovfCount := rfl
@[simp] theorem recordFault_rptr (f : Fault) : (recordFault f s).rptr = s.rptr := rfl
@[simp] theorem recordFault_rgray (f : Fault) : (recordFault f s).rgray = s.rgray := rfl
@[simp] theorem recordFault_wsync (f : Fault) : (recordFault f s).wsync = s.wsync := rfl
@[simp] theorem recordFault_rxcState (f : Fault) : (recordFault f s).rxcState = s.rxcState := rfl
@[simp] theorem recordFault_rxcByte (f : Fault) : (recordFault f s).rxcByte = s.rxcByte := rfl
@[simp] theorem recordFault_rdState (f : Fault) : (recordFault f s).rdState = s.rdState := rfl
@[simp] theorem recordFault_rdByte (f : Fault) : (recordFault f s).rdByte = s.rdByte := rfl
@[simp] theorem recordFault_rdDst (f : Fault) : (recordFault f s).rdDst = s.rdDst := rfl
@[simp] theorem recordFault_rdSize (f : Fault) : (recordFault f s).rdSize = s.rdSize := rfl
@[simp] theorem recordFault_txState (f : Fault) : (recordFault f s).txState = s.txState := rfl
@[simp] theorem recordFault_txSrc (f : Fault) : (recordFault f s).txSrc = s.txSrc := rfl
@[simp] theorem recordFault_txSize (f : Fault) : (recordFault f s).txSize = s.txSize := rfl
@[simp] theorem recordFault_txOff (f : Fault) : (recordFault f s).txOff = s.txOff := rfl
@[simp] theorem recordFault_stage (f : Fault) : (recordFault f s).stage = s.stage := rfl
@[simp] theorem recordFault_stageLen (f : Fault) : (recordFault f s).stageLen = s.stageLen := rfl
@[simp] theorem recordFault_stageIdx (f : Fault) : (recordFault f s).stageIdx = s.stageIdx := rfl
@[simp] theorem recordFault_txCur (f : Fault) : (recordFault f s).txCur = s.txCur := rfl
@[simp] theorem recordFault_txCrPending (f : Fault) : (recordFault f s).txCrPending = s.txCrPending := rfl
@[simp] theorem recordFault_txSpins (f : Fault) : (recordFault f s).txSpins = s.txSpins := rfl
@[simp] theorem recordFault_txcount (f : Fault) : (recordFault f s).txcount = s.txcount := rfl
@[simp] theorem recordFault_refused (f : Fault) : (recordFault f s).refused = s.refused := rfl
@[simp] theorem recordFault_faults (f : Fault) : (recordFault f s).faults = s.faults ++ [f] := rfl
@[simp] theorem recordFault_log (f : Fault) : (recordFault f s).log = s.log := rfl
@[simp] theorem recordFault_sched (f : Fault) : (recordFault f s).sched = s.sched := rfl
@[simp] theorem recordFault_held (f : Fault) : (recordFault f s).held = s.held := rfl
@[simp] theorem recordFault_answer (f : Fault) : (recordFault f s).answer = s.answer := rfl
@[simp] theorem recordFault_ticks (f : Fault) : (recordFault f s).ticks = s.ticks := rfl
@[simp] theorem recordFault_bus (f : Fault) : (recordFault f s).bus = s.bus := rfl

/-! ### `hold` -/

@[simp] theorem hold_cfg (i : Instr) : (hold i s).cfg = s.cfg := rfl
@[simp] theorem hold_mem (i : Instr) : (hold i s).mem = s.mem := rfl
@[simp] theorem hold_wptr (i : Instr) : (hold i s).wptr = s.wptr := rfl
@[simp] theorem hold_wgray (i : Instr) : (hold i s).wgray = s.wgray := rfl
@[simp] theorem hold_rsync (i : Instr) : (hold i s).rsync = s.rsync := rfl
@[simp] theorem hold_ovfFlag (i : Instr) : (hold i s).ovfFlag = s.ovfFlag := rfl
@[simp] theorem hold_ovfCount (i : Instr) : (hold i s).ovfCount = s.ovfCount := rfl
@[simp] theorem hold_rptr (i : Instr) : (hold i s).rptr = s.rptr := rfl
@[simp] theorem hold_rgray (i : Instr) : (hold i s).rgray = s.rgray := rfl
@[simp] theorem hold_wsync (i : Instr) : (hold i s).wsync = s.wsync := rfl
@[simp] theorem hold_rxcState (i : Instr) : (hold i s).rxcState = s.rxcState := rfl
@[simp] theorem hold_rxcByte (i : Instr) : (hold i s).rxcByte = s.rxcByte := rfl
@[simp] theorem hold_rdState (i : Instr) : (hold i s).rdState = s.rdState := rfl
@[simp] theorem hold_rdByte (i : Instr) : (hold i s).rdByte = s.rdByte := rfl
@[simp] theorem hold_rdDst (i : Instr) : (hold i s).rdDst = s.rdDst := rfl
@[simp] theorem hold_rdSize (i : Instr) : (hold i s).rdSize = s.rdSize := rfl
@[simp] theorem hold_txState (i : Instr) : (hold i s).txState = s.txState := rfl
@[simp] theorem hold_txSrc (i : Instr) : (hold i s).txSrc = s.txSrc := rfl
@[simp] theorem hold_txSize (i : Instr) : (hold i s).txSize = s.txSize := rfl
@[simp] theorem hold_txOff (i : Instr) : (hold i s).txOff = s.txOff := rfl
@[simp] theorem hold_stage (i : Instr) : (hold i s).stage = s.stage := rfl
@[simp] theorem hold_stageLen (i : Instr) : (hold i s).stageLen = s.stageLen := rfl
@[simp] theorem hold_stageIdx (i : Instr) : (hold i s).stageIdx = s.stageIdx := rfl
@[simp] theorem hold_txCur (i : Instr) : (hold i s).txCur = s.txCur := rfl
@[simp] theorem hold_txCrPending (i : Instr) : (hold i s).txCrPending = s.txCrPending := rfl
@[simp] theorem hold_txSpins (i : Instr) : (hold i s).txSpins = s.txSpins := rfl
@[simp] theorem hold_txcount (i : Instr) : (hold i s).txcount = s.txcount := rfl
@[simp] theorem hold_refused (i : Instr) : (hold i s).refused = s.refused := rfl
@[simp] theorem hold_faults (i : Instr) : (hold i s).faults = s.faults := rfl
@[simp] theorem hold_log (i : Instr) : (hold i s).log = s.log := rfl
@[simp] theorem hold_sched (i : Instr) : (hold i s).sched = s.sched := rfl
@[simp] theorem hold_held (i : Instr) : (hold i s).held = s.held ++ [i] := rfl
@[simp] theorem hold_answer (i : Instr) : (hold i s).answer = s.answer := rfl
@[simp] theorem hold_ticks (i : Instr) : (hold i s).ticks = s.ticks := rfl
@[simp] theorem hold_bus (i : Instr) : (hold i s).bus = s.bus := rfl

/-! ### `takeLine` -/

@[simp] theorem takeLine_cfg (l : Line) (ls : List Line) : (takeLine l ls s).cfg = s.cfg := rfl
@[simp] theorem takeLine_mem (l : Line) (ls : List Line) : (takeLine l ls s).mem = s.mem := rfl
@[simp] theorem takeLine_wptr (l : Line) (ls : List Line) : (takeLine l ls s).wptr = s.wptr := rfl
@[simp] theorem takeLine_wgray (l : Line) (ls : List Line) : (takeLine l ls s).wgray = s.wgray := rfl
@[simp] theorem takeLine_rsync (l : Line) (ls : List Line) : (takeLine l ls s).rsync = s.rsync := rfl
@[simp] theorem takeLine_ovfFlag (l : Line) (ls : List Line) : (takeLine l ls s).ovfFlag = s.ovfFlag := rfl
@[simp] theorem takeLine_ovfCount (l : Line) (ls : List Line) : (takeLine l ls s).ovfCount = s.ovfCount := rfl
@[simp] theorem takeLine_rptr (l : Line) (ls : List Line) : (takeLine l ls s).rptr = s.rptr := rfl
@[simp] theorem takeLine_rgray (l : Line) (ls : List Line) : (takeLine l ls s).rgray = s.rgray := rfl
@[simp] theorem takeLine_wsync (l : Line) (ls : List Line) : (takeLine l ls s).wsync = s.wsync := rfl
@[simp] theorem takeLine_rxcState (l : Line) (ls : List Line) : (takeLine l ls s).rxcState = s.rxcState := rfl
@[simp] theorem takeLine_rxcByte (l : Line) (ls : List Line) : (takeLine l ls s).rxcByte = s.rxcByte := rfl
@[simp] theorem takeLine_rdState (l : Line) (ls : List Line) : (takeLine l ls s).rdState = s.rdState := rfl
@[simp] theorem takeLine_rdByte (l : Line) (ls : List Line) : (takeLine l ls s).rdByte = s.rdByte := rfl
@[simp] theorem takeLine_rdDst (l : Line) (ls : List Line) : (takeLine l ls s).rdDst = s.rdDst := rfl
@[simp] theorem takeLine_rdSize (l : Line) (ls : List Line) : (takeLine l ls s).rdSize = s.rdSize := rfl
@[simp] theorem takeLine_txState (l : Line) (ls : List Line) : (takeLine l ls s).txState = s.txState := rfl
@[simp] theorem takeLine_txSrc (l : Line) (ls : List Line) : (takeLine l ls s).txSrc = s.txSrc := rfl
@[simp] theorem takeLine_txSize (l : Line) (ls : List Line) : (takeLine l ls s).txSize = s.txSize := rfl
@[simp] theorem takeLine_txOff (l : Line) (ls : List Line) : (takeLine l ls s).txOff = s.txOff := rfl
@[simp] theorem takeLine_stage (l : Line) (ls : List Line) : (takeLine l ls s).stage = s.stage := rfl
@[simp] theorem takeLine_stageLen (l : Line) (ls : List Line) : (takeLine l ls s).stageLen = s.stageLen := rfl
@[simp] theorem takeLine_stageIdx (l : Line) (ls : List Line) : (takeLine l ls s).stageIdx = s.stageIdx := rfl
@[simp] theorem takeLine_txCur (l : Line) (ls : List Line) : (takeLine l ls s).txCur = s.txCur := rfl
@[simp] theorem takeLine_txCrPending (l : Line) (ls : List Line) : (takeLine l ls s).txCrPending = s.txCrPending := rfl
@[simp] theorem takeLine_txSpins (l : Line) (ls : List Line) : (takeLine l ls s).txSpins = s.txSpins := rfl
@[simp] theorem takeLine_txcount (l : Line) (ls : List Line) : (takeLine l ls s).txcount = s.txcount := rfl
@[simp] theorem takeLine_refused (l : Line) (ls : List Line) : (takeLine l ls s).refused = s.refused := rfl
@[simp] theorem takeLine_faults (l : Line) (ls : List Line) : (takeLine l ls s).faults = s.faults := rfl
@[simp] theorem takeLine_log (l : Line) (ls : List Line) : (takeLine l ls s).log = s.log := rfl
@[simp] theorem takeLine_sched (l : Line) (ls : List Line) : (takeLine l ls s).sched = ls := rfl
@[simp] theorem takeLine_held (l : Line) (ls : List Line) : (takeLine l ls s).held = s.held := rfl
@[simp] theorem takeLine_answer (l : Line) (ls : List Line) : (takeLine l ls s).answer = l.annotation.answer? := rfl
@[simp] theorem takeLine_ticks (l : Line) (ls : List Line) : (takeLine l ls s).ticks = s.ticks + 1 := rfl
@[simp] theorem takeLine_bus (l : Line) (ls : List Line) : (takeLine l ls s).bus = s.bus := rfl

/-! ### `keepRest`: only the schedule can change -/

@[simp] theorem keepRest_cfg (an : Annotation) (a : Agent) (rest : List Byte) :
    (keepRest an a rest s).cfg = s.cfg := by
  unfold keepRest; split <;> rfl
@[simp] theorem keepRest_mem (an : Annotation) (a : Agent) (rest : List Byte) :
    (keepRest an a rest s).mem = s.mem := by
  unfold keepRest; split <;> rfl
@[simp] theorem keepRest_wptr (an : Annotation) (a : Agent) (rest : List Byte) :
    (keepRest an a rest s).wptr = s.wptr := by
  unfold keepRest; split <;> rfl
@[simp] theorem keepRest_wgray (an : Annotation) (a : Agent) (rest : List Byte) :
    (keepRest an a rest s).wgray = s.wgray := by
  unfold keepRest; split <;> rfl
@[simp] theorem keepRest_rsync (an : Annotation) (a : Agent) (rest : List Byte) :
    (keepRest an a rest s).rsync = s.rsync := by
  unfold keepRest; split <;> rfl
@[simp] theorem keepRest_ovfFlag (an : Annotation) (a : Agent) (rest : List Byte) :
    (keepRest an a rest s).ovfFlag = s.ovfFlag := by
  unfold keepRest; split <;> rfl
@[simp] theorem keepRest_ovfCount (an : Annotation) (a : Agent) (rest : List Byte) :
    (keepRest an a rest s).ovfCount = s.ovfCount := by
  unfold keepRest; split <;> rfl
@[simp] theorem keepRest_rptr (an : Annotation) (a : Agent) (rest : List Byte) :
    (keepRest an a rest s).rptr = s.rptr := by
  unfold keepRest; split <;> rfl
@[simp] theorem keepRest_rgray (an : Annotation) (a : Agent) (rest : List Byte) :
    (keepRest an a rest s).rgray = s.rgray := by
  unfold keepRest; split <;> rfl
@[simp] theorem keepRest_wsync (an : Annotation) (a : Agent) (rest : List Byte) :
    (keepRest an a rest s).wsync = s.wsync := by
  unfold keepRest; split <;> rfl
@[simp] theorem keepRest_rxcState (an : Annotation) (a : Agent) (rest : List Byte) :
    (keepRest an a rest s).rxcState = s.rxcState := by
  unfold keepRest; split <;> rfl
@[simp] theorem keepRest_rxcByte (an : Annotation) (a : Agent) (rest : List Byte) :
    (keepRest an a rest s).rxcByte = s.rxcByte := by
  unfold keepRest; split <;> rfl
@[simp] theorem keepRest_rdState (an : Annotation) (a : Agent) (rest : List Byte) :
    (keepRest an a rest s).rdState = s.rdState := by
  unfold keepRest; split <;> rfl
@[simp] theorem keepRest_rdByte (an : Annotation) (a : Agent) (rest : List Byte) :
    (keepRest an a rest s).rdByte = s.rdByte := by
  unfold keepRest; split <;> rfl
@[simp] theorem keepRest_rdDst (an : Annotation) (a : Agent) (rest : List Byte) :
    (keepRest an a rest s).rdDst = s.rdDst := by
  unfold keepRest; split <;> rfl
@[simp] theorem keepRest_rdSize (an : Annotation) (a : Agent) (rest : List Byte) :
    (keepRest an a rest s).rdSize = s.rdSize := by
  unfold keepRest; split <;> rfl
@[simp] theorem keepRest_txState (an : Annotation) (a : Agent) (rest : List Byte) :
    (keepRest an a rest s).txState = s.txState := by
  unfold keepRest; split <;> rfl
@[simp] theorem keepRest_txSrc (an : Annotation) (a : Agent) (rest : List Byte) :
    (keepRest an a rest s).txSrc = s.txSrc := by
  unfold keepRest; split <;> rfl
@[simp] theorem keepRest_txSize (an : Annotation) (a : Agent) (rest : List Byte) :
    (keepRest an a rest s).txSize = s.txSize := by
  unfold keepRest; split <;> rfl
@[simp] theorem keepRest_txOff (an : Annotation) (a : Agent) (rest : List Byte) :
    (keepRest an a rest s).txOff = s.txOff := by
  unfold keepRest; split <;> rfl
@[simp] theorem keepRest_stage (an : Annotation) (a : Agent) (rest : List Byte) :
    (keepRest an a rest s).stage = s.stage := by
  unfold keepRest; split <;> rfl
@[simp] theorem keepRest_stageLen (an : Annotation) (a : Agent) (rest : List Byte) :
    (keepRest an a rest s).stageLen = s.stageLen := by
  unfold keepRest; split <;> rfl
@[simp] theorem keepRest_stageIdx (an : Annotation) (a : Agent) (rest : List Byte) :
    (keepRest an a rest s).stageIdx = s.stageIdx := by
  unfold keepRest; split <;> rfl
@[simp] theorem keepRest_txCur (an : Annotation) (a : Agent) (rest : List Byte) :
    (keepRest an a rest s).txCur = s.txCur := by
  unfold keepRest; split <;> rfl
@[simp] theorem keepRest_txCrPending (an : Annotation) (a : Agent) (rest : List Byte) :
    (keepRest an a rest s).txCrPending = s.txCrPending := by
  unfold keepRest; split <;> rfl
@[simp] theorem keepRest_txSpins (an : Annotation) (a : Agent) (rest : List Byte) :
    (keepRest an a rest s).txSpins = s.txSpins := by
  unfold keepRest; split <;> rfl
@[simp] theorem keepRest_txcount (an : Annotation) (a : Agent) (rest : List Byte) :
    (keepRest an a rest s).txcount = s.txcount := by
  unfold keepRest; split <;> rfl
@[simp] theorem keepRest_refused (an : Annotation) (a : Agent) (rest : List Byte) :
    (keepRest an a rest s).refused = s.refused := by
  unfold keepRest; split <;> rfl
@[simp] theorem keepRest_faults (an : Annotation) (a : Agent) (rest : List Byte) :
    (keepRest an a rest s).faults = s.faults := by
  unfold keepRest; split <;> rfl
@[simp] theorem keepRest_log (an : Annotation) (a : Agent) (rest : List Byte) :
    (keepRest an a rest s).log = s.log := by
  unfold keepRest; split <;> rfl
@[simp] theorem keepRest_held (an : Annotation) (a : Agent) (rest : List Byte) :
    (keepRest an a rest s).held = s.held := by
  unfold keepRest; split <;> rfl
@[simp] theorem keepRest_answer (an : Annotation) (a : Agent) (rest : List Byte) :
    (keepRest an a rest s).answer = s.answer := by
  unfold keepRest; split <;> rfl
@[simp] theorem keepRest_ticks (an : Annotation) (a : Agent) (rest : List Byte) :
    (keepRest an a rest s).ticks = s.ticks := by
  unfold keepRest; split <;> rfl
@[simp] theorem keepRest_bus (an : Annotation) (a : Agent) (rest : List Byte) :
    (keepRest an a rest s).bus = s.bus := by
  unfold keepRest; split <;> rfl

@[simp] theorem keepRest_nil (an : Annotation) (a : Agent) : keepRest an a [] s = s := rfl

end Sys2Proof.Machine
end

