-- ==== Sys2Proof/Laws/Ops.lean ====
section
/-! SUPPORT. One lemma per shared operation that says everything it can do, for proofs to cite instead of
unfolding it. -/

namespace Sys2Proof.Machine

/-! ### Draws -/

theorem wrap_lt (w v : Nat) : wrap w v < 2 ^ w := Nat.mod_lt _ (Nat.two_pow_pos w)

theorem wrap_of_lt {w v : Nat} (h : v < 2 ^ w) : wrap w v = v := Nat.mod_eq_of_lt h

theorem drawWord_answered {s : State} {w : Nat} (addr : Nat) (h : s.answer = some (.word w)) :
    drawWord addr s = wrap s.cfg.aw w := by simp [drawWord, h]

theorem drawWord_lt (addr : Nat) (s : State) : drawWord addr s < 2 ^ s.cfg.aw := wrap_lt _ _

@[simp] theorem drawByte_answered {s : State} {b : Byte} (h : s.answer = some (.byte b)) :
    drawByte s = b := by simp [drawByte, h]

@[simp] theorem drawCopyOut_answered {s : State} {ok : Bool} (h : s.answer = some (.copied ok)) :
    drawCopyOut s = ok := by simp [drawCopyOut, h]

theorem fitBytes_length (tick k : Nat) (bs : List Byte) : (fitBytes tick k bs).length = k := by
  simp [fitBytes]

/-- A list of exactly the right length is taken as it is. -/
theorem fitBytes_exact (tick : Nat) (bs : List Byte) : fitBytes tick bs.length bs = bs := by
  refine List.ext_getElem (by simp [fitBytes]) fun i h1 h2 => ?_
  simp [fitBytes, List.getElem?_eq_getElem h2]

theorem drawCopyIn_answered {s : State} {bs : List Byte} (h : s.answer = some (.copiedIn (some bs))) :
    drawCopyIn bs.length s = some bs := by simp [drawCopyIn, h, fitBytes_exact]

theorem drawCopyIn_failed {s : State} (k : Nat) (h : s.answer = some (.copiedIn none)) :
    drawCopyIn k s = none := by simp [drawCopyIn, h]

/-- A copy-in fails or brings exactly the bytes asked for. -/
theorem drawCopyIn_cases (k : Nat) (s : State) :
    drawCopyIn k s = none ∨ ∃ bs, drawCopyIn k s = some bs ∧ bs.length = k := by
  unfold drawCopyIn
  split
  · exact .inr ⟨_, rfl, fitBytes_length _ _ _⟩
  · exact .inl rfl
  · split
    · exact .inr ⟨_, rfl, fitBytes_length _ _ _⟩
    · exact .inl rfl

@[simp] theorem heldByte_some (b : Byte) (s : State) : heldByte (some b) s = b := rfl

/-- An answer that fits a register read is a word of `AW` bits. -/
theorem answerFits_word {c : Config} {a : Answer} (h : answerFits c .word a = true) :
    ∃ w, a = .word w ∧ w < 2 ^ c.aw := by
  cases a <;> simp_all [answerFits]

/-! ### The register mux -/

/-- A register read is refused, or logs one access to one modelled index and answers its word. -/
theorem regRead_cases (idx : Nat) (s : State) :
    (s.cfg.nreg ≤ idx ∧ regRead idx s = (refuse .regIndexUnmodelled s, none)) ∨
    (idx < s.cfg.nreg ∧ regRead idx s =
      (emit [.regrd idx (drawWord (regaddr s.cfg idx) s)]
        { s with bus := s.bus ++ [⟨false, regaddr s.cfg idx, accessBytes s.cfg, drawWord (regaddr s.cfg idx) s⟩] },
        some (drawWord (regaddr s.cfg idx) s))) := by
  unfold regRead
  split
  · exact .inl ⟨by assumption, rfl⟩
  · exact .inr ⟨by omega, rfl⟩

/-- A register write is refused, or logs one access to one modelled index. -/
theorem regWrite_cases (idx : Nat) (b : Byte) (s : State) :
    (s.cfg.nreg ≤ idx ∧ regWrite idx b s = (refuse .regIndexUnmodelled s, false)) ∨
    (idx < s.cfg.nreg ∧ regWrite idx b s =
      (emit [.regwr idx (regWriteWord b)]
        { s with bus := s.bus ++ [⟨true, regaddr s.cfg idx, accessBytes s.cfg, regWriteWord b⟩] }, true)) := by
  unfold regWrite
  split
  · exact .inl ⟨by assumption, rfl⟩
  · exact .inr ⟨by omega, rfl⟩

@[simp] theorem dataLane_regWriteWord (b : Byte) : dataLane (regWriteWord b) = b := by
  simp [dataLane, regWriteWord]

/-- THRE depends on the data byte of the word alone (R63). -/
theorem threSet_congr (c : Config) {v w : Nat} (h : dataLane v = dataLane w) : threSet c v = threSet c w := by
  simp [threSet, h]

/-! ### The FIFO -/

/-- A pop finds the FIFO empty, or takes a byte, or finds the slot unwritten. -/
theorem popByte_cases (s : State) :
    (emptyR s = true ∧ popByte s = (emit [.popempty] s, none)) ∨
    (emptyR s = false ∧ popSource s = none ∧ popByte s = (recordFault .unwrittenSlot s, none)) ∨
    (∃ b, emptyR s = false ∧ popSource s = some b ∧ popByte s =
      (emit [.popped b]
        { s with rptr := cursorNext s.cfg.n s.rptr, rgray := gray (cursorNext s.cfg.n s.rptr) }, some b)) := by
  unfold popByte
  split
  · exact .inl ⟨by assumption, rfl⟩
  · have he : emptyR s = false := by simpa using ‹¬emptyR s = true›
    split
    · exact .inr (.inl ⟨he, by assumption, rfl⟩)
    · exact .inr (.inr ⟨_, he, by assumption, rfl⟩)

theorem cursorNext_lt {n : Nat} (a : Nat) (h : 0 < n) : cursorNext n a < n := Nat.mod_lt _ h

/-- The cursor of a count is the cursor of the next count. -/
theorem cursorNext_mod (n k : Nat) : cursorNext n (k % n) = (k + 1) % n := by
  simp [cursorNext, Nat.add_mod]

theorem syncShift_length {stages v : Nat} {old : List Nat} (h : old.length = stages) :
    (syncShift stages v old).length = stages := by simp [syncShift, h]

theorem mem_syncShift {stages v x : Nat} {old : List Nat} (h : x ∈ syncShift stages v old) :
    x = v ∨ x ∈ old := by
  have := List.mem_of_mem_take h
  simpa using this

/-- The last stage of a synchronizer that has its stages is its last entry. -/
theorem syncLast_eq {stages : Nat} {l : List Nat} (h : l.length = stages) (hs : 0 < stages) :
    l.getLast? = some (syncLast stages l) := by
  have h1 : stages - 1 < l.length := by omega
  rw [List.getLast?_eq_getElem?, h, syncLast, List.getD_eq_getElem?_getD, List.getElem?_eq_getElem h1]
  rfl

end Sys2Proof.Machine
end

