-- ==== Sys2Proof/Laws/Step.lean ====
section
/-! SUPPORT. What a step can do, said once: the inversion of `step`, from which every invariant is derived. -/

namespace Sys2Proof.Machine

/-- The next state of an operation: no operation faults or is refused as an outcome. -/
def execNext (i : Instr) (s : State) : State :=
  match exec i s with
  | .next t => t
  | .fault _ => s
  | .refused _ => s

theorem exec_eq_next (i : Instr) (s : State) : exec i s = .next (execNext i s) := by
  cases i <;> rfl

/-- The operations whose headers only the engines, or the units' own ports, issue (R96). -/
def Instr.internal : Instr → Bool
  | .regRd _ | .regWr _ _ | .push _ | .pop => true
  | .syncWr | .syncRw | .rxIrq | .openDev | .read _ _ | .write _ _ | .ctrlReset _ | .ctrlGet _
  | .ctrlOther _ _ | .cancel => false

theorem admitted_internal {w : Wiring} {a : Agent} {i : Instr} (h : admitted w a i = true)
    (hw : w = .assembled) : Instr.internal i = false := by
  subst hw; cases i <;> first | rfl | simp [admitted] at h

/-- A state that differs from `s` only in the schedule, the held requests, the answer and the step count:
what a step prepares before it acts. -/
def Prepared (s s1 : State) : Prop :=
  ∃ (ls : List Line) (hs : List Instr) (ans : Option Answer) (k : Nat),
    s1 = { s with sched := ls, held := hs, answer := ans, ticks := k }

/-- Everything a step can do to the state it prepares: refuse, leave it, run an operation, or take an
enabled engine step. An internal operation runs only in the units' wiring. -/
inductive StepKind (s1 t : State) : Prop where
  | refuse (r : Refusal) (h : t = Machine.refuse r s1)
  | stay (h : t = s1)
  | op (i : Instr) (hi : s1.cfg.wiring = .assembled → Instr.internal i = false) (h : t = execNext i s1)
  | engine (e : EngineStep) (he : engineEnabled e s1 = true) (h : t = engineStep e s1)

theorem notEnabled_kind (an : Annotation) (s : State) : StepKind s (notEnabled an s) := by
  unfold notEnabled
  split
  · exact .refuse _ rfl
  · exact .stay rfl

/-- A step on a line is taken, its guard holding, or leaves the state, or is refused. -/
theorem takeStep_cases {an : Annotation} {en ann : Bool} {o : Host.Outcome State Fault Refusal} {s t : State}
    (h : takeStep an en ann o s = .next t) : (en = true ∧ o = .next t) ∨ StepKind s t := by
  unfold takeStep at h
  split at h
  · cases h
    exact .inr (notEnabled_kind _ _)
  · split at h
    · cases h
      exact .inr (.refuse _ rfl)
    · exact .inl ⟨by simp_all, h⟩

/-- A prepared state may be prepared further. -/
theorem runAction_kind {l : Line} {s s1 t : State} (hp : Prepared s s1)
    (h : runAction l s1 = .next t) : ∃ s2, Prepared s s2 ∧ StepKind s2 t := by
  obtain ⟨ls, hs, ans, k, rfl⟩ := hp
  unfold runAction at h
  split at h
  · simp only [runPresent] at h
    split at h
    · exact ⟨_, ⟨_, _, _, _, rfl⟩, .refuse _ (by simpa using h.symm)⟩
    · split at h
      · next i rest _ ha =>
        rcases takeStep_cases h with ⟨-, h⟩ | h
        · rw [exec_eq_next] at h
          refine ⟨_, ?_, .op i ?_ (Host.Outcome.next.inj h).symm⟩
          · unfold keepRest
            split <;> exact ⟨_, _, _, _, rfl⟩
          · exact fun hw => admitted_internal ha (by simpa using hw)
        · exact ⟨_, ⟨_, _, _, _, rfl⟩, h⟩
      · exact ⟨_, ⟨_, _, _, _, rfl⟩, .refuse _ (by simpa using h.symm)⟩
  · simp only [runEngine] at h
    rcases takeStep_cases h with ⟨he, h⟩ | h
    · exact ⟨_, ⟨_, _, _, _, rfl⟩, .engine _ he (Host.Outcome.next.inj h).symm⟩
    · exact ⟨_, ⟨_, _, _, _, rfl⟩, h⟩
  · simp only [runResume] at h
    split at h
    · cases h
      exact ⟨_, ⟨_, _, _, _, rfl⟩, notEnabled_kind _ _⟩
    · next i _ =>
      rcases takeStep_cases h with ⟨he, h⟩ | h
      · rw [exec_eq_next] at h
        refine ⟨_, ?_, .op i ?_ (Host.Outcome.next.inj h).symm⟩
        · exact ⟨_, _, _, _, rfl⟩
        · exact fun hw => admitted_internal (Bool.and_eq_true_iff.mp he).2 hw
      · exact ⟨_, ⟨_, _, _, _, rfl⟩, h⟩

/-! ### A line: taking it off the schedule changes no guard of its step -/

/-- A step on the schedule's first line. -/
theorem step_line {s : State} {l : Line} {ls : List Line} (hr : s.refused = none) (hs : s.sched = l :: ls) :
    step s = runAction l (takeLine l ls s) := by simp [step, nextStep, hr, hs]

/-- A run takes its first step, then the rest. -/
theorem run_succ {s t : State} (h : step s = .next t) (k : Nat) : core.run (k + 1) s = core.run k t := by
  have hc : core.step s = .next t := h
  simp only [Host.Core.run, hc]

@[simp] theorem ready_takeLine (i : Instr) (l : Line) (ls : List Line) (s : State) :
    ready i (takeLine l ls s) = ready i s := by cases i <;> rfl

@[simp] theorem instrDraw_takeLine (i : Instr) (l : Line) (ls : List Line) (s : State) :
    instrDraw i (takeLine l ls s) = instrDraw i s := by cases i <;> rfl

@[simp] theorem engineEnabled_takeLine (e : EngineStep) (l : Line) (ls : List Line) (s : State) :
    engineEnabled e (takeLine l ls s) = engineEnabled e s := by cases e <;> rfl

@[simp] theorem engineDraw_takeLine (e : EngineStep) (l : Line) (ls : List Line) (s : State) :
    engineDraw e (takeLine l ls s) = engineDraw e s := by cases e <;> rfl

/-- An enabled step on a well-annotated line is taken. -/
theorem takeStep_taken (an : Annotation) (o : Host.Outcome State Fault Refusal) (s : State) :
    takeStep an true true o s = o := rfl

/-- A step that is not enabled is not taken. -/
theorem takeStep_notEnabled (an : Annotation) (ann : Bool) (o : Host.Outcome State Fault Refusal) (s : State) :
    takeStep an false ann o s = .next (notEnabled an s) := rfl

/-- An enabled step on a line that is not annotated as its draw asks is refused. -/
theorem takeStep_illAnnotated (an : Annotation) (o : Host.Outcome State Fault Refusal) (s : State) :
    takeStep an true false o s = .next (refuse .illFormedAnnotation s) := rfl

@[simp] theorem notEnabled_environment (s : State) : notEnabled .environment s = s := rfl

/-- A schedule's line whose step is not enabled is refused. -/
theorem notEnabled_inNotation {an : Annotation} (h : inNotation an = true) (s : State) :
    notEnabled an s = refuse .lineNotEnabled s := by simp [notEnabled, h]

theorem inNotation_eq_true {an : Annotation} : inNotation an = true ↔ an ≠ .environment := by
  cases an <;> simp [inNotation]

/-- The inversion of a step. -/
theorem step_cases {s t : State} (h : step s = .next t) :
    s.refused = none ∧ ∃ s1, Prepared s s1 ∧ StepKind s1 t := by
  unfold step at h
  split at h
  · cases h
  · refine ⟨by assumption, ?_⟩
    unfold nextStep at h
    split at h <;> exact runAction_kind ⟨_, _, _, _, rfl⟩ h

end Sys2Proof.Machine
end

