-- ==== Sys2Proof/Laws/Meanings.lean ====
section
/-! SUPPORT. What each engine step and each operation that can hold, fail or choose may do: one inversion
lemma each, so that an invariant's proof names its cases instead of unfolding meanings. -/

namespace Sys2Proof.Machine

/-- The state after one logged read of a register, `v` being the word answered. -/
def afterRead (idx : Nat) (v : Nat) (s : State) : State :=
  emit [.regrd idx v] { s with bus := s.bus ++ [⟨false, regaddr s.cfg idx, accessBytes s.cfg, v⟩] }

/-- The state after one logged write of a register. -/
def afterWrite (idx : Nat) (b : Byte) (s : State) : State :=
  emit [.regwr idx (regWriteWord b)]
    { s with bus := s.bus ++ [⟨true, regaddr s.cfg idx, accessBytes s.cfg, regWriteWord b⟩] }

/-- The state after a pop that took `b`. -/
def afterPop (b : Byte) (s : State) : State :=
  emit [.popped b] { s with rptr := cursorNext s.cfg.n s.rptr, rgray := gray (cursorNext s.cfg.n s.rptr) }

theorem rxcRead_cases (s : State) :
    (s.cfg.nreg ≤ s.cfg.rbrIndex ∧ rxcRead s = refuse .regIndexUnmodelled s) ∨
    ∃ v, s.cfg.rbrIndex < s.cfg.nreg ∧
      rxcRead s = { afterRead s.cfg.rbrIndex v s with rxcByte := some (dataLane v), rxcState := .push } := by
  unfold rxcRead
  rcases regRead_cases s.cfg.rbrIndex s with ⟨h, hq⟩ | ⟨h, hq⟩ <;> rw [hq]
  · exact .inl ⟨h, rfl⟩
  · exact .inr ⟨_, h, rfl⟩

theorem rdPop_cases (s : State) :
    (emptyR s = true ∧ rdPop s = emit [.popempty] s) ∨
    (emptyR s = false ∧ popSource s = none ∧ rdPop s = recordFault .unwrittenSlot s) ∨
    ∃ b, emptyR s = false ∧ popSource s = some b ∧
      rdPop s = { afterPop b s with rdByte := some b, rdState := .copy } := by
  unfold rdPop
  rcases popByte_cases s with ⟨h, hq⟩ | ⟨h, h', hq⟩ | ⟨b, h, h', hq⟩ <;> rw [hq]
  · exact .inl ⟨h, rfl⟩
  · exact .inr (.inl ⟨h, h', rfl⟩)
  · exact .inr (.inr ⟨b, h, h', rfl⟩)

theorem rdCopy_cases (s : State) :
    ∃ ok, ok = drawCopyOut s ∧ rdCopy s =
      { emit [.copyout s.rdDst [heldByte s.rdByte s] ok,
          .done .readOp (if ok then .ok else .copyFault) (if ok then 1 else 0)] s with
        rdByte := none, rdState := .idle } := by
  refine ⟨_, rfl, ?_⟩
  cases h : drawCopyOut s <;> simp [rdCopy, h, complete, emit]

theorem txStage_cases (s : State) :
    (s.txOff = s.txSize ∧ txStage s = { complete .writeOp .ok s.txSize s with txState := .idle }) ∨
    (s.txOff ≠ s.txSize ∧ drawCopyIn (chunkLen s) s = none ∧ txStage s =
      { emit [.copyin (chunkAddr s) (chunkLen s) none, .done .writeOp .copyFault 0] s with
        txState := .idle }) ∨
    ∃ bytes, s.txOff ≠ s.txSize ∧ drawCopyIn (chunkLen s) s = some bytes ∧ bytes.length = chunkLen s ∧
      txStage s =
        { emit [.copyin (chunkAddr s) (chunkLen s) (some bytes)] s with
          stage := Memory.writeAll s.stage 0 bytes
          stageLen := chunkLen s
          stageIdx := 0
          txOff := s.txOff + chunkLen s
          txState := .next } := by
  unfold txStage
  split
  · exact .inl ⟨by assumption, rfl⟩
  · rcases drawCopyIn_cases (chunkLen s) s with h | ⟨bs, h, hl⟩
    · exact .inr (.inl ⟨by assumption, h, by simp [h, complete, emit]⟩)
    · exact .inr (.inr ⟨bs, by assumption, h, hl, by simp [h]⟩)

theorem txNext_cases (s : State) :
    (s.stageIdx = s.stageLen ∧ txNext s = { s with txState := .stage }) ∨
    ∃ b, s.stageIdx ≠ s.stageLen ∧ b = heldByte (Memory.read s.stage s.stageIdx) s ∧ txNext s =
      { s with
        txCur := some b
        txCrPending := b == s.cfg.lf
        stageIdx := s.stageIdx + 1
        txSpins := 0
        txState := .poll } := by
  unfold txNext
  split
  · exact .inl ⟨by assumption, rfl⟩
  · exact .inr ⟨_, by assumption, rfl, rfl⟩

theorem txPoll_cases (s : State) :
    (s.cfg.nreg ≤ s.cfg.lsrIndex ∧ txPoll s = refuse .regIndexUnmodelled s) ∨
    ∃ v, v = drawWord (regaddr s.cfg s.cfg.lsrIndex) s ∧ s.cfg.lsrIndex < s.cfg.nreg ∧
      ((threSet s.cfg v = true ∧ txPoll s = { afterRead s.cfg.lsrIndex v s with txState := .put }) ∨
       (threSet s.cfg v = false ∧ s.cfg.spinBound = none ∧ txPoll s = afterRead s.cfg.lsrIndex v s) ∨
       ∃ bound, threSet s.cfg v = false ∧ s.cfg.spinBound = some bound ∧
        ((s.txSpins + 1 = bound ∧ txPoll s =
            { emit [.done .writeOp .txTimeout 0] (afterRead s.cfg.lsrIndex v s) with
              txSpins := s.txSpins + 1, txState := .idle }) ∨
         (s.txSpins + 1 ≠ bound ∧ txPoll s =
            { afterRead s.cfg.lsrIndex v s with txSpins := s.txSpins + 1 }))) := by
  unfold txPoll
  rcases regRead_cases s.cfg.lsrIndex s with ⟨h, hq⟩ | ⟨h, hq⟩ <;> rw [hq]
  · exact .inl ⟨h, rfl⟩
  · refine .inr ⟨_, rfl, h, ?_⟩
    dsimp only
    split
    · exact .inl ⟨by assumption, rfl⟩
    · have hf : threSet s.cfg (drawWord (regaddr s.cfg s.cfg.lsrIndex) s) = false := by
        simpa using ‹¬threSet s.cfg _ = true›
      unfold pollFailed
      cases hb : s.cfg.spinBound with
      | none => exact .inr (.inl ⟨hf, rfl, by simp [hb, afterRead]⟩)
      | some bound =>
        refine .inr (.inr ⟨bound, hf, rfl, ?_⟩)
        by_cases he : s.txSpins + 1 = bound
        · exact .inl ⟨he, by simp [hb, he, afterRead, complete, emit]⟩
        · exact .inr ⟨he, by simp [hb, he, afterRead]⟩

theorem txPut_cases (s : State) :
    (s.cfg.nreg ≤ s.cfg.thrIndex ∧ txPut s = refuse .regIndexUnmodelled s) ∨
    (s.cfg.thrIndex < s.cfg.nreg ∧
      ((s.txCrPending = true ∧ txPut s =
          { afterWrite s.cfg.thrIndex (heldByte s.txCur s) s with
            txcount := wrap s.cfg.cw (s.txcount + 1)
            txCur := some s.cfg.cr
            txCrPending := false
            txSpins := 0
            txState := .poll }) ∨
       (s.txCrPending = false ∧ txPut s =
          { afterWrite s.cfg.thrIndex (heldByte s.txCur s) s with
            txcount := wrap s.cfg.cw (s.txcount + 1), txCur := none, txState := .next }))) := by
  unfold txPut
  rcases regWrite_cases s.cfg.thrIndex (heldByte s.txCur s) s with ⟨h, hq⟩ | ⟨h, hq⟩ <;> rw [hq]
  · exact .inl ⟨h, rfl⟩
  · refine .inr ⟨h, ?_⟩
    dsimp only
    split
    · exact .inl ⟨by assumption, rfl⟩
    · exact .inr ⟨by simpa using ‹¬s.txCrPending = true›, rfl⟩

/-! ### The operations -/

theorem execNext_regRd (idx : BitVec 3) (s : State) :
    (s.cfg.nreg ≤ idx.toNat ∧ execNext (.regRd idx) s = refuse .regIndexUnmodelled s) ∨
    ∃ v, idx.toNat < s.cfg.nreg ∧ execNext (.regRd idx) s = afterRead idx.toNat v s := by
  show _ ∨ ∃ v, _ ∧ (regRead idx.toNat s).1 = _
  rcases regRead_cases idx.toNat s with ⟨h, hq⟩ | ⟨h, hq⟩
  · exact .inl ⟨h, congrArg Prod.fst hq⟩
  · exact .inr ⟨_, h, congrArg Prod.fst hq⟩

theorem execNext_regWr (idx : BitVec 3) (b : Byte) (s : State) :
    (s.cfg.nreg ≤ idx.toNat ∧ execNext (.regWr idx b) s = refuse .regIndexUnmodelled s) ∨
    (idx.toNat < s.cfg.nreg ∧ execNext (.regWr idx b) s = afterWrite idx.toNat b s) := by
  show _ ∨ _ ∧ (regWrite idx.toNat b s).1 = _
  rcases regWrite_cases idx.toNat b s with ⟨h, hq⟩ | ⟨h, hq⟩
  · exact .inl ⟨h, congrArg Prod.fst hq⟩
  · exact .inr ⟨h, congrArg Prod.fst hq⟩

theorem execNext_push (b : Byte) (s : State) : execNext (.push b) s = pushByte b s := rfl

theorem execNext_pop (s : State) :
    (emptyR s = true ∧ execNext .pop s = emit [.popempty] s) ∨
    (emptyR s = false ∧ popSource s = none ∧ execNext .pop s = recordFault .unwrittenSlot s) ∨
    ∃ b, emptyR s = false ∧ popSource s = some b ∧ execNext .pop s = afterPop b s := by
  show (_ ∧ (popByte s).1 = _) ∨ (_ ∧ _ ∧ (popByte s).1 = _) ∨ ∃ b, _ ∧ _ ∧ (popByte s).1 = _
  rcases popByte_cases s with ⟨h, hq⟩ | ⟨h, h', hq⟩ | ⟨b, h, h', hq⟩
  · exact .inl ⟨h, congrArg Prod.fst hq⟩
  · exact .inr (.inl ⟨h, h', congrArg Prod.fst hq⟩)
  · exact .inr (.inr ⟨b, h, h', congrArg Prod.fst hq⟩)

theorem execNext_syncWr (s : State) :
    execNext .syncWr s = { s with wsync := syncShift s.cfg.s s.wgray s.wsync } := rfl

theorem execNext_syncRw (s : State) :
    execNext .syncRw s = { s with rsync := syncShift s.cfg.s s.rgray s.rsync } := rfl

theorem execNext_rxIrq (s : State) :
    (s.rxcState = .idle ∧ execNext .rxIrq s = { s with rxcState := .read }) ∨
    (s.rxcState ≠ .idle ∧ execNext .rxIrq s = hold .rxIrq s) := by
  by_cases h : s.rxcState = .idle
  · exact .inl ⟨h, by simp [execNext, exec, execRxIrq, ready, h]⟩
  · exact .inr ⟨h, by simp [execNext, exec, execRxIrq, ready, h]⟩

theorem execNext_read (dst size : Word) (s : State) :
    (s.rdState = .idle ∧ execNext (.read dst size) s =
      { s with rdDst := addrOperand s.cfg dst, rdSize := sizeOperand s.cfg size, rdState := .wait }) ∨
    (s.rdState ≠ .idle ∧ execNext (.read dst size) s = hold (.read dst size) s) := by
  by_cases h : s.rdState = .idle
  · exact .inl ⟨h, by simp [execNext, exec, execRead, ready, h]⟩
  · exact .inr ⟨h, by simp [execNext, exec, execRead, ready, h]⟩

theorem execNext_write (src size : Word) (s : State) :
    (s.txState = .idle ∧ execNext (.write src size) s =
      { s with
        txSrc := addrOperand s.cfg src
        txSize := sizeOperand s.cfg size
        txOff := 0
        stageLen := 0
        stageIdx := 0
        txState := .stage }) ∨
    (s.txState ≠ .idle ∧ execNext (.write src size) s = hold (.write src size) s) := by
  by_cases h : s.txState = .idle
  · exact .inl ⟨h, by simp [execNext, exec, execWrite, ready, h]⟩
  · exact .inr ⟨h, by simp [execNext, exec, execWrite, ready, h]⟩

theorem execNext_cancel (s : State) :
    (s.rdState = .wait ∧ execNext .cancel s =
      { complete .readOp .interrupted 0 s with rdState := .idle }) ∨
    (s.rdState ≠ .wait ∧ execNext .cancel s = s) := by
  by_cases h : s.rdState = .wait
  · exact .inl ⟨h, by simp [execNext, exec, execCancel, waiting, h]⟩
  · exact .inr ⟨h, by simp [execNext, exec, execCancel, waiting, h]⟩

theorem execNext_openDev (s : State) : execNext .openDev s = complete .openOp .ok 0 s := rfl

theorem execNext_ctrlReset (arg : Word) (s : State) :
    execNext (.ctrlReset arg) s = complete .ctrlOp .ok 0 { s with txcount := 0 } := rfl

theorem execNext_ctrlGet (arg : Word) (s : State) :
    ∃ ok, ok = drawCopyOut s ∧ execNext (.ctrlGet arg) s =
      emit [.copyout (addrOperand s.cfg arg) (counterBytes s.cfg s.txcount) ok,
        .done .ctrlOp (if ok then .ok else .copyFault) 0] s :=
  ⟨_, rfl, by simp [execNext, exec, execCtrlGet, complete, emit]⟩

theorem execNext_ctrlOther (opcode arg : Word) (s : State) :
    execNext (.ctrlOther opcode arg) s = complete .ctrlOp .unsupported 0 s := rfl

end Sys2Proof.Machine
end

