-- ==== Sys2Proof/Laws/PerInstr.lean ====
section
/-! SUPPORT. The statement made per operation: the shape of its encoding (R90, R92, R93). -/

/-- The header of an operation names one, sets no reserved field, and gives the encoding's length. -/
def Sys2Proof.Laws.Encoded.Statement (i : Sys2Proof.Instr) : Prop :=
  Sys2Proof.opReserved i.header.op = false ∧ i.header.reservedFieldSet = false ∧
    (Sys2Proof.encode i).length = Sys2Proof.opLength i.header.op

namespace Sys2Proof

/-- A header built with its unused fields zero has the shape of an encoding. -/
theorem encoded_of_make {i : Instr} {op : BitVec 4} {idx : BitVec 3} {d : Byte}
    (h : i.header = Header.make op idx d) (ho : opReserved op = false) (hi : idx = 0#3 ∨ opUsesIdx op = true)
    (hd : d = 0#8 ∨ opUsesData op = true) (hl : (encode i).length = opLength op) :
    Laws.Encoded.Statement i := by
  refine ⟨by rw [h, make_op]; exact ho, ?_, by rw [h, make_op]; exact hl⟩
  rw [h, Header.reservedFieldSet, make_op, make_rsv, make_idx, make_data]
  rcases hi with rfl | hi <;> rcases hd with rfl | hd <;> simp [*]

namespace Laws.Encoded

theorem regRd (idx : BitVec 3) : Statement (.regRd idx) := encoded_of_make rfl rfl (.inr rfl) (.inl rfl) rfl

theorem regWr (idx : BitVec 3) (byte : Byte) : Statement (.regWr idx byte) :=
  encoded_of_make rfl rfl (.inr rfl) (.inr rfl) rfl

theorem push (byte : Byte) : Statement (.push byte) := encoded_of_make rfl rfl (.inl rfl) (.inr rfl) rfl

theorem pop : Statement .pop := encoded_of_make rfl rfl (.inl rfl) (.inl rfl) rfl

theorem syncWr : Statement .syncWr := encoded_of_make rfl rfl (.inl rfl) (.inl rfl) rfl

theorem syncRw : Statement .syncRw := encoded_of_make rfl rfl (.inl rfl) (.inl rfl) rfl

theorem rxIrq : Statement .rxIrq := encoded_of_make rfl rfl (.inl rfl) (.inl rfl) rfl

theorem openDev : Statement .openDev := encoded_of_make rfl rfl (.inl rfl) (.inl rfl) rfl

theorem read (dst size : Word) : Statement (.read dst size) :=
  encoded_of_make rfl rfl (.inl rfl) (.inl rfl) rfl

theorem write (src size : Word) : Statement (.write src size) :=
  encoded_of_make rfl rfl (.inl rfl) (.inl rfl) rfl

theorem ctrlReset (arg : Word) : Statement (.ctrlReset arg) :=
  encoded_of_make rfl rfl (.inl rfl) (.inl rfl) rfl

theorem ctrlGet (arg : Word) : Statement (.ctrlGet arg) := encoded_of_make rfl rfl (.inl rfl) (.inl rfl) rfl

theorem ctrlOther (opcode arg : Word) : Statement (.ctrlOther opcode arg) :=
  encoded_of_make rfl rfl (.inl rfl) (.inl rfl) rfl

theorem cancel : Statement .cancel := encoded_of_make rfl rfl (.inl rfl) (.inl rfl) rfl

end Laws.Encoded

end Sys2Proof
end

