-- ==== Sys2Proof/Laws/Runs.lean ====
section
/-! SUPPORT. What a step of a run can do (R331): a run refuses no line, so each step takes an operation, an
enabled engine step, or leaves an offer that is not enabled. -/

namespace Sys2Proof.Machine

/-- What a line that is not refused does to the state it is taken in. A request to a busy engine, and an
engine step that is not enabled, can only be offers. -/
inductive TakenKind (l : Line) (s1 t : State) : Prop where
  | stay (hl : l.annotation = .environment) (hn : ∀ a bytes, l.action ≠ .present a bytes)
      (he : ∀ e, l.action = .engine e → engineEnabled e s1 = false) (h : t = s1)
  | op (i : Instr) (s2 : State) (hp : Prepared s1 s2)
      (hr : ready i s1 = true ∨ l.annotation = .environment)
      (hi : s1.cfg.wiring = .assembled → Instr.internal i = false) (hn : ∀ e, l.action ≠ .engine e)
      (hd : ∀ a bytes, l.action = .present a bytes → ∃ rest, decode bytes = .ok (i, rest))
      (h : t = execNext i s2)
  | engine (e : EngineStep) (hl : l.action = .engine e) (he : engineEnabled e s1 = true)
      (h : t = engineStep e s1)

/-- A step that is not enabled and not refused is left, as an offer. -/
theorem notEnabled_left {an : Annotation} {s : State} (hr : (notEnabled an s).refused = none) :
    an = .environment ∧ notEnabled an s = s := by
  cases an <;> first | exact ⟨rfl, rfl⟩ | cases hr

/-- A line that is not refused is enabled and taken, or is an offer that is not enabled. -/
theorem takeStep_unrefused {an : Annotation} {en ann : Bool} {o : Host.Outcome State Fault Refusal}
    {s t : State} (h : takeStep an en ann o s = .next t) (hr : t.refused = none) :
    (en = true ∧ o = .next t) ∨ (en = false ∧ an = .environment ∧ t = s) := by
  unfold takeStep at h
  split at h
  · cases h
    exact .inr ⟨by simp_all, notEnabled_left hr⟩
  · split at h
    · cases h; cases hr
    · exact .inl ⟨by simp_all, h⟩

theorem taken_kind {l : Line} {s1 t : State} (h : runAction l s1 = .next t) (hr : t.refused = none) :
    TakenKind l s1 t := by
  unfold runAction at h
  split at h
  · next a bytes hl =>
    simp only [runPresent] at h
    split at h
    · cases h; cases hr
    · next i rest hdec =>
      split at h
      · next ha =>
        rcases takeStep_unrefused h hr with ⟨he, h⟩ | ⟨he, hen, -⟩
        · rw [exec_eq_next] at h
          refine .op i _ ?_ ?_ (admitted_internal ha) (by simp [hl]) ?_ (Host.Outcome.next.inj h).symm
          · unfold keepRest
            split <;> exact ⟨_, _, _, _, rfl⟩
          · rcases Bool.or_eq_true_iff.mp he with he | he
            · exact .inl he
            · cases han : l.annotation <;> simp_all [inNotation]
          · intro a' b' h'
            rw [hl] at h'
            cases h'
            exact ⟨_, hdec⟩
        · simp [hen, inNotation] at he
      · cases h; cases hr
  · next e hl =>
    rcases takeStep_unrefused h hr with ⟨he, h⟩ | ⟨he, hen, h⟩
    · exact .engine e hl he (Host.Outcome.next.inj h).symm
    · refine .stay hen (by simp [hl]) (fun e' h' => ?_) h
      rw [hl] at h'
      cases h'
      exact he
  · next k hl =>
    simp only [runResume] at h
    split at h
    · cases h
      obtain ⟨hen, hs⟩ := notEnabled_left hr
      exact .stay hen (by simp [hl]) (by simp [hl]) hs
    · next i _ =>
      rcases takeStep_unrefused h hr with ⟨he, h⟩ | ⟨-, hen, h⟩
      · rw [exec_eq_next] at h
        simp only [Bool.and_eq_true] at he
        exact .op i _ ⟨_, _, _, _, rfl⟩ (.inl he.1) (admitted_internal he.2) (by simp [hl]) (by simp [hl])
          (Host.Outcome.next.inj h).symm
      · exact .stay hen (by simp [hl]) (by simp [hl]) h

/-- No state of a run is refused. -/
theorem isRun_refused {ls : Nat → Line} {r : Nat → State} (h : IsRun ls r) (k : Nat) :
    (r k).refused = none := by
  have hk := h k
  unfold step at hk
  split at hk
  · cases hk
  · assumption

/-- Each step of a run takes its line. -/
theorem isRun_kind {ls : Nat → Line} {r : Nat → State} (h : IsRun ls r) (k : Nat) :
    ∃ s1, Prepared (r k) s1 ∧ TakenKind (ls k) s1 (r (k + 1)) := by
  have hk := h k
  rw [step_line (s := { r k with sched := [ls k] }) (isRun_refused h k) rfl] at hk
  exact ⟨_, ⟨_, _, _, _, rfl⟩, taken_kind hk (isRun_refused h (k + 1))⟩

end Sys2Proof.Machine
end

