-- ==== Sys2Proof/Laws/StepForm.lean ====
section
/-! SUPPORT. What a step does, one form per effect: `step_form` says that a step from `s` takes one of these
forms from a state that differs from `s` in the model's bookkeeping alone, so that an invariant is proved
once per form. -/

namespace Sys2Proof.Machine

/-- The forms of a step, with what each one's guard says of the state it starts from. A form named by an
internal operation occurs in the units' wiring alone (R96). -/
inductive StepForm (s : State) : State → Prop where
  | refused (r : Refusal) : StepForm s (refuse r s)
  | unchanged : StepForm s s
  | held (i : Instr) : StepForm s (hold i s)
  | regRead (idx : Nat) (v : Nat) (hw : s.cfg.wiring = .units) (hi : idx < s.cfg.nreg) :
      StepForm s (afterRead idx v s)
  | regWrite (idx : Nat) (b : Byte) (hw : s.cfg.wiring = .units) (hi : idx < s.cfg.nreg) :
      StepForm s (afterWrite idx b s)
  | push (b : Byte) (hw : s.cfg.wiring = .units) : StepForm s (pushByte b s)
  | popEmpty (he : emptyR s = true) : StepForm s (emit [.popempty] s)
  | popFault (he : emptyR s = false) (hn : popSource s = none) : StepForm s (recordFault .unwrittenSlot s)
  | pop (b : Byte) (hw : s.cfg.wiring = .units) (he : emptyR s = false) (hb : popSource s = some b) :
      StepForm s (afterPop b s)
  | syncWr : StepForm s { s with wsync := syncShift s.cfg.s s.wgray s.wsync }
  | syncRw : StepForm s { s with rsync := syncShift s.cfg.s s.rgray s.rsync }
  | rxIrq (hc : s.rxcState = .idle) : StepForm s { s with rxcState := .read }
  | read (dst size : Word) (hr : s.rdState = .idle) :
      StepForm s
        { s with rdDst := addrOperand s.cfg dst, rdSize := sizeOperand s.cfg size, rdState := .wait }
  | write (src size : Word) (ht : s.txState = .idle) :
      StepForm s
        { s with
          txSrc := addrOperand s.cfg src
          txSize := sizeOperand s.cfg size
          txOff := 0
          stageLen := 0
          stageIdx := 0
          txState := .stage }
  | cancel (hr : s.rdState = .wait) :
      StepForm s { complete .readOp .interrupted 0 s with rdState := .idle }
  | openDev : StepForm s (complete .openOp .ok 0 s)
  | ctrlReset : StepForm s (complete .ctrlOp .ok 0 { s with txcount := 0 })
  | ctrlGet (arg : Word) (ok : Bool) :
      StepForm s
        (emit [.copyout (addrOperand s.cfg arg) (counterBytes s.cfg s.txcount) ok,
          .done .ctrlOp (if ok then .ok else .copyFault) 0] s)
  | ctrlOther : StepForm s (complete .ctrlOp .unsupported 0 s)
  | rxcRead (v : Nat) (hc : s.rxcState = .read) (hi : s.cfg.rbrIndex < s.cfg.nreg) :
      StepForm s { afterRead s.cfg.rbrIndex v s with rxcByte := some (dataLane v), rxcState := .push }
  | rxcPush (hc : s.rxcState = .push) :
      StepForm s
        { emit [.wake, .irqHandled] (pushByte (heldByte s.rxcByte s) s) with
          rxcByte := none, rxcState := .idle }
  | rdPop (b : Byte) (hr : s.rdState = .wait) (he : emptyR s = false) (hb : popSource s = some b) :
      StepForm s { afterPop b s with rdByte := some b, rdState := .copy }
  | rdCopy (ok : Bool) (hr : s.rdState = .copy) :
      StepForm s
        { emit [.copyout s.rdDst [heldByte s.rdByte s] ok,
            .done .readOp (if ok then .ok else .copyFault) (if ok then 1 else 0)] s with
          rdByte := none, rdState := .idle }
  | stageDone (ht : s.txState = .stage) (ho : s.txOff = s.txSize) :
      StepForm s { complete .writeOp .ok s.txSize s with txState := .idle }
  | stageFailed (ht : s.txState = .stage) (ho : s.txOff ≠ s.txSize) :
      StepForm s
        { emit [.copyin (chunkAddr s) (chunkLen s) none, .done .writeOp .copyFault 0] s with
          txState := .idle }
  | staged (bytes : List Byte) (ht : s.txState = .stage) (ho : s.txOff ≠ s.txSize)
      (hl : bytes.length = chunkLen s) :
      StepForm s
        { emit [.copyin (chunkAddr s) (chunkLen s) (some bytes)] s with
          stage := Memory.writeAll s.stage 0 bytes
          stageLen := chunkLen s
          stageIdx := 0
          txOff := s.txOff + chunkLen s
          txState := .next }
  | chunkSent (ht : s.txState = .next) (hi : s.stageIdx = s.stageLen) :
      StepForm s { s with txState := .stage }
  | nextByte (b : Byte) (ht : s.txState = .next) (hi : s.stageIdx ≠ s.stageLen)
      (hb : b = heldByte (Memory.read s.stage s.stageIdx) s) :
      StepForm s
        { s with
          txCur := some b
          txCrPending := b == s.cfg.lf
          stageIdx := s.stageIdx + 1
          txSpins := 0
          txState := .poll }
  | pollReady (v : Nat) (ht : s.txState = .poll) (hi : s.cfg.lsrIndex < s.cfg.nreg)
      (hv : threSet s.cfg v = true) : StepForm s { afterRead s.cfg.lsrIndex v s with txState := .put }
  | pollBusy (v : Nat) (ht : s.txState = .poll) (hi : s.cfg.lsrIndex < s.cfg.nreg)
      (hv : threSet s.cfg v = false) (hb : s.cfg.spinBound = none) : StepForm s (afterRead s.cfg.lsrIndex v s)
  | pollTimeout (v : Nat) (bound : Nat) (ht : s.txState = .poll) (hi : s.cfg.lsrIndex < s.cfg.nreg)
      (hv : threSet s.cfg v = false) (hb : s.cfg.spinBound = some bound) (hs : s.txSpins + 1 = bound) :
      StepForm s
        { emit [.done .writeOp .txTimeout 0] (afterRead s.cfg.lsrIndex v s) with
          txSpins := s.txSpins + 1, txState := .idle }
  | pollCounted (v : Nat) (bound : Nat) (ht : s.txState = .poll) (hi : s.cfg.lsrIndex < s.cfg.nreg)
      (hv : threSet s.cfg v = false) (hb : s.cfg.spinBound = some bound) (hs : s.txSpins + 1 ≠ bound) :
      StepForm s { afterRead s.cfg.lsrIndex v s with txSpins := s.txSpins + 1 }
  | putLf (ht : s.txState = .put) (hi : s.cfg.thrIndex < s.cfg.nreg) (hc : s.txCrPending = true) :
      StepForm s
        { afterWrite s.cfg.thrIndex (heldByte s.txCur s) s with
          txcount := wrap s.cfg.cw (s.txcount + 1)
          txCur := some s.cfg.cr
          txCrPending := false
          txSpins := 0
          txState := .poll }
  | put (ht : s.txState = .put) (hi : s.cfg.thrIndex < s.cfg.nreg) (hc : s.txCrPending = false) :
      StepForm s
        { afterWrite s.cfg.thrIndex (heldByte s.txCur s) s with
          txcount := wrap s.cfg.cw (s.txcount + 1), txCur := none, txState := .next }

/-- What an operation that a step runs does. -/
theorem execNext_form (i : Instr) (s : State) (hi : s.cfg.wiring = .assembled → Instr.internal i = false) :
    StepForm s (execNext i s) := by
  have hu : Instr.internal i = true → s.cfg.wiring = .units := by
    intro hint
    cases hc : s.cfg.wiring with
    | units => rfl
    | assembled => rw [hi hc] at hint; cases hint
  cases i with
  | regRd idx =>
    rcases execNext_regRd idx s with ⟨h, hq⟩ | ⟨v, h, hq⟩ <;> rw [hq]
    exacts [.refused _, .regRead _ _ (hu rfl) h]
  | regWr idx b =>
    rcases execNext_regWr idx b s with ⟨h, hq⟩ | ⟨h, hq⟩ <;> rw [hq]
    exacts [.refused _, .regWrite _ _ (hu rfl) h]
  | push b => exact .push b (hu rfl)
  | pop =>
    rcases execNext_pop s with ⟨h, hq⟩ | ⟨h, h2, hq⟩ | ⟨b, h, h2, hq⟩ <;> rw [hq]
    exacts [.popEmpty h, .popFault h h2, .pop b (hu rfl) h h2]
  | syncWr => exact .syncWr
  | syncRw => exact .syncRw
  | rxIrq =>
    rcases execNext_rxIrq s with ⟨h, hq⟩ | ⟨h, hq⟩ <;> rw [hq]
    exacts [.rxIrq h, .held _]
  | openDev => exact .openDev
  | read d n =>
    rcases execNext_read d n s with ⟨h, hq⟩ | ⟨h, hq⟩ <;> rw [hq]
    exacts [.read d n h, .held _]
  | write d n =>
    rcases execNext_write d n s with ⟨h, hq⟩ | ⟨h, hq⟩ <;> rw [hq]
    exacts [.write d n h, .held _]
  | ctrlReset a => exact .ctrlReset
  | ctrlGet a =>
    obtain ⟨ok, -, hq⟩ := execNext_ctrlGet a s
    rw [hq]
    exact .ctrlGet a ok
  | ctrlOther o a => exact .ctrlOther
  | cancel =>
    rcases execNext_cancel s with ⟨h, hq⟩ | ⟨h, hq⟩ <;> rw [hq]
    exacts [.cancel h, .unchanged]

/-- What an enabled engine step does. -/
theorem engineStep_form (e : EngineStep) (s : State) (he : engineEnabled e s = true) :
    StepForm s (engineStep e s) := by
  simp only [engineEnabled, Bool.and_eq_true] at he
  replace he := he.2
  cases e with
  | rxcRead =>
    rcases rxcRead_cases s with ⟨h, hq⟩ | ⟨v, h, hq⟩ <;> rw [engineStep, hq]
    exacts [.refused _, .rxcRead v (by simpa using he) h]
  | rxcPush => exact .rxcPush (by simpa using he)
  | rdPop =>
    rcases rdPop_cases s with ⟨h, hq⟩ | ⟨h, h2, hq⟩ | ⟨b, h, h2, hq⟩ <;> rw [engineStep, hq]
    exacts [.popEmpty h, .popFault h h2, .rdPop b (by simp at he; exact he.1) h h2]
  | rdCopy =>
    obtain ⟨ok, -, hq⟩ := rdCopy_cases s
    rw [engineStep, hq]
    exact .rdCopy ok (by simpa using he)
  | txStage =>
    replace he : s.txState = .stage := by simpa using he
    rcases txStage_cases s with ⟨h, hq⟩ | ⟨h, -, hq⟩ | ⟨b, h, -, h3, hq⟩ <;> rw [engineStep, hq]
    exacts [.stageDone he h, .stageFailed he h, .staged b he h h3]
  | txNext =>
    replace he : s.txState = .next := by simpa using he
    rcases txNext_cases s with ⟨h, hq⟩ | ⟨b, h, hb, hq⟩ <;> rw [engineStep, hq]
    exacts [.chunkSent he h, .nextByte b he h hb]
  | txPoll =>
    replace he : s.txState = .poll := by simpa using he
    rcases txPoll_cases s with
      ⟨h, hq⟩ | ⟨v, -, h, ⟨hv, hq⟩ | ⟨hv, hb, hq⟩ | ⟨b, hv, hb, ⟨hs, hq⟩ | ⟨hs, hq⟩⟩⟩ <;> rw [engineStep, hq]
    exacts [.refused _, .pollReady v he h hv, .pollBusy v he h hv hb, .pollTimeout v b he h hv hb hs,
      .pollCounted v b he h hv hb hs]
  | txPut =>
    replace he : s.txState = .put := by simpa using he
    rcases txPut_cases s with ⟨h, hq⟩ | ⟨h, ⟨hc, hq⟩ | ⟨hc, hq⟩⟩ <;> rw [engineStep, hq]
    exacts [.refused _, .putLf he h hc, .put he h hc]

/-- Everything a step can do, by form. -/
theorem step_form {s t : State} (h : step s = .next t) :
    s.refused = none ∧ ∃ s1, Prepared s s1 ∧ StepForm s1 t := by
  obtain ⟨h0, s1, hp, hk⟩ := step_cases h
  refine ⟨h0, s1, hp, ?_⟩
  cases hk with
  | refuse r hq => subst hq; exact .refused r
  | stay hq => subst hq; exact .unchanged
  | op i hi hq => subst hq; exact execNext_form i s1 hi
  | engine e he hq => subst hq; exact engineStep_form e s1 he

end Sys2Proof.Machine
end

