-- ==== Sys2Proof/Laws/Streams.lean ====
section
/-! SUPPORT. The projections of a log that grows by appending (R50, R51, R237), the transmit discipline
along it, and the sizes an accepted configuration has. -/

namespace Sys2Proof.Machine

@[simp] theorem rxs_append (a b : List Event) : rxs (a ++ b) = rxs a ++ rxs b := by simp [rxs]

@[simp] theorem cons_append (a b : List Event) : cons (a ++ b) = cons a ++ cons b := by simp [cons]

@[simp] theorem txs_append (c : Config) (a b : List Event) : txs c (a ++ b) = txs c a ++ txs c b := by
  simp [txs]

@[simp] theorem stagedBytes_append (a b : List Event) :
    stagedBytes (a ++ b) = stagedBytes a ++ stagedBytes b := by simp [stagedBytes]

@[simp] theorem expandLf_append (c : Config) (a b : List Byte) :
    expandLf c (a ++ b) = expandLf c a ++ expandLf c b := by simp [expandLf]

/-- Following the discipline along a longer log goes on from where the shorter one ended. -/
theorem followPolls_append (c : Config) (l es : List Event) {a b : Bool} (h : followPolls c a l = some b) :
    followPolls c a (l ++ es) = followPolls c b es := by
  induction l generalizing a with
  | nil => simp [followPolls] at h; subst h; rfl
  | cons e l ih =>
    cases e <;> simp only [followPolls, List.cons_append] at h ⊢ <;> try exact ih h
    · split at h
      · rename_i h1
        rw [if_pos h1]
        exact ih h
      · rename_i h1
        rw [if_neg h1]
        exact ih h
    · split at h
      · rename_i h1
        rw [if_pos h1]
        split at h
        · rename_i h2
          rw [if_pos h2]
          exact ih h
        · cases h
      · rename_i h1
        rw [if_neg h1]
        exact ih h

/-- An accepted capacity is `2^P` and at least 2 (R6, R8). -/
theorem goodConfig_size {c : Config} (h : GoodConfig c) : 2 ≤ c.n ∧ 2 ^ c.p = c.n := by
  obtain ⟨⟨k, hk, hn⟩, -⟩ := h
  have hp : c.p = k := by rw [Config.p, hn, Nat.log2_two_pow]
  rw [hp, hn]
  exact ⟨by simpa using Nat.pow_le_pow_right (show 0 < 2 by decide) hk, rfl⟩

/-- The slot arrays of a launched state are in canonical form. -/
theorem launch_memory_wf (c : Config) :
    Memory.wf (State.launch c).mem = true ∧ Memory.wf (State.launch c).stage = true := ⟨rfl, rfl⟩

/-- The slot arrays of the reset state are in canonical form. -/
theorem reset_memory_wf : Memory.wf State.reset.mem = true ∧ Memory.wf State.reset.stage = true := ⟨rfl, rfl⟩

end Sys2Proof.Machine
end

