-- ==== Sys2Proof/Tests/Slice0.lean ====
section
/-! SUPPORT. Small tests, their expected results taken from the spec's encodings (R104, 95 L2.1) and vectors
(95 L1 to L2.9), and one witness per obligation that its hypotheses can be met. -/

namespace Sys2Proof.Tests

open Sys2Proof Sys2Proof.Machine

/-! ### Helpers -/

/-- A field of a next state. -/
def onNext {α : Type} (o : Host.Outcome State Fault Refusal) (f : State → α) : Option α :=
  match o with
  | .next t => some (f t)
  | .fault _ => none
  | .refused _ => none

/-- The reset state of the units taken alone. -/
def units : State := State.launch { Config.default with wiring := .units }

/-- The reset state with one line to take. -/
def withLine (l : Line) (s : State) : State := { s with sched := l :: s.sched }

/-- The reset state with an answer at hand. -/
def answering (a : Answer) (s : State) : State := { s with answer := some a }

/-- A small FIFO of four slots in the units' wiring. -/
def small : State := State.launch { Config.default with n := 4, wiring := .units }

/-- A small FIFO with one byte pushed and crossed. -/
def oneByte : State :=
  { small with
    mem := [(0, 0x68#8)], wptr := 1, wgray := 1, wsync := [1, 1], log := [.pushed 0x68#8 false] }

/-- The same in the assembled block. -/
def oneByteA : State := { oneByte with cfg := { oneByte.cfg with wiring := .assembled } }

/-- The assembled block with a READ waiting and one byte seen. -/
def waitingRead : State := { oneByteA with rdState := .wait, rdDst := 0x1000, rdSize := 1 }

/-- A small FIFO with three bytes unread, its capacity. -/
def threeBytes : State :=
  { small with
    mem := [(0, 1#8), (1, 2#8), (2, 3#8)], wptr := 3, wgray := 2, wsync := [2, 2]
    log := [.pushed 1#8 false, .pushed 2#8 false, .pushed 3#8 false] }

/-- A write of one LF, staged and about to be taken. -/
def staged : State :=
  { State.reset with
    txState := .next, txSrc := 0x2000, txSize := 1, txOff := 1, stage := [(0, 0x0A#8)], stageLen := 1
    log := [.copyin 0x2000 1 (some [0x0A#8])] }

/-- The same write with the LF taken, polled and about to be put. -/
def putting : State :=
  { staged with
    txState := .put, txCur := some 0x0A#8, txCrPending := true, stageIdx := 1
    log := [.copyin 0x2000 1 (some [0x0A#8]), .regrd 5 0x60] }

/-! ### Well-formedness -/

/-- R94: opcodes 0 and 1 are not CTRL_OTHER. -/
theorem test_wellFormed_refuses :
    (Instr.ctrlOther 0#32 0x3000#32).wellFormed = false ∧ (Instr.ctrlOther 1#32 0#32).wellFormed = false ∧
    (Instr.ctrlOther 2#32 0#32).wellFormed = true := by decide

/-! ### Decoding, each word written out from R90, R93, R104 and L2.1 -/

theorem test_decode_regRd : decode [0x00#8, 0x15#8] = .ok (.regRd 5#3, []) := rfl
theorem test_decode_regWr : decode [0x61#8, 0x20#8] = .ok (.regWr 0#3 0x61#8, []) := rfl
theorem test_decode_regWr_index : decode [0xFF#8, 0x27#8] = .ok (.regWr 7#3 0xFF#8, []) := rfl
theorem test_decode_push : decode [0x68#8, 0x30#8] = .ok (.push 0x68#8, []) := rfl
theorem test_decode_pop : decode [0x00#8, 0x40#8] = .ok (.pop, []) := rfl
theorem test_decode_syncWr : decode [0x00#8, 0x50#8] = .ok (.syncWr, []) := rfl
theorem test_decode_syncRw : decode [0x00#8, 0x60#8] = .ok (.syncRw, []) := rfl
theorem test_decode_rxIrq : decode [0x00#8, 0x70#8] = .ok (.rxIrq, []) := rfl
theorem test_decode_openDev : decode [0x00#8, 0x80#8] = .ok (.openDev, []) := rfl

/-- R92: READ, then OPEN, in one stream. -/
theorem test_decode_read :
    decode [0x00#8, 0x90#8, 0x00#8, 0x10#8, 0#8, 0#8, 1#8, 0#8, 0#8, 0#8, 0x00#8, 0x80#8] =
      .ok (.read 0x1000#32 1#32, [0x00#8, 0x80#8]) := rfl
theorem test_decode_write :
    decode [0x00#8, 0xA0#8, 0x00#8, 0x20#8, 0#8, 0#8, 5#8, 0#8, 0#8, 0#8] =
      .ok (.write 0x2000#32 5#32, []) := rfl
theorem test_decode_ctrlReset :
    decode [0x00#8, 0xB0#8, 0#8, 0#8, 0#8, 0#8, 0#8, 0#8, 0#8, 0#8] = .ok (.ctrlReset 0#32, []) := rfl
theorem test_decode_ctrlGet :
    decode [0x00#8, 0xB0#8, 1#8, 0#8, 0#8, 0#8, 0x00#8, 0x30#8, 0#8, 0#8] =
      .ok (.ctrlGet 0x3000#32, []) := rfl
theorem test_decode_ctrlOther :
    decode [0x00#8, 0xB0#8, 0xFF#8, 0xFF#8, 0xFF#8, 0xFF#8, 0#8, 0#8, 0#8, 0#8] =
      .ok (.ctrlOther 0xFFFFFFFF#32 0#32, []) := rfl
theorem test_decode_cancel : decode [0x00#8, 0xC0#8] = .ok (.cancel, []) := rfl

/-- L2.1: reserved operations 0x0000, 0xD000, 0xE000, 0xF123. -/
theorem test_decode_reservedOp :
    decode [0x00#8, 0x00#8] = .error .reservedOp ∧ decode [0x00#8, 0xD0#8] = .error .reservedOp ∧
    decode [0x00#8, 0xE0#8] = .error .reservedOp ∧ decode [0x23#8, 0xF1#8] = .error .reservedOp :=
  ⟨rfl, rfl, rfl, rfl⟩

/-- L2.1: reserved fields of 0x5001, 0x7100, 0x8800, 0x1800, 0x3100. -/
theorem test_decode_reservedField :
    decode [0x01#8, 0x50#8] = .error .reservedField ∧ decode [0x00#8, 0x71#8] = .error .reservedField ∧
    decode [0x00#8, 0x88#8] = .error .reservedField ∧ decode [0x00#8, 0x18#8] = .error .reservedField ∧
    decode [0x00#8, 0x31#8] = .error .reservedField := ⟨rfl, rfl, rfl, rfl, rfl⟩

/-- The opcode table's numbering: bit 0 is the least significant bit of the header. -/
theorem test_decodeTableWord :
    decodeTableWord 16 0x1500 = some (.regRd 5#3) ∧
    decodeTableWord 80 (0xB000 + 0x00000001 * 2 ^ 16 + 0x00003000 * 2 ^ 48) = some (.ctrlGet 0x3000#32) := by
  decide

/-! ### The step -/

/-- A placed instruction is the first that runs after reset. -/
theorem test_placed_runs_first :
    onNext (step (State.reset.withFetchWord 16 0x7000)) (fun t => t.rxcState) = some .read ∧
    onNext (step (State.reset.withFetchWord 16 0x3068)) (fun t => t.log) = some [.pushed 0x68#8 false] ∧
    onNext (step (State.reset.withFetchWord 80 (0xA000 + 5 * 2 ^ 48))) (fun t => t.txSize) = some 5 := by
  decide

/-- L2.1: in the assembled block a presented PUSH is refused, and the state after has no step. -/
theorem test_internal_op_refused :
    onNext (step (withLine (opLine (.push 0x68#8) .bare) State.reset)) (fun t => t.refused) =
      some (some .internalOp) ∧
    core.run 2 (withLine (opLine (.push 0x68#8) .bare) State.reset) = .refused .internalOp := ⟨by decide, rfl⟩

/-! ### The register mux (L2.2) -/

theorem test_regaddr :
    regaddr Config.default 7 = 0x1000001C ∧
    regaddr { Config.default with base := 0xFFFFFFF0 } 3 = 0xFFFFFFFC ∧
    regaddr { Config.default with base := 0xFFFFFFF0 } 5 = 0x00000004 := by decide
theorem test_regRd :
    onNext (exec (.regRd 5#3) (answering (.word 0x60) units)) (fun t => t.log) =
      some [.regrd 5 0x60] := by decide
theorem test_regWr :
    onNext (exec (.regWr 0#3 0x0A#8) units) (fun t => (t.log, txs t.cfg t.log)) =
      some ([.regwr 0 0x0000000A], [0x0A#8]) := by decide
theorem test_thre :
    threSet Config.default 0x60 = true ∧ threSet Config.default 0xFFFFFFFF = true ∧
    threSet { Config.default with threMask := 0x120 } 0xFFFFFFDF = false ∧
    threSet Config.default 0x40 = false ∧ threSet Config.default 0xFFFFFFDF = false := by decide

/-- L2.2: LSR_INDEX = 9, whose poll is refused before it draws. -/
theorem test_regIndex_unmodelled :
    onNext (step (withLine (engineLine .txPoll .bare)
      { State.launch { Config.default with lsrIndex := 9 } with txState := .poll })) (fun t => t.refused) =
      some (some .regIndexUnmodelled) := by decide

/-! ### The FIFO (L2.3, L2.4) -/

theorem test_gray :
    gray 42 = 0x3F ∧ gray 62 = 0x21 ∧ gray 63 = 0x20 ∧ g2b 6 0x20 = 63 ∧ g2b 6 0x3F = 42 ∧ g2b 6 0x15 = 25 := by
  decide
/-- F2. -/
theorem test_push :
    onNext (exec (.push 0x68#8) units) (fun t => (Memory.read t.mem 0, t.wptr, t.wgray, t.log)) =
      some (some 0x68#8, 1, 1, [.pushed 0x68#8 false]) := by decide
/-- F15: the count wraps, the flag stays. -/
theorem test_push_full :
    onNext (exec (.push 9#8) { threeBytes with ovfFlag := true, ovfCount := 0xFFFFFFFF })
      (fun t => (t.ovfCount, t.ovfFlag, t.wptr)) = some (0, true, 0) := by decide
/-- F7. -/
theorem test_pop :
    onNext (exec .pop oneByte) (fun t => (t.rptr, t.rgray, emptyR t, t.log)) =
      some (1, 1, true, [.pushed 0x68#8 false, .popped 0x68#8]) := by decide
/-- F1. -/
theorem test_pop_empty :
    onNext (exec .pop units) (fun t => (t.rptr, t.log)) = some (0, [.popempty]) := by decide
/-- F4: one edge is not enough. -/
theorem test_syncWr :
    onNext (exec .syncWr { units with wptr := 1, wgray := 1 }) (fun t => (t.wsync, emptyR t)) =
      some ([1, 0], true) := by decide
/-- F17, its first edge. -/
theorem test_syncRw :
    onNext (exec .syncRw { units with rptr := 1, rgray := 1, wptr := 1, wgray := 1 }) (fun t => t.rsync) =
      some [1, 0] := by decide

/-! ### The receive path (L2.5, L2.6) -/

/-- X1. -/
theorem test_rxIrq : onNext (exec .rxIrq State.reset) (fun t => t.rxcState) = some .read := by decide
/-- X2. -/
theorem test_rxIrq_held :
    onNext (exec .rxIrq { State.reset with rxcState := .read }) (fun t => (t.rxcState, t.held)) =
      some (.read, [.rxIrq]) := by decide
/-- X4. -/
theorem test_rxcRead :
    (rxcRead (answering (.word 0xFFFFFF41) { State.reset with rxcState := .read })).rxcByte =
      some 0x41#8 := by decide
/-- X5. -/
theorem test_rxcPush :
    (rxcPush { State.reset with rxcState := .push, rxcByte := some 0x68#8 }).log =
      [.pushed 0x68#8 false, .wake, .irqHandled] := by decide
/-- D1. -/
theorem test_read :
    onNext (exec (.read 0x1000#32 16#32) State.reset) (fun t => (t.rdState, t.rdDst, t.rdSize)) =
      some (.wait, 0x1000, 16) := by decide
/-- D2. -/
theorem test_read_held :
    onNext (exec (.read 0x2000#32 1#32) { State.reset with rdState := .wait, rdDst := 0x1000 })
      (fun t => (t.rdDst, t.held)) = some (0x1000, [.read 0x2000#32 1#32]) := by decide
/-- D7: the byte is gone. -/
theorem test_rdCopy_fail :
    (rdCopy (answering (.copied false)
      { State.reset with rdState := .copy, rdByte := some 0x55#8, rdDst := 0x1000 })).log =
      [.copyout 0x1000 [0x55#8] false, .done .readOp .copyFault 0] := by decide
/-- D3. -/
theorem test_cancel :
    onNext (exec .cancel { State.reset with rdState := .wait }) (fun t => (t.rdState, t.log)) =
      some (.idle, [.done .readOp .interrupted 0]) := by decide
/-- D6. -/
theorem test_cancel_copy :
    onNext (exec .cancel { State.reset with rdState := .copy }) (fun t => (t.rdState, t.log)) =
      some (.copy, []) := by decide

/-! ### The transmit path (L2.7) -/

theorem test_write :
    onNext (exec (.write 0x2000#32 5#32) { State.reset with stageLen := 3, stageIdx := 3, txOff := 9 })
      (fun t => (t.txState, t.txSrc, t.txSize, t.txOff, t.stageLen, t.stageIdx)) =
      some (.stage, 0x2000, 5, 0, 0, 0) := by decide
/-- T18. -/
theorem test_write_held :
    onNext (exec (.write 0x3000#32 1#32) { State.reset with txState := .poll }) (fun t => t.held) =
      some [.write 0x3000#32 1#32] := by decide
/-- T11: the last chunk of 200 bytes. -/
theorem test_txStage_chunk :
    (txStage (answering (.copiedIn none)
      { State.reset with txState := .stage, txSrc := 0x2000, txSize := 200, txOff := 192 })).log =
      [.copyin 0x20C0 8 none, .done .writeOp .copyFault 0] := by decide
/-- T2, TX.NEXT. -/
theorem test_txNext_lf :
    ((txNext staged).txCur, (txNext staged).txCrPending, (txNext staged).txState) =
      (some 0x0A#8, true, .poll) := by decide
/-- T2, the first TX.PUT. -/
theorem test_txPut_lf :
    ((txPut putting).txCur, (txPut putting).txCrPending, (txPut putting).txState, (txPut putting).txcount) =
      (some 0x0D#8, false, .poll, 1) := by decide
/-- T17: a bound of one. -/
theorem test_txPoll_bound :
    (txPoll (answering (.word 0)
      { State.launch { Config.default with spinBound := some 1 } with txState := .poll })).log =
      [.regrd 5 0, .done .writeOp .txTimeout 0] := by decide

/-! ### Control (L2.8) -/

theorem test_open : onNext (exec .openDev State.reset) (fun t => t.log) = some [.done .openOp .ok 0] := by
  decide
/-- K2. -/
theorem test_ctrlReset :
    onNext (exec (.ctrlReset 0#32) { State.reset with txcount := 6 }) (fun t => (t.txcount, t.log)) =
      some (0, [.done .ctrlOp .ok 0]) := by decide
/-- K3. -/
theorem test_ctrlGet :
    onNext (exec (.ctrlGet 0x3000#32) (answering (.copied true) { State.reset with txcount := 0x12345678 }))
      (fun t => t.log) =
      some [.copyout 0x3000 [0x78#8, 0x56#8, 0x34#8, 0x12#8] true, .done .ctrlOp .ok 0] := by decide
/-- K4. -/
theorem test_ctrlGet_fail :
    onNext (exec (.ctrlGet 0x3000#32) (answering (.copied false) { State.reset with txcount := 6 }))
      (fun t => (t.txcount, completions t.log)) = some (6, [.done .ctrlOp .copyFault 0]) := by decide
/-- K6. -/
theorem test_ctrlOther :
    onNext (exec (.ctrlOther 0xFFFFFFFF#32 0x3000#32) State.reset) (fun t => t.log) =
      some [.done .ctrlOp .unsupported 0] := by decide

/-! ### Launch (L2.9) -/

theorem test_launch_refusals :
    (State.launch { Config.default with n := 48 }).refused = some .badConfig ∧
    (State.launch { Config.default with s := 1 }).refused = some .badConfig ∧
    (State.launch { Config.default with spinBound := some 0 }).refused = some .badConfig ∧
    (State.launch { Config.default with base := 0x10000002 }).refused = some .misalignedBase ∧
    (State.launch { Config.default with n := 2, s := 3 }).refused = none := by decide
theorem test_reset_signals :
    emptyR State.reset = true ∧ fullW State.reset = false ∧ rdCount State.reset = 0 ∧ wrCount State.reset = 0 ∧
    rxAvail State.reset = false ∧ waiting State.reset = false := by decide

/-! ### The notation (R100 to R103) -/

theorem test_assemble_op :
    assembleLine Config.default "READ 0x1000, 1 ; one byte".toList =
      some [⟨.present .host [0x00#8, 0x90#8, 0x00#8, 0x10#8, 0#8, 0#8, 1#8, 0#8, 0#8, 0#8], .bare⟩] := by decide
theorem test_assemble_draw :
    assembleLine Config.default "TX.STAGE => ok \"ab\\ncd\"".toList =
      some [⟨.engine .txStage, .answer (.copiedIn (some [0x61#8, 0x62#8, 0x0A#8, 0x63#8, 0x64#8]))⟩] := by decide
theorem test_assemble_recv :
    assembleLine Config.default "RECV 'h'".toList =
      some [⟨.present .uart [0x00#8, 0x70#8], .bare⟩, ⟨.engine .rxcRead, .answer (.word 0x68)⟩,
        ⟨.engine .rxcPush, .bare⟩] := by decide
/-- R102: what a line must say of its draw is checked when its step is taken. -/
theorem test_assemble_bare :
    assembleLine Config.default "RXC.READ".toList = some [⟨.engine .rxcRead, .bare⟩] := by decide
/-- A character past 0xFF (log 22), and an index past 7. -/
theorem test_assemble_refused :
    assembleLine Config.default "PUSH '\u0100'".toList = none ∧
    assembleLine Config.default "REG_RD 8".toList = none := by decide

/-! ### Well-formed schedules (R102, R103) -/

/-- R102: a draw without its answer, an answer without its draw, and a chunk of another length. -/
theorem test_annotation_refused :
    onNext (step (withLine (engineLine .rxcRead .bare) { State.reset with rxcState := .read }))
      (fun t => (t.refused, t.rxcState)) = some (some .illFormedAnnotation, .read) ∧
    onNext (step (withLine (opLine .pop (.answer (.byte 1#8))) oneByte)) (fun t => t.refused) =
      some (some .illFormedAnnotation) ∧
    onNext (step (withLine (opLine .pop .bare) { oneByte with ovfFlag := true })) (fun t => t.refused) =
      some (some .illFormedAnnotation) ∧
    onNext (step (withLine (engineLine .txStage (.answer (.copiedIn (some [1#8, 2#8]))))
      { State.reset with txState := .stage, txSize := 1 })) (fun t => t.refused) =
      some (some .illFormedAnnotation) := by decide
/-- R14, R200, R296: the UART offers two RX_IRQ in one stream, to an idle engine (the second waits) and to a
busy one (both wait). -/
theorem test_offered_stream_held :
    (onNext (core.run 2 (withLine ⟨.present .uart [0#8, 0x70#8, 0#8, 0x70#8], .environment⟩ State.reset))
      fun t : State => (t.refused, t.rxcState, t.held, t.sched)) = some (none, .read, [.rxIrq], []) ∧
    (onNext (core.run 2 (withLine ⟨.present .uart [0#8, 0x70#8, 0#8, 0x70#8], .environment⟩
      { State.reset with rxcState := .push, rxcByte := some 1#8 }))
      fun t : State => (t.refused, t.rxcState, t.held)) = some (none, .push, [.rxIrq, .rxIrq]) := by decide
/-- An offered engine step that is not enabled is left alone. -/
theorem test_offered_step_left :
    onNext (step (withLine (engineLine .txPut .environment) State.reset)) (fun t => (t.refused, t.log)) =
      some (none, []) := by decide
/-- R103: GETC while a READ waits. -/
theorem test_busy_line_refused :
    onNext (step (withLine (opLine (.read 2#32 1#32) .bare) { State.reset with rdState := .wait, rdDst := 1 }))
      (fun t => (t.refused, t.rdDst, t.held)) = some (some .lineNotEnabled, 1, []) := by decide

/-! ### Witnesses: each obligation's hypotheses, all together -/

theorem witness_DecodeUndoesEncode :
    (Instr.ctrlOther 2#32 0#32).wellFormed = true ∧ (Instr.ctrlOther 0xFFFFFFFF#32 0#32).wellFormed = true ∧
    (Instr.regWr 7#3 0xFF#8).wellFormed = true := by decide

theorem witness_DecodedStreamIsItsEncoding : decode [0x00#8, 0x80#8, 0x01#8] = .ok (.openDev, [0x01#8]) := rfl

/-- OP 0, 1, 12 and 13, the bounds of the reserved values, and each reserved field. -/
theorem witness_HeaderRefusalsInOrder :
    (joinHeader 0xFF#8 0x0F#8).toNat / 4096 = 0 ∧ (joinHeader 0x00#8 0x10#8).toNat / 4096 = 1 ∧
    (joinHeader 0x00#8 0xC0#8).toNat / 4096 = 12 ∧ (joinHeader 0x00#8 0xD0#8).toNat / 4096 = 13 ∧
    decode [0xFF#8, 0x0F#8] = .error .reservedOp ∧ decode [0x00#8, 0xD0#8] = .error .reservedOp ∧
    decode [0x00#8, 0xC1#8] = .error .reservedField ∧ decode [0x01#8, 0x10#8] = .error .reservedField :=
  ⟨by decide, by decide, by decide, by decide, rfl, rfl, rfl, rfl⟩

theorem witness_LengthFollowsFromOp :
    decode [0x00#8, 0x40#8, 0x07#8] = .ok (.pop, [0x07#8]) ∧
    decode [0x00#8, 0x90#8, 1#8, 0#8, 0#8, 0#8, 2#8, 0#8, 0#8, 0#8, 0x07#8] =
      .ok (.read 1#32 2#32, [0x07#8]) := ⟨rfl, rfl⟩

/-- Eight bytes behind the header, of a row and of none. -/
theorem witness_AcceptedHeadersAreTableRows :
    8 ≤ (List.replicate 8 0#8).length ∧
    decode (0x00#8 :: 0x90#8 :: List.replicate 8 0#8) = .ok (.read 0#32 0#32, []) ∧
    decode (0x00#8 :: 0xD0#8 :: List.replicate 8 0#8) = .error .reservedOp := ⟨by decide, rfl, rfl⟩

/-- With nothing behind the operation and with another one behind it; a busy engine; an answer not drawn. -/
theorem witness_StepRunsPresentedOperation :
    (withLine (opLine .openDev .bare) State.reset).refused = none ∧
    (withLine (opLine .openDev .bare) State.reset).sched = ⟨.present .host (encode .openDev ++ []), .bare⟩ :: [] ∧
    (withLine ⟨.present .clkR [0#8, 0x50#8, 0#8, 0x50#8], .bare⟩ State.reset).sched =
      ⟨.present .clkR (encode .syncWr ++ [0#8, 0x50#8]), .bare⟩ :: [] ∧
    Instr.openDev.wellFormed = true ∧ admitted .assembled .host .openDev = true ∧
    admitted .assembled .clkR .syncWr = true ∧ admitted .units .producer (.push 1#8) = true ∧
    ready .openDev State.reset = true ∧
    annotationOk State.reset.cfg (instrDraw .openDev State.reset) .bare = true ∧
    ready .rxIrq { State.reset with rxcState := .read } = false ∧
    annotationOk State.reset.cfg (instrDraw .rxIrq State.reset) .environment = true ∧
    Annotation.bare ≠ .environment ∧
    annotationOk State.reset.cfg (instrDraw .openDev State.reset) (.answer (.word 1)) = false := by decide

theorem witness_StepTakesEngineStep :
    (withLine (engineLine .txNext .bare) staged).refused = none ∧
    (withLine (engineLine .txNext .bare) staged).sched = ⟨.engine .txNext, .bare⟩ :: [] ∧
    engineEnabled .txNext (withLine (engineLine .txNext .bare) staged) = true ∧
    annotationOk staged.cfg (engineDraw .txNext staged) .bare = true ∧
    engineEnabled .txPut (withLine (engineLine .txPut .bare) staged) = false ∧
    engineEnabled .txPut (withLine (engineLine .txPut .environment) staged) = false ∧
    State.reset.sched = [] ∧
    annotationOk staged.cfg (engineDraw .txNext staged) (.answer (.word 1)) = false := by decide

theorem witness_InternalOperationRefused :
    (withLine (opLine .pop .bare) State.reset).refused = none ∧
    (withLine (opLine .pop .bare) State.reset).cfg.wiring = .assembled ∧
    (withLine (opLine .pop .bare) State.reset).sched = ⟨.present .consumer (encode .pop ++ []), .bare⟩ :: [] := by
  decide

/-- OP 0 and 13, and a reserved field at OP 1 and OP 12. -/
theorem witness_ReservedHeaderRefused :
    (withLine ⟨.present .host [0x01#8, 0x10#8], .bare⟩ State.reset).refused = none ∧
    (joinHeader 0x00#8 0x00#8).toNat / 4096 = 0 ∧ (joinHeader 0x00#8 0xD0#8).toNat / 4096 = 13 ∧
    (joinHeader 0x01#8 0x10#8).toNat / 4096 = 1 ∧ (joinHeader 0x01#8 0x10#8).toNat % 256 ≠ 0 ∧
    (joinHeader 0x00#8 0xC8#8).toNat / 4096 = 12 ∧ (joinHeader 0x00#8 0xC8#8).toNat / 2048 % 2 = 1 := by decide

theorem witness_RefusedStateHasNoStep :
    (refuse .internalOp State.reset).refused = some .internalOp ∧ State.reset.refused = none := by decide

theorem witness_LogOnlyGrows : ∃ t, step (withLine (opLine .openDev .bare) State.reset) = .next t := ⟨_, rfl⟩

/-- The smallest accepted sizes, and one off each. -/
theorem witness_LaunchResetsAndChecks :
    ((∃ k, 1 ≤ k ∧ 2 = 2 ^ k) ∧ (State.launch { Config.default with n := 2, spinBound := some 1 }).refused = none) ∧
    (State.launch { Config.default with n := 1 }).refused = some .badConfig ∧
    (State.launch { Config.default with n := 0 }).refused = some .badConfig ∧
    (State.launch { Config.default with n := 1, base := 1 }).refused = some .badConfig ∧
    (State.launch { Config.default with base := 1 }).refused = some .misalignedBase :=
  ⟨⟨⟨1, by decide⟩, by decide⟩, by decide⟩

theorem witness_RegisterAddressAligned :
    BaseAligned Config.default ∧ Config.default.stride ∣ 2 ^ Config.default.addrw := by
  constructor
  · show Config.default.base % Config.default.stride = 0
    decide
  · decide

/-- The last modelled index, and the first that is not. -/
theorem witness_RegisterReadLogged :
    (7#3).toNat < State.reset.cfg.nreg ∧
    (State.launch { Config.default with nreg := 7 }).cfg.nreg ≤ (7#3).toNat := by decide

theorem witness_RegisterWriteLogged :
    (0#3).toNat < (State.launch { Config.default with nreg := 1 }).cfg.nreg ∧
    (State.launch { Config.default with nreg := 1 }).cfg.nreg ≤ (1#3).toNat := by decide

theorem witness_AccessesStayInWindow :
    AccessesInWindow (withLine (engineLine .txPut .bare) putting) ∧
    ∃ t, step (withLine (engineLine .txPut .bare) putting) = .next t ∧ t.bus.length = 1 :=
  ⟨(by intro a h; cases h), _, rfl, rfl⟩

theorem witness_EnginesUseRoleRegisters :
    putting.cfg.wiring = .assembled ∧
    ∃ t es, step (withLine (engineLine .txPut .bare) putting) = .next t ∧ t.log = putting.log ++ es ∧
      Event.regwr 0 0x0A ∈ es :=
  ⟨rfl, _, [.regwr 0 0x0A], rfl, rfl, by decide⟩

/-- The wrap, 63 to 0, and the bounds of both clauses. -/
theorem witness_GrayCodeChangesOneBit :
    1 ≤ 6 ∧ 63 < 2 ^ 6 ∧ gray 63 ^^^ gray ((63 + 1) % 2 ^ 6) = 2 ^ 5 ∧ 0 < 2 ^ 1 ∧
    gray 0 ^^^ gray ((0 + 1) % 2 ^ 1) = 2 ^ 0 := by decide

/-- Empty, non-empty before an overflow, after one, and an unwritten slot. -/
theorem witness_PopReturnsByteOrEmpty :
    small.rgray = small.wsync.getD (small.cfg.s - 1) 0 ∧
    oneByte.rgray ≠ oneByte.wsync.getD (oneByte.cfg.s - 1) 0 ∧ oneByte.ovfFlag = false ∧
    Memory.read oneByte.mem oneByte.rptr = some 0x68#8 ∧
    { oneByte with ovfFlag := true }.ovfFlag = true ∧
    Memory.read { oneByte with mem := [] }.mem oneByte.rptr = none := by decide

theorem witness_ClockEdgeShiftsSynchronizer :
    1 ≤ oneByte.cfg.s ∧ oneByte.wsync.length = oneByte.cfg.s ∧ oneByte.rsync.length = oneByte.cfg.s := by decide

/-- No edge and all of them, in either direction. -/
theorem witness_CrossingTakesSEdges :
    oneByte.refused = none ∧ oneByte.wsync.length = oneByte.cfg.s ∧ oneByte.rsync.length = oneByte.cfg.s ∧
    oneByte.sched = List.replicate 0 (opLine .syncWr .bare) ++ [] ∧
    { oneByte with sched := List.replicate 2 (opLine .syncWr .bare) }.sched =
      List.replicate oneByte.cfg.s (opLine .syncWr .bare) ++ [] ∧
    { oneByte with sched := List.replicate 2 (opLine .syncRw .bare) }.sched =
      List.replicate oneByte.cfg.s (opLine .syncRw .bare) ++ [] := by decide

theorem goodConfig_small : GoodConfig small.cfg :=
  ⟨⟨2, by decide, rfl⟩, by decide, by decide, show small.cfg.base % small.cfg.stride = 0 by decide⟩

theorem oneByte_in_range : PointersInRange oneByte ∧ oneByte.rgray = gray oneByte.rptr :=
  ⟨⟨goodConfig_small, by decide, by decide, rfl, rfl, by decide, by decide⟩, rfl⟩

theorem threeBytes_in_range : PointersInRange threeBytes ∧ threeBytes.rgray = gray threeBytes.rptr :=
  ⟨⟨goodConfig_small, by decide, by decide, rfl, rfl, by decide, by decide⟩, rfl⟩

theorem oneByte_engineInv : EngineInv oneByte := by unfold EngineInv; decide

theorem threeBytes_engineInv : EngineInv threeBytes := by unfold EngineInv; decide

theorem staged_engineInv : EngineInv staged := by unfold EngineInv; decide

theorem putting_engineInv : EngineInv putting := by unfold EngineInv; decide

theorem oneByte_intact : FifoIntact oneByte := fun _ => by
  refine ⟨[1, 1], [0, 0], rfl, rfl, rfl, rfl, ?_, by decide, rfl, fun k _ hk => ?_⟩
  · unfold Descending; decide
  · have : k < 1 := hk
    obtain rfl : k = 0 := by omega
    rfl

theorem threeBytes_intact : FifoIntact threeBytes := fun _ => by
  refine ⟨[3, 3], [0, 0], rfl, rfl, rfl, rfl, ?_, by decide, rfl, fun k _ hk => ?_⟩
  · unfold Descending; decide
  · have : k < 3 := hk
    obtain rfl | rfl | rfl : k = 0 ∨ k = 1 ∨ k = 2 := by omega
    all_goals rfl

/-- Neither empty nor full, and full. -/
theorem witness_FifoSignalsAgree :
    (PointersInRange oneByte ∧ oneByte.rgray = gray oneByte.rptr ∧ emptyR oneByte = false ∧ fullW oneByte = false) ∧
    (PointersInRange threeBytes ∧ threeBytes.rgray = gray threeBytes.rptr ∧ fullW threeBytes = true) :=
  ⟨⟨oneByte_in_range.1, oneByte_in_range.2, by decide⟩, threeBytes_in_range.1, threeBytes_in_range.2, by decide⟩

/-- A pop that takes a byte. -/
theorem witness_FifoOrderKept :
    PointersInRange (withLine (opLine .pop .bare) oneByte) ∧ EngineInv (withLine (opLine .pop .bare) oneByte) ∧
    FifoIntact (withLine (opLine .pop .bare) oneByte) ∧
    ∃ t, step (withLine (opLine .pop .bare) oneByte) = .next t ∧ cons t.log = [0x68#8] :=
  ⟨oneByte_in_range.1, oneByte_engineInv, oneByte_intact, _, rfl, by decide⟩

theorem witness_FifoIntactStreams :
    PointersInRange oneByte ∧ FifoIntact oneByte ∧ oneByte.ovfFlag = false ∧
    PointersInRange threeBytes ∧ FifoIntact threeBytes ∧ threeBytes.ovfFlag = false :=
  ⟨oneByte_in_range.1, oneByte_intact, rfl, threeBytes_in_range.1, threeBytes_intact, rfl⟩

/-- All unread, N - 1 bytes; and nothing unread. -/
theorem witness_EmptyAndFullNeverLate :
    PointersInRange threeBytes ∧ threeBytes.rgray = gray threeBytes.rptr ∧ FifoIntact threeBytes ∧
    threeBytes.ovfFlag = false ∧
    (rxs threeBytes.log).length = (cons threeBytes.log).length + (threeBytes.cfg.n - 1) ∧
    (rxs small.log).length = (cons small.log).length :=
  ⟨threeBytes_in_range.1, threeBytes_in_range.2, threeBytes_intact, rfl, by decide⟩

theorem witness_UnwrittenSlotNeverRead :
    PointersInRange (withLine (opLine .pop .bare) oneByte) ∧ EngineInv (withLine (opLine .pop .bare) oneByte) ∧
    FifoIntact (withLine (opLine .pop .bare) oneByte) ∧ emptyR (withLine (opLine .pop .bare) oneByte) = false ∧
    ∃ t, step (withLine (opLine .pop .bare) oneByte) = .next t :=
  ⟨oneByte_in_range.1, oneByte_engineInv, oneByte_intact, by decide, _, rfl⟩

/-- A push into a full buffer, and one into a buffer with room. -/
theorem witness_OverflowStatusSticky :
    (∃ t, step (withLine (opLine (.push 9#8) .bare) threeBytes) = .next t ∧
      t.log = threeBytes.log ++ [.pushed 9#8 true] ∧ t.ovfFlag = true) ∧
    ∃ t, step (withLine (opLine (.push 9#8) .bare) oneByte) = .next t ∧
      t.log = oneByte.log ++ [.pushed 9#8 false] ∧ t.ovfFlag = false :=
  ⟨⟨_, rfl, rfl, rfl⟩, _, rfl, rfl, rfl⟩

theorem witness_OverflowLapReadsEmpty :
    PointersInRange threeBytes ∧ threeBytes.rgray = gray threeBytes.rptr ∧ threeBytes.refused = none ∧
    threeBytes.cfg.wiring = .units ∧
    threeBytes.wptr = (threeBytes.rptr + (threeBytes.cfg.n - 1)) % threeBytes.cfg.n ∧
    { threeBytes with sched := opLine (.push 9#8) .bare :: expandPseudo threeBytes.cfg .xferW }.sched =
      opLine (.push 9#8) .bare :: expandPseudo threeBytes.cfg .xferW ++ [] :=
  ⟨threeBytes_in_range.1, threeBytes_in_range.2, by decide⟩

theorem witness_InterruptAcceptedWhenIdle :
    State.reset.rxcState = .idle ∧ { State.reset with rxcState := .push }.rxcState ≠ .idle := by decide

theorem witness_CaptureKeepsLowByte :
    State.reset.cfg.rbrIndex < State.reset.cfg.nreg ∧ 0xFFFFFF41 < 2 ^ State.reset.cfg.aw ∧
    (answering (.word 0xFFFFFF41) State.reset).answer = some (.word 0xFFFFFF41) := by decide

theorem witness_InterruptHandlerCompletes :
    State.reset.refused = none ∧ State.reset.cfg.wiring = .assembled ∧ State.reset.rxcState = .idle ∧
    State.reset.cfg.rbrIndex < State.reset.cfg.nreg ∧ 8 ≤ State.reset.cfg.aw ∧
    { State.reset with sched := expandPseudo Config.default (.recv 0x68#8) }.sched =
      expandPseudo State.reset.cfg (.recv 0x68#8) ++ [] := by decide

theorem witness_ReadStartsOrHolds :
    State.reset.rdState = .idle ∧ { State.reset with rdState := .copy }.rdState ≠ .idle := by decide

/-- Before an overflow, and after one. -/
theorem witness_ReadPopsWhenAvailable :
    oneByteA.cfg.wiring = .assembled ∧ engineEnabled .rdPop { oneByteA with rdState := .wait } = true ∧
    oneByteA.ovfFlag = false ∧ Memory.read oneByteA.mem oneByteA.rptr = some 0x68#8 ∧
    engineEnabled .rdPop { oneByteA with rdState := .wait, ovfFlag := true } = true ∧
    (answering (.byte 7#8) { oneByteA with rdState := .wait, ovfFlag := true }).answer = some (.byte 7#8) := by
  decide

theorem witness_ReadCopyCompletes :
    { State.reset with rdByte := some 0x55#8, answer := some (.copied false) }.rdByte = some 0x55#8 ∧
    { State.reset with rdByte := some 0x55#8, answer := some (.copied false) }.answer =
      some (.copied false) := by decide

theorem witness_CancelEndsOnlyAWait :
    { State.reset with rdState := .wait }.rdState = .wait ∧ State.reset.rdState ≠ .wait := by decide

theorem witness_CancelRacesPop :
    { oneByteA with rdState := .wait }.cfg.wiring = .assembled ∧
    { oneByteA with rdState := .wait }.rdState = .wait ∧ rxAvail { oneByteA with rdState := .wait } = true ∧
    { oneByteA with rdState := .wait }.ovfFlag = false ∧
    Memory.read { oneByteA with rdState := .wait }.mem { oneByteA with rdState := .wait }.rptr =
      some 0x68#8 := by decide

/-- The schedule of a blocking read, from reset. -/
def blockingRead : State :=
  { State.reset with
    sched := opLine (.read 0x1000#32 1#32) .bare :: expandPseudo Config.default (.recv 0x55#8) ++
      expandPseudo Config.default .xferW ++ [engineLine .rdPop .bare, engineLine .rdCopy (.answer (.copied true))] }

theorem blockingRead_in_range : PointersInRange blockingRead :=
  ⟨⟨⟨6, by decide, rfl⟩, by decide, by decide,
    show blockingRead.cfg.base % blockingRead.cfg.stride = 0 by decide⟩, by decide, by decide, rfl, rfl,
    by decide, by decide⟩

theorem witness_BlockingReadDelivers :
    PointersInRange blockingRead ∧ blockingRead.wgray = gray blockingRead.wptr ∧
    blockingRead.rgray = gray blockingRead.rptr ∧ Quiescent blockingRead ∧
    blockingRead.wptr = blockingRead.rptr ∧ blockingRead.ovfFlag = false ∧
    blockingRead.cfg.wiring = .assembled ∧ blockingRead.cfg.rbrIndex < blockingRead.cfg.nreg ∧
    8 ≤ blockingRead.cfg.aw ∧ blockingRead.sched =
      opLine (.read 0x1000#32 1#32) .bare :: expandPseudo blockingRead.cfg (.recv 0x55#8) ++
        expandPseudo blockingRead.cfg .xferW ++
        [engineLine .rdPop .bare, engineLine .rdCopy (.answer (.copied true))] ++ [] :=
  ⟨blockingRead_in_range, rfl, rfl, ⟨rfl, rfl, rfl, by decide, by decide, rfl, rfl⟩, rfl, rfl, rfl,
    by decide, by decide, rfl⟩

theorem witness_WriteStartsOrHolds :
    State.reset.txState = .idle ∧ staged.txState ≠ .idle := by decide

/-- A whole call sent, a failed copy, and a copy of exactly the chunk. -/
theorem witness_StageCopiesNextChunk :
    (State.reset.txOff ≤ State.reset.txSize ∧ State.reset.txOff = State.reset.txSize) ∧
    { State.reset with txSize := 1 }.txOff ≤ { State.reset with txSize := 1 }.txSize ∧
    { State.reset with txSize := 1 }.txOff ≠ { State.reset with txSize := 1 }.txSize ∧
    [0x78#8].length = min State.reset.cfg.n (1 - State.reset.txOff) ∧
    0 = (State.reset.txSrc + State.reset.txOff) % 2 ^ State.reset.cfg.addrw ∧
    (answering (.copiedIn none) State.reset).answer = some (.copiedIn none) ∧
    (answering (.copiedIn (some [0x78#8])) State.reset).answer = some (.copiedIn (some [0x78#8])) := by decide

theorem witness_NextTakesChunkByte :
    State.reset.stageIdx = State.reset.stageLen ∧ staged.stageIdx ≠ staged.stageLen ∧
    Memory.read staged.stage staged.stageIdx = some 0x0A#8 := by decide

/-- THRE set, and clear with and without a bound, at the bound and before it. -/
theorem witness_PollWaitsForThre :
    putting.cfg.lsrIndex < putting.cfg.nreg ∧
    { putting with txState := .poll, answer := some (.word 0x60) }.answer = some (.word 0x60) ∧
    0x60 < 2 ^ putting.cfg.aw ∧ { putting with txState := .poll }.txState = .poll ∧
    0x60 % 256 &&& putting.cfg.threMask ≠ 0 ∧ ¬(0x00 % 256 &&& putting.cfg.threMask ≠ 0) ∧
    putting.cfg.spinBound = none ∧ { putting.cfg with spinBound := some 1 }.spinBound = some 1 ∧
    putting.txSpins + 1 = 1 ∧ putting.txSpins + 1 ≠ 2 := by decide

theorem witness_PutWritesAndCounts :
    putting.cfg.thrIndex < putting.cfg.nreg ∧ putting.txCur = some 0x0A#8 ∧ putting.txCrPending = true ∧
    { putting with txCrPending := false }.txCrPending = false := by decide

theorem staged_faithful : TransmitFaithful staged := fun _ _ =>
  ⟨by decide, by decide, fun i _ hi => by
    have : i < 1 := hi
    obtain rfl : i = 0 := by omega
    decide⟩

theorem witness_TransmitStreamFaithful :
    EngineInv (withLine (engineLine .txNext .bare) staged) ∧
    TransmitFaithful (withLine (engineLine .txNext .bare) staged) ∧
    ∃ t, step (withLine (engineLine .txNext .bare) staged) = .next t ∧ pendingTx t = [0x0A#8, 0x0D#8] :=
  ⟨staged_engineInv, staged_faithful, _, rfl, by decide⟩

theorem witness_CounterCountsTransmissions :
    (putting.cfg.wiring = .assembled ∧ putting.txcount < 2 ^ putting.cfg.cw ∧
      ∃ t, step (withLine (engineLine .txPut .bare) putting) = .next t ∧
      t.log = putting.log ++ [.regwr 0 0x0A]) ∧
    ∃ t, step (withLine (opLine (.ctrlReset 0#32) .bare) putting) = .next t ∧
      t.log = putting.log ++ [.done .ctrlOp .ok 0] := ⟨⟨rfl, by decide, _, rfl, rfl⟩, _, rfl, rfl⟩

theorem witness_PollPrecedesEveryPut :
    PolledBeforePut (withLine (engineLine .txPut .bare) putting) ∧
    ∃ t, step (withLine (engineLine .txPut .bare) putting) = .next t := ⟨fun _ _ => by decide, _, rfl⟩

/-- Each engine, and a byte one SYNC_WR away from a waiting READ. -/
theorem witness_TransfersProgress :
    EngineInv staged ∧ staged.cfg.wiring = .assembled ∧ 1 ≤ staged.cfg.n ∧ 1 ≤ staged.cfg.s ∧
    staged.wsync.length = staged.cfg.s ∧
    staged.cfg.thrIndex < staged.cfg.nreg ∧ staged.cfg.lsrIndex < staged.cfg.nreg ∧
    engineEnabled .txNext staged = true ∧ engineEnabled .txPut putting = true ∧
    engineEnabled .txPoll { putting with txState := .poll } = true ∧
    engineEnabled .rxcPush { putting with rxcState := .push, rxcByte := some 1#8 } = true ∧
    engineEnabled .rdPop waitingRead = true ∧ popSource waitingRead ≠ none ∧
    rxAvail { waitingRead with wsync := [1, 0] } = false ∧
    { waitingRead with wsync := [1, 0] }.wgray ≠ { waitingRead with wsync := [1, 0] }.rgray ∧
    edgesToAvail { waitingRead with wsync := [1, 0] } = 1 :=
  ⟨staged_engineInv, by decide⟩

theorem witness_ControlGetCopiesCounter :
    0 < State.reset.cfg.cw / 8 ∧ 3 < State.reset.cfg.cw / 8 ∧
    (answering (.copied false) State.reset).answer = some (.copied false) := by decide

theorem witness_ControlOtherUnsupported : 2 ≤ (2#32).toNat ∧ 2 ≤ (0xFFFFFFFF#32).toNat := by decide

theorem witness_ListedInvariantsKept :
    EngineInv (withLine (engineLine .txPut .bare) putting) ∧
    ∃ t, step (withLine (engineLine .txPut .bare) putting) = .next t := ⟨putting_engineInv, _, rfl⟩

theorem witness_PointersAndArraysKept :
    PointersInRange (withLine (opLine (.push 9#8) .bare) threeBytes) ∧
    ArraysInForm (withLine (opLine (.push 9#8) .bare) threeBytes) ∧
    ValuesInWidth (withLine (opLine (.push 9#8) .bare) threeBytes) ∧
    EngineInv (withLine (opLine (.push 9#8) .bare) threeBytes) ∧
    ∃ t, step (withLine (opLine (.push 9#8) .bare) threeBytes) = .next t :=
  ⟨threeBytes_in_range.1, ⟨by decide, by decide, by decide, by decide⟩, by unfold ValuesInWidth; decide,
    threeBytes_engineInv, _, rfl⟩

theorem witness_LaunchMeetsInvariants : GoodConfig small.cfg ∧ GoodConfig Config.default :=
  ⟨goodConfig_small, blockingRead_in_range.1⟩

/-- One operation of each clause. -/
theorem witness_DomainsOwnTheirFields :
    (∃ t, exec (.push 9#8) threeBytes = .next t) ∧ (∃ t, exec .pop threeBytes = .next t) ∧
    ∃ t, exec (.write 1#32 2#32) threeBytes = .next t := ⟨⟨_, rfl⟩, ⟨_, rfl⟩, _, rfl⟩

theorem witness_CompletionPairingsKept :
    CompletionsAllowed (withLine (opLine .openDev .bare) State.reset) ∧
    ∃ t, step (withLine (opLine .openDev .bare) State.reset) = .next t ∧
      t.log = [.done .openOp .ok 0] := ⟨fun _ _ _ h => (by cases h), _, rfl, rfl⟩

/-- A READ offered to a busy engine, with nothing and with an operation behind it; a held one whose hold is
lifted, and one whose hold is not; an answer that nothing draws. -/
theorem witness_HeldRequestTakenWhenLifted :
    (withLine ⟨.present .host (encode (.read 1#32 1#32)), .environment⟩ waitingRead).sched =
      ⟨.present .host (encode (.read 1#32 1#32) ++ []), .environment⟩ :: [] ∧
    (withLine ⟨.present .host (encode (.read 1#32 1#32) ++ encode .cancel), .environment⟩ waitingRead).sched =
      ⟨.present .host (encode (.read 1#32 1#32) ++ encode .cancel), .environment⟩ :: [] ∧
    ready (.read 1#32 1#32) waitingRead = false ∧ waitingRead.refused = none ∧
    { State.reset with sched := [⟨.resume 0, .bare⟩], held := [.read 1#32 1#32] }.refused = none ∧
    { State.reset with sched := [⟨.resume 0, .bare⟩], held := [.read 1#32 1#32] }.held[0]? =
      some (.read 1#32 1#32) ∧
    ready (.read 1#32 1#32) State.reset = true ∧
    ready (.read 1#32 1#32) { State.reset with rdState := .wait } = false ∧
    Annotation.bare.answer? = none ∧ Annotation.environment.answer? = none ∧
    (Annotation.answer (.word 1)).answer? ≠ none := by decide

/-! ### Infinite runs (R331) -/

/-- The two clocks in turn. -/
def clockOf (k : Nat) : Instr := if k % 2 = 0 then .syncWr else .syncRw

/-- A schedule: the given lines, then the two clocks for ever. -/
def thenClocks (pre : List Line) (k : Nat) : Line := pre.getD k (opLine (clockOf k) .bare)

/-- The states of a schedule. -/
def statesOf (ls : Nat → Line) (s : State) : Nat → State
  | 0 => s
  | k + 1 => (onNext (step { statesOf ls s k with sched := [ls k] }) id).getD s

/-- No engine is at work and nothing is refused. -/
def Quiet (s : State) : Prop :=
  s.refused = none ∧ s.rxcState = .idle ∧ s.rdState = .idle ∧ s.txState = .idle

theorem quiet_clock {s : State} (hq : Quiet s) (k : Nat) :
    ∃ t, step { s with sched := [opLine (clockOf k) .bare] } = .next t ∧ Quiet t := by
  cases s
  obtain ⟨hr, h⟩ := hq
  cases hr
  unfold clockOf
  split <;> exact ⟨_, rfl, rfl, h⟩

theorem quiet_disabled {s : State} (hq : Quiet s) (e : EngineStep) : engineEnabled e s = false := by
  obtain ⟨-, h1, h2, h3⟩ := hq
  cases e <;> simp [engineEnabled, h1, h2, h3]

theorem thenClocks_tail {pre : List Line} {k : Nat} (hk : pre.length ≤ k) :
    thenClocks pre k = opLine (clockOf k) .bare := by
  simp [thenClocks, List.getElem?_eq_none hk]

theorem statesOf_quiet {pre : List Line} {s : State}
    (hq : Quiet (statesOf (thenClocks pre) s pre.length)) :
    ∀ k, pre.length ≤ k → Quiet (statesOf (thenClocks pre) s k) := by
  intro k hk
  induction k, hk using Nat.le_induction with
  | base => exact hq
  | succ k hk ih =>
    obtain ⟨t, ht, hqt⟩ := quiet_clock ih k
    rw [statesOf, thenClocks_tail hk, ht]
    exact hqt

/-- A finite schedule that leaves the engines idle, followed by the clocks, is a fair run. -/
theorem thenClocks_fair {pre : List Line} {s : State}
    (hp : ∀ k, k < pre.length → step { statesOf (thenClocks pre) s k with sched := [thenClocks pre k] } =
      .next (statesOf (thenClocks pre) s (k + 1)))
    (hq : Quiet (statesOf (thenClocks pre) s pre.length)) :
    IsRun (thenClocks pre) (statesOf (thenClocks pre) s) ∧ FClk (thenClocks pre) ∧
    FEng (thenClocks pre) (statesOf (thenClocks pre) s) := by
  refine ⟨fun k => ?_, ⟨fun k => ?_, fun k => ?_⟩, fun e k h => ?_⟩
  · by_cases hk : k < pre.length
    · exact hp k hk
    · obtain ⟨t, ht, -⟩ := quiet_clock (statesOf_quiet hq k (by omega)) k
      rw [← thenClocks_tail (pre := pre) (by omega)] at ht
      rw [statesOf, ht]
      rfl
  · refine ⟨2 * (pre.length + k), by omega, .clkR, [], ?_⟩
    rw [thenClocks_tail (by omega), clockOf, if_pos (by omega)]
    rfl
  · refine ⟨2 * (pre.length + k) + 1, by omega, .clkW, [], ?_⟩
    rw [thenClocks_tail (by omega), clockOf, if_neg (by omega)]
    rfl
  · have hd := quiet_disabled (statesOf_quiet hq (pre.length + k) (by omega)) e
    rw [h (pre.length + k) (by omega)] at hd
    cases hd

/-- The lines that take the byte of `waitingRead`. -/
def takeByte : List Line := [engineLine .rdPop .bare, engineLine .rdCopy (.answer (.copied true))]

/-- A READ waits and a byte is unread, on a fair run. -/
theorem witness_PushedByteIsRead :
    ∃ (ls : Nat → Line) (r : Nat → State), IsRun ls r ∧ FClk ls ∧ FEng ls r ∧ (r 0).cfg.wiring = .assembled ∧
      PointersInRange (r 0) ∧ EngineInv (r 0) ∧ FifoIntact (r 0) ∧
      (cons (r 0).log).length < (rxs (r 0).log).length ∧ (r 0).rdState = .wait := by
  obtain ⟨h1, h2, h3⟩ := thenClocks_fair (pre := takeByte) (s := waitingRead)
    (fun k hk => match k, hk with | 0, _ => rfl | 1, _ => rfl) ⟨rfl, rfl, rfl, rfl⟩
  exact ⟨_, _, h1, h2, h3, rfl, oneByte_in_range.1, by unfold EngineInv; decide, oneByte_intact, by decide, rfl⟩

/-- A write of one byte, taken and about to be polled for. -/
def polling : State :=
  { staged with
    txState := .poll, txCur := some 0x41#8, stage := [(0, 0x41#8)], stageIdx := 1
    log := [.copyin 0x2000 1 (some [0x41#8])] }

/-- The lines that end the write of `polling`. -/
def sendByte : List Line :=
  [engineLine .txPoll (.answer (.word 0x60)), engineLine .txPut .bare, engineLine .txNext .bare,
    engineLine .txStage .bare]

/-- A write is in progress, on a run fair to the engines in which THRE comes. -/
theorem witness_EveryWriteCompletes :
    ∃ (ls : Nat → Line) (r : Nat → State), IsRun ls r ∧ FEng ls r ∧ FThre ls r ∧ (r 0).cfg.wiring = .assembled ∧
      (r 0).cfg.spinBound = none ∧ 1 ≤ (r 0).cfg.n ∧ EngineInv (r 0) ∧ (r 0).txState ≠ .idle := by
  have hq : Quiet (statesOf (thenClocks sendByte) polling sendByte.length) := ⟨rfl, rfl, rfl, rfl⟩
  obtain ⟨h1, -, h3⟩ := thenClocks_fair (pre := sendByte) (s := polling)
    (fun k hk => match k, hk with | 0, _ => rfl | 1, _ => rfl | 2, _ => rfl | 3, _ => rfl) hq
  refine ⟨_, _, h1, h3, fun k hk => ?_, rfl, rfl, by decide, by unfold EngineInv; decide, by decide⟩
  match k, hk with
  | 0, _ => exact ⟨0, 0x60, by omega, rfl, rfl, by decide⟩
  | 1, hk => cases hk
  | 2, hk => cases hk
  | 3, hk => cases hk
  | k + 4, hk =>
    rw [(statesOf_quiet hq (k + 4) (Nat.le_add_left ..)).2.2.2] at hk
    cases hk

end Sys2Proof.Tests
end

/-! The overflow status along a step (R155, R164): it follows the pushes into a full buffer among the events
that the step logs. -/

namespace Sys2Proof.Machine

/-- The event is a PUSH into a buffer the write side sees as full (R155). -/
def isOverflow : Event → Bool
  | .pushed _ full => full
  | _ => false

theorem any_isOverflow_iff {es : List Event} : es.any isOverflow = true ↔ ∃ b, Event.pushed b true ∈ es := by
  rw [List.any_eq_true]
  constructor
  · rintro ⟨e, he, ho⟩
    cases e with
    | pushed b full => cases ho; exact ⟨b, he⟩
    | _ => cases ho
  · rintro ⟨b, hb⟩
    exact ⟨_, hb, rfl⟩

/-- From `s` to `t` the events `es` are logged, and the overflow status moves by them alone: an overflow
among them sets the flag and counts one. -/
structure OverflowFollows (s t : State) (es : List Event) : Prop where
  log : t.log = s.log ++ es
  flag : t.ovfFlag = (s.ovfFlag || es.any isOverflow)
  count : t.ovfCount = if es.any isOverflow then wrap s.cfg.ovw (s.ovfCount + 1) else s.ovfCount

/-- Logging no overflow and leaving the status alone. -/
theorem OverflowFollows.of_kept {s t : State} {es : List Event} (hl : t.log = s.log ++ es)
    (he : es.any isOverflow = false) (hf : t.ovfFlag = s.ovfFlag) (hc : t.ovfCount = s.ovfCount) :
    OverflowFollows s t es :=
  ⟨hl, by simp [he, hf], by simp [he, hc]⟩

/-- A PUSH is an overflow exactly if the write side sees the buffer as full. -/
theorem pushByte_overflowFollows (b : Byte) (s : State) :
    OverflowFollows s (pushByte b s) [.pushed b (wasFull s)] :=
  ⟨rfl, by simp [pushByte, isOverflow], by simp [pushByte, isOverflow]⟩

/-- RXC.PUSH overflows as the PUSH within it does; its other two events are no pushes. -/
theorem rxcPush_overflowFollows (s : State) :
    OverflowFollows s (rxcPush s) [.pushed (heldByte s.rxcByte s) (wasFull s), .wake, .irqHandled] := by
  obtain ⟨hlog, hflag, hcount⟩ := pushByte_overflowFollows (heldByte s.rxcByte s) s
  exact ⟨by simp [rxcPush, hlog], by simpa [rxcPush, isOverflow] using hflag,
    by simpa [rxcPush, isOverflow] using hcount⟩

/-- Of the forms of a step, the two that push move the status with the push they log; the others log no
push and leave the status alone. -/
theorem stepForm_overflowFollows {s t : State} (h : StepForm s t) : ∃ es, OverflowFollows s t es := by
  cases h with
  | push b => exact ⟨_, pushByte_overflowFollows b s⟩
  | rxcPush => exact ⟨_, rxcPush_overflowFollows s⟩
  | refused | unchanged | held | popFault | syncWr | syncRw | rxIrq | read | write | chunkSent | nextByte =>
    exact ⟨[], .of_kept (List.append_nil _).symm rfl rfl rfl⟩
  | regRead | regWrite | popEmpty | pop | cancel | openDev | ctrlReset | ctrlGet | ctrlOther | rxcRead
  | rdPop | rdCopy | stageDone | stageFailed | staged | pollReady | pollBusy | pollCounted | putLf | put =>
    exact ⟨_, .of_kept rfl rfl rfl rfl⟩
  | pollTimeout => exact ⟨_, .of_kept (List.append_assoc s.log [_] [_]) rfl rfl rfl⟩

/-- What a step prepares before it acts touches neither the log nor the status. -/
theorem step_overflowFollows {s t : State} (h : step s = .next t) : ∃ es, OverflowFollows s t es := by
  obtain ⟨-, s1, ⟨ls, hs, ans, k, rfl⟩, hform⟩ := step_form h
  obtain ⟨es, hlog, hflag, hcount⟩ := stepForm_overflowFollows hform
  exact ⟨es, hlog, hflag, hcount⟩

/-- Settles O29: the status follows the overflows among the events of the step, and a flag that follows them
is never cleared. -/
theorem overflowStatusSticky : Obligations.OverflowStatusSticky := by
  intro s t es h hes
  obtain ⟨es', hlog, hflag, hcount⟩ := step_overflowFollows h
  obtain rfl : es = es' := List.append_cancel_left (hes.symm.trans hlog)
  refine ⟨fun hnone => ?_, fun hsome => ?_, fun hset => by simp [hflag, hset]⟩
  · have hno : es.any isOverflow = false :=
      Bool.eq_false_iff.mpr fun ho => not_exists.mpr hnone (any_isOverflow_iff.mp ho)
    simp [hflag, hcount, hno]
  · have hyes := any_isOverflow_iff.mpr hsome
    simp [hflag, hcount, hyes, wrap]

end Sys2Proof.Machine

/-! CANCEL (R208): the one case in which it acts, and the one in which it does not. -/

namespace Sys2Proof.Machine

theorem exec_cancel_of_wait {s : State} (h : s.rdState = .wait) :
    exec .cancel s = .next { complete .readOp .interrupted 0 s with rdState := .idle } := by
  rcases execNext_cancel s with ⟨-, hq⟩ | ⟨hne, -⟩
  · rw [exec_eq_next, hq]
  · exact absurd h hne

theorem exec_cancel_of_not_wait {s : State} (h : s.rdState ≠ .wait) : exec .cancel s = .next s := by
  rcases execNext_cancel s with ⟨hw, -⟩ | ⟨-, hq⟩
  · exact absurd hw h
  · rw [exec_eq_next, hq]

/-- Settles O37: a waiting read is completed as interrupted, which touches the log and the read engine's
state alone; any other state is answered unchanged. -/
theorem cancelEndsOnlyAWait : Obligations.CancelEndsOnlyAWait := by
  refine ⟨by decide, rfl, fun s => ⟨fun hw => ?_, exec_cancel_of_not_wait⟩⟩
  exact ⟨_, exec_cancel_of_wait hw, rfl, rfl, rfl, rfl, rfl, rfl, rfl, rfl, rfl, rfl, rfl,
    ⟨rfl, rfl, rfl, rfl⟩, rfl⟩

end Sys2Proof.Machine

/-! The operations whose meaning is one completion and nothing else (R270, R273): OPEN, and the control
opcodes that are neither CTRL_RESET nor CTRL_GET. -/

namespace Sys2Proof.Machine

/-- A completion appends to the log and touches no other field (R14). -/
theorem complete_sameButLog (op : HostOp) (st : Status) (n : Nat) (s : State) :
    SameButLog s (complete op st n s) :=
  ⟨rfl, rfl, rfl, ⟨rfl, rfl, rfl, rfl⟩, rfl⟩

theorem exec_of_execNext_complete {i : Instr} {op : HostOp} {st : Status} {n : Nat} {s : State}
    (h : execNext i s = complete op st n s) :
    ∃ t, exec i s = .next t ∧ t.log = s.log ++ [.done op st n] ∧ SameButLog s t :=
  ⟨complete op st n s, by rw [exec_eq_next, h], complete_log s op st n, complete_sameButLog op st n s⟩

/-- The control opcodes from 2 up are those that CTRL_RESET and CTRL_GET leave (R94). -/
theorem ctrlOf_of_two_le {opcode : Word} (h : 2 ≤ opcode.toNat) (arg : Word) :
    ctrlOf opcode arg = .ctrlOther opcode arg := by
  have h0 : opcode ≠ 0#32 := by rintro rfl; exact absurd h (by decide)
  have h1 : opcode ≠ 1#32 := by rintro rfl; exact absurd h (by decide)
  rw [ctrlOf, if_neg h0, if_neg h1]

/-- Settles O51: the meaning of OPEN is its completion. -/
theorem openAlwaysSucceeds : Obligations.OpenAlwaysSucceeds :=
  ⟨by decide, rfl, fun s => exec_of_execNext_complete (execNext_openDev s)⟩

/-- Settles O54: the meaning of such an opcode is its completion as unsupported, whatever the argument. -/
theorem controlOtherUnsupported : Obligations.ControlOtherUnsupported := fun opcode arg s h =>
  ⟨ctrlOf_of_two_le h arg, rfl, rfl, exec_of_execNext_complete (execNext_ctrlOther opcode arg s)⟩

end Sys2Proof.Machine

/-! Invariants along a step: what every form of a step keeps, every step keeps, and the invariants of R38
(10_state.md section 3). -/

namespace Sys2Proof.Machine

/-- A property that ignores the bookkeeping a step prepares, and that every form of a step keeps, is kept by
every step. -/
theorem step_keeps {P : State → Prop} (hprep : ∀ {s s1}, Prepared s s1 → P s → P s1)
    (hform : ∀ {s t}, StepForm s t → P s → P t) {s t : State} (h : step s = .next t) (hs : P s) : P t := by
  obtain ⟨-, s1, hp, hf⟩ := step_form h
  exact hform hf (hprep hp hs)

theorem prepared_engineInv {s s1 : State} (hp : Prepared s s1) (h : EngineInv s) : EngineInv s1 := by
  obtain ⟨ls, hs, ans, k, rfl⟩ := hp
  exact h

theorem chunkLen_le (s : State) : chunkLen s ≤ s.cfg.n := Nat.min_le_left _ _

theorem txOff_add_chunkLen_le {s : State} (h : s.txOff ≤ s.txSize) : s.txOff + chunkLen s ≤ s.txSize := by
  unfold chunkLen; omega

theorem stepForm_engineInv {s t : State} (hf : StepForm s t) (h : EngineInv s) : EngineInv t := by
  obtain ⟨hw, hr, hidx, hlen, hoff, hcur, hbyte, hcopy⟩ := h
  cases hf with
  | refused | unchanged | held | regRead | regWrite | popEmpty | popFault | syncWr | syncRw | openDev
  | ctrlReset | ctrlGet | ctrlOther | pollBusy | pollCounted =>
    exact ⟨hw, hr, hidx, hlen, hoff, hcur, hbyte, hcopy⟩
  | push b => exact ⟨rfl, hr, hidx, hlen, hoff, hcur, hbyte, hcopy⟩
  | pop b => exact ⟨hw, rfl, hidx, hlen, hoff, hcur, hbyte, hcopy⟩
  | rxIrq hc =>
    have hnone : s.rxcByte = none := by simpa [hc] using hbyte
    exact ⟨hw, hr, hidx, hlen, hoff, hcur, by simp [hnone], hcopy⟩
  | rxcRead v => exact ⟨hw, hr, hidx, hlen, hoff, hcur, by simp, hcopy⟩
  | rxcPush => exact ⟨rfl, hr, hidx, hlen, hoff, hcur, by simp, hcopy⟩
  | read | cancel | rdCopy => exact ⟨hw, hr, hidx, hlen, hoff, hcur, hbyte, by simp⟩
  | rdPop b => exact ⟨hw, rfl, hidx, hlen, hoff, hcur, hbyte, by simp⟩
  | write => exact ⟨hw, hr, Nat.le_refl 0, Nat.zero_le _, Nat.zero_le _, by simp, hbyte, hcopy⟩
  | stageDone | stageFailed | chunkSent | pollTimeout =>
    exact ⟨hw, hr, hidx, hlen, hoff, by simp, hbyte, hcopy⟩
  | staged =>
    exact ⟨hw, hr, Nat.zero_le _, chunkLen_le s, txOff_add_chunkLen_le hoff, by simp, hbyte, hcopy⟩
  | nextByte b _ hi => exact ⟨hw, hr, by dsimp only; omega, hlen, hoff, by simp, hbyte, hcopy⟩
  | pollReady v ht => exact ⟨hw, hr, hidx, hlen, hoff, fun _ => hcur (.inl ht), hbyte, hcopy⟩
  | putLf | put => exact ⟨hw, hr, hidx, hlen, hoff, by simp, hbyte, hcopy⟩

/-- Settles O55: every form of a step keeps the invariants of R38. -/
theorem listedInvariantsKept : Obligations.ListedInvariantsKept := fun _ _ h hstep =>
  step_keeps prepared_engineInv stepForm_engineInv hstep h

end Sys2Proof.Machine

/-! Ranges (10_state.md section 3): pointers and synchronizers within `P` bits, slot arrays within `N` slots, and
values within their widths. -/

namespace Sys2Proof.Machine

theorem gray_lt_size {c : Config} (hc : GoodConfig c) {b : Nat} (hb : b < c.n) : gray b < c.n := by
  obtain ⟨-, hp⟩ := goodConfig_size hc
  rw [← hp] at hb ⊢
  exact gray_lt hb

theorem syncShift_lt {n stages v : Nat} {old : List Nat} (hv : v < n) (hold : ∀ g ∈ old, g < n) :
    ∀ g ∈ syncShift stages v old, g < n := by
  intro g hg
  rcases mem_syncShift hg with rfl | hg
  · exact hv
  · exact hold g hg

/-! ### Pointers and synchronizers -/

theorem prepared_pointersInRange {s s1 : State} (hp : Prepared s s1) (h : PointersInRange s) :
    PointersInRange s1 := by
  obtain ⟨ls, hs, ans, k, rfl⟩ := hp
  exact h

/-- The pointers move within the capacity, and a synchronizer samples the gray code of a pointer. -/
theorem stepForm_pointersInRange {s t : State} (hf : StepForm s t) (he : EngineInv s)
    (h : PointersInRange s) : PointersInRange t := by
  obtain ⟨hwg, hrg, -⟩ := he
  obtain ⟨hc, hw, hr, hwl, hrl, hws, hrs⟩ := h
  have hnext : ∀ a, cursorNext s.cfg.n a < s.cfg.n := fun a => cursorNext_lt a (by omega)
  cases hf with
  | push | rxcPush => exact ⟨hc, hnext _, hr, hwl, hrl, hws, hrs⟩
  | pop | rdPop => exact ⟨hc, hw, hnext _, hwl, hrl, hws, hrs⟩
  | syncWr =>
    exact ⟨hc, hw, hr, syncShift_length hwl, hrl, syncShift_lt (hwg ▸ gray_lt_size hc hw) hws, hrs⟩
  | syncRw =>
    exact ⟨hc, hw, hr, hwl, syncShift_length hrl, hws, syncShift_lt (hrg ▸ gray_lt_size hc hr) hrs⟩
  | _ => exact ⟨hc, hw, hr, hwl, hrl, hws, hrs⟩

/-! ### Slot arrays -/

theorem prepared_arraysInForm {s s1 : State} (hp : Prepared s s1) (h : ArraysInForm s) : ArraysInForm s1 := by
  obtain ⟨ls, hs, ans, k, rfl⟩ := hp
  exact h

/-- The FIFO's array after a push. -/
theorem write_inForm {m : List Host.Cell} {n a : Nat} (b : Byte) (ha : a < n)
    (h : Memory.wf m = true ∧ ∀ cell ∈ m, cell.1 < n) :
    Memory.wf (Memory.write m a b) = true ∧ ∀ cell ∈ Memory.write m a b, cell.1 < n := by
  refine ⟨memory_wf_write m a b h.1, fun cell hcell => ?_⟩
  rcases memory_mem_write m a b cell hcell with rfl | hcell
  · exact ha
  · exact h.2 cell hcell

/-- The staging buffer after a chunk that fits it. -/
theorem writeAll_inForm {m : List Host.Cell} {n : Nat} {bs : List Byte} (hl : bs.length ≤ n)
    (h : Memory.wf m = true ∧ ∀ cell ∈ m, cell.1 < n) :
    Memory.wf (Memory.writeAll m 0 bs) = true ∧ ∀ cell ∈ Memory.writeAll m 0 bs, cell.1 < n := by
  refine ⟨memory_wf_writeAll m 0 bs h.1, fun cell hcell => ?_⟩
  rcases memory_mem_writeAll m 0 bs cell hcell with hcell | hcell
  · omega
  · exact h.2 cell hcell

theorem stepForm_arraysInForm {s t : State} (hf : StepForm s t) (hw : s.wptr < s.cfg.n)
    (h : ArraysInForm s) : ArraysInForm t := by
  obtain ⟨hm, hmn, hs, hsn⟩ := h
  cases hf with
  | push b =>
    obtain ⟨hm', hmn'⟩ := write_inForm b hw ⟨hm, hmn⟩
    exact ⟨hm', hmn', hs, hsn⟩
  | rxcPush =>
    obtain ⟨hm', hmn'⟩ := write_inForm (heldByte s.rxcByte s) hw ⟨hm, hmn⟩
    exact ⟨hm', hmn', hs, hsn⟩
  | staged bytes _ _ hl =>
    obtain ⟨hs', hsn'⟩ := writeAll_inForm (hl ▸ chunkLen_le s) ⟨hs, hsn⟩
    exact ⟨hm, hmn, hs', hsn'⟩
  | _ => exact ⟨hm, hmn, hs, hsn⟩

/-! ### Widths -/

theorem prepared_valuesInWidth {s s1 : State} (hp : Prepared s s1) (h : ValuesInWidth s) :
    ValuesInWidth s1 := by
  obtain ⟨ls, hs, ans, k, rfl⟩ := hp
  exact h

theorem pushByte_ovfCount_lt {s : State} (b : Byte) (h : s.ovfCount < 2 ^ s.cfg.ovw) :
    (pushByte b s).ovfCount < 2 ^ s.cfg.ovw := by
  simp only [pushByte, emit_ovfCount]
  split
  · exact wrap_lt _ _
  · exact h

theorem stepForm_valuesInWidth {s t : State} (hf : StepForm s t) (hoff : s.txOff ≤ s.txSize)
    (h : ValuesInWidth s) : ValuesInWidth t := by
  obtain ⟨hovf, hdst, hsize, hsrc, hts, hto, hcount⟩ := h
  cases hf with
  | push b => exact ⟨pushByte_ovfCount_lt b hovf, hdst, hsize, hsrc, hts, hto, hcount⟩
  | rxcPush => exact ⟨pushByte_ovfCount_lt (heldByte s.rxcByte s) hovf, hdst, hsize, hsrc, hts, hto, hcount⟩
  | read => exact ⟨hovf, wrap_lt _ _, wrap_lt _ _, hsrc, hts, hto, hcount⟩
  | write => exact ⟨hovf, hdst, hsize, wrap_lt _ _, wrap_lt _ _, Nat.two_pow_pos _, hcount⟩
  | staged =>
    exact ⟨hovf, hdst, hsize, hsrc, hts, Nat.lt_of_le_of_lt (txOff_add_chunkLen_le hoff) hts, hcount⟩
  | ctrlReset => exact ⟨hovf, hdst, hsize, hsrc, hts, hto, Nat.two_pow_pos _⟩
  | putLf | put => exact ⟨hovf, hdst, hsize, hsrc, hts, hto, wrap_lt _ _⟩
  | _ => exact ⟨hovf, hdst, hsize, hsrc, hts, hto, hcount⟩

/-- Settles O56: each of the three ranges is kept by every form of a step. -/
theorem pointersAndArraysKept : Obligations.PointersAndArraysKept := by
  intro s t hptr harr hval heng h
  obtain ⟨-, s1, hp, hf⟩ := step_form h
  have hptr1 := prepared_pointersInRange hp hptr
  have heng1 := prepared_engineInv hp heng
  have ⟨_, hw, _⟩ := hptr1
  have ⟨_, _, _, _, hoff, _⟩ := heng1
  exact ⟨stepForm_pointersInRange hf heng1 hptr1, stepForm_arraysInForm hf hw (prepared_arraysInForm hp harr),
    stepForm_valuesInWidth hf hoff (prepared_valuesInWidth hp hval)⟩

end Sys2Proof.Machine

/-! The transmit discipline (R235, R328 item 3): a write to the transmit register follows a line-status read with
THRE set. -/

namespace Sys2Proof.Machine

theorem prepared_polledBeforePut {s s1 : State} (hp : Prepared s s1) (h : PolledBeforePut s) :
    PolledBeforePut s1 := by
  obtain ⟨ls, hs, ans, k, rfl⟩ := hp
  exact h

/-- The discipline goes on over the events of a step, from armed exactly in `TX_PUT`. -/
theorem polledBeforePut_append {s t : State} {es : List Event} (h : PolledBeforePut s) (hcfg : t.cfg = s.cfg)
    (hlog : t.log = s.log ++ es)
    (hes : s.cfg.wiring = .assembled → s.cfg.rbrIndex ≠ s.cfg.lsrIndex →
      followPolls s.cfg (s.txState == .put) es = some (t.txState == .put)) : PolledBeforePut t := by
  intro hw hne
  rw [hcfg] at hw hne ⊢
  rw [hlog, followPolls_append _ _ _ (h hw hne)]
  exact hes hw hne

/-- A line-status read arms exactly if it shows THRE. -/
theorem followPolls_lsr (c : Config) (armed : Bool) (v : Nat) :
    followPolls c armed [.regrd c.lsrIndex v] = some (threSet c v) := by
  simp [followPolls]

/-- A write to the transmit register uses up the armed read. -/
theorem followPolls_thr (c : Config) (w : Nat) : followPolls c true [.regwr c.thrIndex w] = some false := by
  simp [followPolls]

/-- Reading the receive register leaves the discipline as it is, when it is not the line-status register. -/
theorem followPolls_rbr {c : Config} (h : c.rbrIndex ≠ c.lsrIndex) (armed : Bool) (v : Nat) :
    followPolls c armed [.regrd c.rbrIndex v] = some armed := by
  simp [followPolls, h]

theorem stepForm_polledBeforePut {s t : State} (hf : StepForm s t) (h : PolledBeforePut s) :
    PolledBeforePut t := by
  have hunits : s.cfg.wiring = .units → ¬s.cfg.wiring = .assembled := fun hu => by simp [hu]
  cases hf with
  | refused | unchanged | held | popFault | syncWr | syncRw | rxIrq | read => exact h
  | regRead _ _ hu | regWrite _ _ hu | pop _ hu =>
    exact polledBeforePut_append h rfl rfl (fun hw => absurd hw (hunits hu))
  | push b hu => exact polledBeforePut_append h rfl rfl (fun hw => absurd hw (hunits hu))
  | popEmpty | cancel | openDev | ctrlReset | ctrlGet | ctrlOther | rdPop | rdCopy =>
    exact polledBeforePut_append h rfl rfl (fun _ _ => rfl)
  | rxcPush => exact polledBeforePut_append h rfl (List.append_assoc s.log [_] [_, _]) (fun _ _ => rfl)
  | rxcRead v => exact polledBeforePut_append h rfl rfl (fun _ hne => followPolls_rbr hne _ v)
  | write _ _ ht | chunkSent ht | nextByte _ ht =>
    exact polledBeforePut_append h rfl (List.append_nil _).symm (fun _ _ => by simp [ht, followPolls])
  | stageDone ht | stageFailed ht | staged _ ht =>
    exact polledBeforePut_append h rfl rfl (fun _ _ => by simp [ht, followPolls])
  | pollReady v ht _ hv =>
    exact polledBeforePut_append h rfl rfl (fun _ _ => (followPolls_lsr ..).trans (by simp [hv]))
  | pollBusy v ht _ hv | pollCounted v _ ht _ hv =>
    exact polledBeforePut_append h rfl rfl
      (fun _ _ => (followPolls_lsr ..).trans (by simp [hv, ht, afterRead]))
  | pollTimeout v _ ht _ hv =>
    exact polledBeforePut_append h rfl (List.append_assoc s.log [_] [_])
      (fun _ _ => by simp [followPolls, hv])
  | putLf ht | put ht =>
    exact polledBeforePut_append h rfl rfl
      (fun _ _ => by rw [ht]; exact (followPolls_thr ..).trans (by simp))

/-- Settles O47: every form of a step goes on with the discipline. -/
theorem pollPrecedesEveryPut : Obligations.PollPrecedesEveryPut := fun _ _ h hstep =>
  step_keeps prepared_polledBeforePut stepForm_polledBeforePut hstep h

end Sys2Proof.Machine

/-! The transmitted stream (R235, R237): along every step, what has been sent and what the TX engine still has in
hand are the staged bytes in order, each LF followed by a CR. -/

namespace Sys2Proof.Machine

theorem prepared_transmitFaithful {s s1 : State} (hp : Prepared s s1) (h : TransmitFaithful s) :
    TransmitFaithful s1 := by
  obtain ⟨ls, hs, ans, k, rfl⟩ := hp
  exact h

/-! ### What the engine has in hand -/

theorem expandLf_cons (c : Config) (b : Byte) (bs : List Byte) :
    expandLf c (b :: bs) = b :: ((if b = c.lf then [c.cr] else []) ++ expandLf c bs) := by
  simp only [expandLf, List.flatMap_cons]
  split <;> rfl

theorem chunkRest_of_sent {s : State} (h : s.stageIdx = s.stageLen) : chunkRest s = [] := by
  simp [chunkRest, h]

/-- Taking the next byte of the chunk. -/
theorem chunkRest_cons {s : State} {b : Byte} (hi : s.stageIdx < s.stageLen)
    (hb : Memory.read s.stage s.stageIdx = some b) :
    chunkRest s = b :: chunkRest { s with stageIdx := s.stageIdx + 1 } := by
  obtain ⟨d, hd⟩ : ∃ d, s.stageLen - s.stageIdx = d + 1 := ⟨s.stageLen - s.stageIdx - 1, by omega⟩
  have hd' : s.stageLen - (s.stageIdx + 1) = d := by omega
  simp [chunkRest, hd, hd', List.range'_succ, hb]

/-- A chunk just staged, from slot 0 on, is still to be taken whole. -/
theorem chunkRest_of_staged {t : State} {m : List Host.Cell} {bs : List Byte}
    (hs : t.stage = Memory.writeAll m 0 bs) (hl : t.stageLen = bs.length) (hi : t.stageIdx = 0) :
    chunkRest t = bs := by
  have hread : ∀ i ∈ List.range' 0 bs.length,
      Memory.read (Memory.writeAll m 0 bs) i = (some ∘ (bs.getD · 0)) i := by
    intro i hi
    have hlt : i < bs.length := by simpa using hi
    simp [memory_read_writeAll, hlt]
  rw [chunkRest, hs, hl, hi, Nat.sub_zero, List.filterMap_congr hread, List.filterMap_eq_map]
  exact List.ext_getElem (by simp) fun i _ h => by simp [List.getElem?_eq_getElem h]

theorem pendingTx_between {s : State} (h : s.txState ≠ .poll) (h' : s.txState ≠ .put) :
    pendingTx s = expandLf s.cfg (chunkRest s) := by simp [pendingTx, h, h']

theorem pendingTx_current {s : State} {b : Byte} (h : s.txState = .poll ∨ s.txState = .put)
    (hb : s.txCur = some b) :
    pendingTx s = b :: ((if s.txCrPending then [s.cfg.cr] else []) ++ expandLf s.cfg (chunkRest s)) := by
  simp [pendingTx, h, hb]

theorem txs_thr (c : Config) (b : Byte) : txs c [.regwr c.thrIndex (regWriteWord b)] = [b] := by simp [txs]

/-! ### Along a step -/

/-- A chunk that is not on its way is sent whole, and what is left of a chunk stands in the staging buffer. -/
def ChunkInPlace (s : State) : Prop :=
  (s.txState = .idle ∨ s.txState = .stage → s.stageIdx = s.stageLen) ∧
  ∀ i, s.stageIdx ≤ i → i < s.stageLen → Memory.read s.stage i ≠ none

theorem transmitFaithful_iff (s : State) : TransmitFaithful s ↔
    (s.cfg.wiring = .assembled → s.cfg.spinBound = none →
      expandLf s.cfg (stagedBytes s.log) = txs s.cfg s.log ++ pendingTx s ∧ ChunkInPlace s) := Iff.rfl

/-- The stream stays faithful when what was in hand, with what is staged now, is what is sent now and what is
then in hand. -/
theorem transmitFaithful_append {s t : State} {es : List Event} (h : TransmitFaithful s) (hcfg : t.cfg = s.cfg)
    (hlog : t.log = s.log ++ es)
    (hes : s.cfg.wiring = .assembled → s.cfg.spinBound = none → ChunkInPlace s →
      pendingTx s ++ expandLf s.cfg (stagedBytes es) = txs s.cfg es ++ pendingTx t ∧ ChunkInPlace t) :
    TransmitFaithful t := by
  rw [transmitFaithful_iff] at h ⊢
  intro hw hb
  rw [hcfg] at hw hb ⊢
  obtain ⟨hstream, hplace⟩ := h hw hb
  obtain ⟨hstep, hplace'⟩ := hes hw hb hplace
  refine ⟨?_, hplace'⟩
  calc expandLf s.cfg (stagedBytes t.log)
      = txs s.cfg s.log ++ (pendingTx s ++ expandLf s.cfg (stagedBytes es)) := by
        rw [hlog, stagedBytes_append, expandLf_append, hstream, List.append_assoc]
    _ = txs s.cfg t.log ++ pendingTx t := by rw [hstep, hlog, txs_append, List.append_assoc]

/-- A step that stages nothing, sends nothing and leaves the transmit side alone. -/
theorem transmitFaithful_kept {s t : State} {es : List Event} (h : TransmitFaithful s) (hcfg : t.cfg = s.cfg)
    (hlog : t.log = s.log ++ es) (hst : stagedBytes es = []) (htx : txs s.cfg es = [])
    (hp : pendingTx t = pendingTx s) (hplace : ChunkInPlace s → ChunkInPlace t) : TransmitFaithful t :=
  transmitFaithful_append h hcfg hlog fun _ _ hc =>
    ⟨by rw [hst, htx, hp]; exact List.append_nil _, hplace hc⟩

theorem stepForm_transmitFaithful {s t : State} (hf : StepForm s t) (heng : EngineInv s)
    (h : TransmitFaithful s) : TransmitFaithful t := by
  obtain ⟨-, -, hidx, -, -, hcur, -⟩ := heng
  have hunits : s.cfg.wiring = .units → ¬s.cfg.wiring = .assembled := fun hu => by simp [hu]
  have hbound : ∀ {b}, s.cfg.spinBound = some b → ¬s.cfg.spinBound = none := fun hb => by simp [hb]
  cases hf with
  | refused | unchanged | held | popFault | syncWr | syncRw | rxIrq | read =>
    exact transmitFaithful_kept h rfl (List.append_nil _).symm rfl rfl rfl id
  | regRead _ _ hu | regWrite _ _ hu | pop _ hu =>
    exact transmitFaithful_append h rfl rfl fun hw => absurd hw (hunits hu)
  | push b hu => exact transmitFaithful_append h rfl rfl fun hw => absurd hw (hunits hu)
  | popEmpty | cancel | openDev | ctrlReset | ctrlGet | ctrlOther | rxcRead | rdPop | rdCopy | pollBusy =>
    exact transmitFaithful_kept h rfl rfl rfl rfl rfl id
  | rxcPush => exact transmitFaithful_kept h rfl (List.append_assoc s.log [_] [_, _]) rfl rfl rfl id
  | write src size ht =>
    refine transmitFaithful_append h rfl (List.append_nil _).symm fun _ _ ⟨hsent, _⟩ => ⟨?_, ?_⟩
    · rw [pendingTx_between (by simp [ht]) (by simp [ht]), pendingTx_between (by simp) (by simp),
        chunkRest_of_sent (hsent (.inl ht)), chunkRest_of_sent rfl]
      rfl
    · exact ⟨fun _ => rfl, fun i _ hi => absurd hi (Nat.not_lt_zero i)⟩
  | stageDone ht | stageFailed ht =>
    refine transmitFaithful_kept h rfl rfl rfl rfl ?_ fun ⟨hsent, hread⟩ => ⟨fun _ => hsent (.inr ht), hread⟩
    rw [pendingTx_between (by simp) (by simp), pendingTx_between (by simp [ht]) (by simp [ht])]
    rfl
  | staged bytes ht _ hl =>
    refine transmitFaithful_append h rfl rfl fun _ _ ⟨hsent, _⟩ => ⟨?_, ⟨by simp, fun i _ hi => ?_⟩⟩
    · rw [pendingTx_between (by simp [ht]) (by simp [ht]), pendingTx_between (by simp) (by simp),
        chunkRest_of_sent (hsent (.inr ht)), chunkRest_of_staged rfl hl.symm rfl]
      exact congrArg (expandLf s.cfg) (List.append_nil bytes)
    · have hlt : i < bytes.length := hl ▸ hi
      simp [memory_read_writeAll, hlt]
  | chunkSent ht hi =>
    refine transmitFaithful_kept h rfl (List.append_nil _).symm rfl rfl ?_
      fun ⟨_, hread⟩ => ⟨fun _ => hi, hread⟩
    rw [pendingTx_between (by simp) (by simp), pendingTx_between (by simp [ht]) (by simp [ht])]
    rfl
  | nextByte b ht hi hb =>
    have hlt : s.stageIdx < s.stageLen := by omega
    refine transmitFaithful_append h rfl (List.append_nil _).symm fun _ _ ⟨_, hread⟩ =>
      ⟨?_, ⟨by simp, fun i hle => hread i (Nat.le_of_succ_le hle)⟩⟩
    obtain ⟨b', hb'⟩ := Option.ne_none_iff_exists'.mp (hread s.stageIdx (Nat.le_refl _) hlt)
    rw [hb', heldByte_some] at hb
    subst hb
    rw [pendingTx_between (by simp [ht]) (by simp [ht]), pendingTx_current (.inl rfl) rfl,
      chunkRest_cons hlt hb', expandLf_cons]
    simp [chunkRest, stagedBytes, txs, expandLf]
  | pollReady v ht =>
    refine transmitFaithful_kept h rfl rfl rfl rfl ?_ fun ⟨_, hread⟩ => ⟨by simp, hread⟩
    simp [pendingTx, ht, chunkRest, afterRead]
  | pollTimeout v b _ _ _ hb =>
    exact transmitFaithful_append h rfl (List.append_assoc s.log [_] [_]) fun _ hn => absurd hn (hbound hb)
  | pollCounted v b _ _ _ hb => exact transmitFaithful_append h rfl rfl fun _ hn => absurd hn (hbound hb)
  | putLf ht _ hc =>
    obtain ⟨b, hb⟩ := Option.ne_none_iff_exists'.mp (hcur (.inr ht))
    refine transmitFaithful_append h rfl rfl fun _ _ ⟨_, hread⟩ => ⟨?_, ⟨by simp, hread⟩⟩
    rw [hb, heldByte_some, txs_thr, pendingTx_current (.inr ht) hb, pendingTx_current (.inl rfl) rfl, hc]
    exact List.append_nil _
  | put ht _ hc =>
    obtain ⟨b, hb⟩ := Option.ne_none_iff_exists'.mp (hcur (.inr ht))
    refine transmitFaithful_append h rfl rfl fun _ _ ⟨_, hread⟩ => ⟨?_, ⟨by simp, hread⟩⟩
    rw [hb, heldByte_some, txs_thr, pendingTx_current (.inr ht) hb, pendingTx_between (by simp) (by simp), hc]
    exact List.append_nil _

/-- Settles O45: every form of a step keeps the stream faithful. -/
theorem transmitStreamFaithful : Obligations.TransmitStreamFaithful := by
  intro s t heng h hstep
  obtain ⟨-, s1, hp, hf⟩ := step_form hstep
  exact stepForm_transmitFaithful hf (prepared_engineInv hp heng) (prepared_transmitFaithful hp h)

end Sys2Proof.Machine

/-! The FIFO's two views as counts (R40, R152 to R154, R157): what each side sees of the other's pointer is an
earlier count of pushes or pops, and empty, full and the counts are differences of those. -/

namespace Sys2Proof.Machine

/-! ### Counts modulo the capacity -/

/-- Two counts less than the capacity apart have the same cursor only if they are equal. -/
theorem mod_eq_iff_of_lt {n a b : Nat} (hab : a ≤ b) (hlt : b < a + n) : a % n = b % n ↔ a = b := by
  refine ⟨fun h => ?_, fun h => h ▸ rfl⟩
  have hdvd : n ∣ b - a := Nat.dvd_of_mod_eq_zero (Nat.sub_mod_eq_zero_of_mod_eq h.symm)
  have hzero : b - a = 0 := Nat.eq_zero_of_dvd_of_lt hdvd (by omega)
  omega

/-- The difference of two cursors is the difference of their counts. -/
theorem cursorDiff_mod {n a b : Nat} (hba : b ≤ a) (hlt : a < b + n) : cursorDiff n (a % n) (b % n) = a - b := by
  have hn : 0 < n := by omega
  have hb : b % n < n := Nat.mod_lt _ hn
  have hdiv := Nat.div_add_mod b n
  rw [cursorDiff, Nat.mod_mod, Nat.mod_add_mod]
  have hsum : a + (n - b % n) = (a - b) + n * (b / n + 1) := by
    rw [Nat.mul_add, Nat.mul_one]
    omega
  rw [hsum, Nat.add_mul_mod_self_left, Nat.mod_eq_of_lt (by omega)]

theorem g2b_grayOfCount {c : Config} (hc : GoodConfig c) (k : Nat) : g2b c.p (grayOfCount c.n k) = k % c.n := by
  obtain ⟨hn, hp⟩ := goodConfig_size hc
  exact g2b_gray (by rw [hp]; exact Nat.mod_lt _ (by omega))

/-! ### Synchronizers as counts -/

/-- The last stage of a synchronizer holds its oldest count. -/
theorem exists_oldest {counts : List Nat} {stages : Nat} (hd : Descending counts) (hl : counts.length = stages)
    (hs : 0 < stages) :
    ∃ k ∈ counts, (∀ a ∈ counts, k ≤ a) ∧ ∀ f, syncLast stages (counts.map f) = f k := by
  have hne : counts ≠ [] := fun h => by simp [h] at hl; omega
  refine ⟨counts.getLast hne, List.getLast_mem hne, fun a ha => ?_, fun f => ?_⟩
  · unfold Descending at hd
    rw [← List.dropLast_append_getLast hne, List.pairwise_append] at hd
    obtain ⟨-, -, hcross⟩ := hd
    rw [← List.dropLast_append_getLast hne, List.mem_append, List.mem_singleton] at ha
    rcases ha with ha | rfl
    · exact hcross a ha _ (List.mem_singleton.mpr rfl)
    · exact Nat.le_refl _
  · have hlast := syncLast_eq (l := counts.map f) (by simpa using hl) hs
    rw [List.getLast?_map, List.getLast?_eq_some_getLast hne] at hlast
    exact (Option.some.inj hlast).symm

/-- A synchronizer of counts that samples a count that is no earlier stays in descending order. -/
theorem descending_sample {k : Nat} {counts : List Nat} (stages : Nat) (h : Descending (k :: counts)) :
    Descending (k :: (k :: counts).take stages) := by
  refine List.pairwise_cons.mpr ⟨fun a ha => ?_, h.sublist (List.take_sublist _ _)⟩
  rcases List.mem_cons.mp (List.mem_of_mem_take ha) with rfl | ha
  · exact Nat.le_refl _
  · exact (List.pairwise_cons.mp h).1 a ha

/-- What the two sides see of each other, as counts: `w` pushes on the read side, `r` pops on the write side. -/
structure FifoViews (s : State) (wn rn w r : Nat) : Prop where
  wptr : s.wptr = wn % s.cfg.n
  rptr : s.rptr = rn % s.cfg.n
  wsync : wsyncLast s = grayOfCount s.cfg.n w
  rsync : rsyncLast s = grayOfCount s.cfg.n r
  r_le : r ≤ rn
  rn_le : rn ≤ w
  w_le : w ≤ wn
  room : wn ≤ r + (s.cfg.n - 1)

section
variable {s : State} {wn rn w r : Nat}

theorem FifoViews.wq_eq (h : FifoViews s wn rn w r) (hc : GoodConfig s.cfg) : wq s = w % s.cfg.n := by
  rw [wq, h.wsync, g2b_grayOfCount hc]

theorem FifoViews.rq_eq (h : FifoViews s wn rn w r) (hc : GoodConfig s.cfg) : rq s = r % s.cfg.n := by
  rw [rq, h.rsync, g2b_grayOfCount hc]

/-- The read side sees the FIFO empty exactly if it has taken every push it sees. -/
theorem FifoViews.emptyR_iff (h : FifoViews s wn rn w r) (hc : GoodConfig s.cfg) (hg : s.rgray = gray s.rptr) :
    emptyR s = true ↔ rn = w := by
  obtain ⟨hn, -⟩ := goodConfig_size hc
  obtain ⟨-, hr, hw, -, hrle, hrnle, hwle, hroom⟩ := h
  rw [emptyR, hg, hr, hw, grayOfCount, beq_iff_eq, gray_inj]
  exact mod_eq_iff_of_lt hrnle (by omega)

/-- PUSH finds the buffer full exactly if `N - 1` pushes are ahead of the pops the write side sees. -/
theorem FifoViews.wasFull_iff (h : FifoViews s wn rn w r) (hc : GoodConfig s.cfg) :
    wasFull s = true ↔ wn = r + (s.cfg.n - 1) := by
  obtain ⟨hn, -⟩ := goodConfig_size hc
  rw [wasFull, h.rq_eq hc, h.wptr, cursorNext_mod, beq_iff_eq]
  obtain ⟨-, -, -, -, hrle, hrnle, hwle, hroom⟩ := h
  constructor
  · intro heq
    by_contra hne
    have := (mod_eq_iff_of_lt (a := r) (b := wn + 1) (by omega) (by omega)).mp heq.symm
    omega
  · rintro rfl
    rw [show r + (s.cfg.n - 1) + 1 = r + s.cfg.n by omega, Nat.add_mod_right]

theorem FifoViews.rdCount_eq (h : FifoViews s wn rn w r) (hc : GoodConfig s.cfg) : rdCount s = w - rn := by
  obtain ⟨hn, -⟩ := goodConfig_size hc
  rw [rdCount, h.wq_eq hc, h.rptr]
  obtain ⟨-, -, -, -, hrle, hrnle, hwle, hroom⟩ := h
  exact cursorDiff_mod hrnle (by omega)

theorem FifoViews.wrCount_eq (h : FifoViews s wn rn w r) (hc : GoodConfig s.cfg) : wrCount s = wn - r := by
  obtain ⟨hn, -⟩ := goodConfig_size hc
  rw [wrCount, h.rq_eq hc, h.wptr]
  obtain ⟨-, -, -, -, hrle, hrnle, hwle, hroom⟩ := h
  exact cursorDiff_mod (by omega) (by omega)

end

/-- The order of the counts, in its two halves. -/
theorem descending_fifo_iff {wn rn : Nat} {ws rs : List Nat} : Descending (wn :: ws ++ rn :: rs) ↔
    Descending (wn :: ws) ∧ Descending (rn :: rs) ∧ ∀ a ∈ wn :: ws, ∀ b ∈ rn :: rs, b ≤ a :=
  List.pairwise_append

/-- An intact FIFO's views: each side sees the oldest count of its synchronizer. -/
theorem fifoCounts_views {s : State} {ws rs : List Nat} (hp : PointersInRange s) (h : FifoCounts s ws rs) :
    ∃ w r, FifoViews s (rxs s.log).length (cons s.log).length w r ∧ (∀ a ∈ ws, w ≤ a) ∧ r ∈ rs ∧ ∀ a ∈ rs, r ≤ a := by
  obtain ⟨⟨-, hs, -⟩, -, -, hwl, hrl, -⟩ := hp
  obtain ⟨hws, hrs, hw, hr, hd, hroom, -⟩ := h
  obtain ⟨hdw, hdr, hcross⟩ := descending_fifo_iff.mp hd
  obtain ⟨hdw', hdw⟩ := List.pairwise_cons.mp hdw
  obtain ⟨hdr', hdr⟩ := List.pairwise_cons.mp hdr
  obtain ⟨w, hwmem, hwmin, hwlast⟩ := exists_oldest hdw (by simpa [hws] using hwl) (by omega)
  obtain ⟨r, hrmem, hrmin, hrlast⟩ := exists_oldest hdr (by simpa [hrs] using hrl) (by omega)
  refine ⟨w, r, ⟨hw, hr, ?_, ?_, hdr' r hrmem, ?_, hdw' w hwmem, hroom r hrmem⟩, hwmin, hrmem, hrmin⟩
  · rw [wsyncLast, hws, hwlast]
  · rw [rsyncLast, hrs, hrlast]
  · exact hcross w (List.mem_cons_of_mem _ hwmem) _ List.mem_cons_self

/-! ### What an intact FIFO says -/

/-- An intact FIFO with no overflow flagged has views, and its consumed bytes are the first received ones. -/
theorem fifoIntact_views {s : State} (hp : PointersInRange s) (h : FifoIntact s) (hovf : s.ovfFlag = false) :
    ∃ w r, FifoViews s (rxs s.log).length (cons s.log).length w r ∧
      cons s.log = (rxs s.log).take (cons s.log).length ∧
      ∀ k, (cons s.log).length ≤ k → k < (rxs s.log).length → Memory.read s.mem (k % s.cfg.n) = (rxs s.log)[k]? := by
  obtain ⟨ws, rs, hcounts⟩ := h hovf
  obtain ⟨w, r, hv, -⟩ := fifoCounts_views hp hcounts
  obtain ⟨-, -, -, -, -, -, hcons, hmem⟩ := hcounts
  exact ⟨w, r, hv, hcons, hmem⟩

/-- Settles O26: the statement's bounds are those of the views, and the consumed stream begins the received
one. -/
theorem fifoIntactStreams : Obligations.FifoIntactStreams := by
  intro s hp h hovf
  have hc := hp.1
  obtain ⟨w, r, hv, hcons, -⟩ := fifoIntact_views hp h hovf
  have hrd := hv.rdCount_eq hc
  have hwr := hv.wrCount_eq hc
  obtain ⟨-, -, -, -, hrle, hrnle, hwle, hroom⟩ := hv
  refine ⟨by omega, by omega, fun k hk => ?_, ?_, by omega, by omega⟩
  · conv_lhs => rw [hcons]
    exact List.getElem?_take_of_lt hk
  · rw [hcons]
    exact List.take_prefix _ _

/-- Settles O27: with every push taken the read side sees no more of them, and with `N - 1` bytes unread the pops
the write side sees are no more than those taken. -/
theorem emptyAndFullNeverLate : Obligations.EmptyAndFullNeverLate := by
  intro s hp hg h hovf
  have hc := hp.1
  obtain ⟨w, r, hv, -⟩ := fifoIntact_views hp h hovf
  have hempty := hv.emptyR_iff hc hg
  have hfull := hv.wasFull_iff hc
  obtain ⟨-, -, -, -, hrle, hrnle, hwle, hroom⟩ := hv
  exact ⟨fun heq => hempty.mpr (by omega), fun heq => hfull.mpr (by omega)⟩

/-- A byte that the read side sees is in its slot: a pop before any overflow takes the oldest unread byte. -/
theorem popSource_of_intact {s : State} (hp : PointersInRange s) (hg : s.rgray = gray s.rptr) (h : FifoIntact s)
    (hovf : s.ovfFlag = false) (he : emptyR s = false) :
    (cons s.log).length < (rxs s.log).length ∧ popSource s = (rxs s.log)[(cons s.log).length]? := by
  have hc := hp.1
  obtain ⟨w, r, hv, -, hmem⟩ := fifoIntact_views hp h hovf
  have hne : (cons s.log).length ≠ w := fun heq => by simp [(hv.emptyR_iff hc hg).mpr heq] at he
  have hrnle := hv.rn_le
  have hwle := hv.w_le
  have hlt : (cons s.log).length < (rxs s.log).length := by omega
  refine ⟨hlt, ?_⟩
  rw [popSource, hovf, hv.rptr, hmem _ (Nat.le_refl _) hlt]
  rfl

end Sys2Proof.Machine

/-! Order and integrity of the FIFO along a step (R157), the fault that it shuts out (R168), and the two views of
its signals (R40). -/

namespace Sys2Proof.Machine

/-! ### The forms of a step that touch the FIFO -/

/-- The fields that the FIFO's counts speak of, the log apart. -/
def fifoFields (s : State) : Config × List Host.Cell × Nat × Nat × List Nat × List Nat × Bool :=
  (s.cfg, s.mem, s.wptr, s.rptr, s.wsync, s.rsync, s.ovfFlag)

/-- Leaving the FIFO's fields and its two streams alone keeps it intact. -/
theorem fifoIntact_kept {s t : State} {es : List Event} (h : FifoIntact s) (hf : fifoFields t = fifoFields s)
    (hlog : t.log = s.log ++ es) (hrxs : rxs es = []) (hcons : cons es = []) : FifoIntact t := by
  simp only [fifoFields, Prod.mk.injEq] at hf
  obtain ⟨hcfg, hmem, hwptr, hrptr, hwsync, hrsync, hovf⟩ := hf
  have hrxs' : rxs t.log = rxs s.log := by rw [hlog, rxs_append, hrxs, List.append_nil]
  have hcons' : cons t.log = cons s.log := by rw [hlog, cons_append, hcons, List.append_nil]
  intro hno
  obtain ⟨ws, rs, hcounts⟩ := h (hovf ▸ hno)
  refine ⟨ws, rs, ?_⟩
  unfold FifoCounts at hcounts ⊢
  rw [hcfg, hmem, hwptr, hrptr, hwsync, hrsync, hrxs', hcons']
  exact hcounts

/-- A push that finds room keeps its new byte apart from the unread ones. -/
theorem pushByte_intact {s : State} (b : Byte) (hp : PointersInRange s) (h : FifoIntact s) :
    FifoIntact (pushByte b s) := by
  intro hno
  obtain ⟨hovf, hfull⟩ : s.ovfFlag = false ∧ wasFull s = false := by simpa [pushByte] using hno
  obtain ⟨ws, rs, hcounts⟩ := h hovf
  obtain ⟨w, r, hv, -, -, hrmin⟩ := fifoCounts_views hp hcounts
  have hroom : (rxs s.log).length ≠ r + (s.cfg.n - 1) := fun heq => by
    simp [(hv.wasFull_iff hp.1).mpr heq] at hfull
  obtain ⟨-, -, -, -, hrle, hrnle, hwle, hroomle⟩ := hv
  obtain ⟨hws, hrs, hwptr, hrptr, hd, hle, hcons, hmem⟩ := hcounts
  have hrxs : rxs (pushByte b s).log = rxs s.log ++ [b] := rxs_append _ _
  have hcons' : cons (pushByte b s).log = cons s.log := (cons_append _ _).trans (List.append_nil _)
  obtain ⟨hdw, hdr, hcross⟩ := descending_fifo_iff.mp hd
  obtain ⟨hdw', hdw⟩ := List.pairwise_cons.mp hdw
  obtain ⟨hdr', -⟩ := List.pairwise_cons.mp hdr
  refine ⟨ws, rs, ?_⟩
  unfold FifoCounts
  simp only [hrxs, hcons', List.length_append, List.length_singleton]
  refine ⟨hws, hrs, ?_, hrptr, descending_fifo_iff.mpr ⟨?_, hdr, ?_⟩, ?_, ?_, ?_⟩
  · exact (congrArg (cursorNext s.cfg.n) hwptr).trans (cursorNext_mod _ _)
  · exact List.pairwise_cons.mpr ⟨fun a ha => Nat.le_succ_of_le (hdw' a ha), hdw⟩
  · intro a ha k hk
    rcases List.mem_cons.mp ha with rfl | ha
    · exact Nat.le_succ_of_le (hcross _ List.mem_cons_self k hk)
    · exact hcross a (List.mem_cons_of_mem _ ha) k hk
  · intro k hk
    have := hrmin k hk
    show (rxs s.log).length + 1 ≤ k + (s.cfg.n - 1)
    omega
  · rw [List.take_append_of_le_length (by omega)]
    exact hcons
  · intro k hkr hkw
    show Memory.read (Memory.write s.mem s.wptr b) (k % s.cfg.n) = _
    rw [memory_read_write, hwptr]
    by_cases hk : k = (rxs s.log).length
    · subst hk
      simp
    · have hne : k % s.cfg.n ≠ (rxs s.log).length % s.cfg.n := fun heq =>
        hk ((mod_eq_iff_of_lt (by omega) (by omega)).mp heq)
      rw [if_neg hne, List.getElem?_append_left (by omega)]
      exact hmem k hkr (by omega)

/-- A pop that takes a byte takes the oldest unread one. -/
theorem afterPop_intact {s : State} {b : Byte} (hp : PointersInRange s) (hg : s.rgray = gray s.rptr)
    (he : emptyR s = false) (hb : popSource s = some b) (h : FifoIntact s) : FifoIntact (afterPop b s) := by
  intro hno
  have hovf : s.ovfFlag = false := hno
  obtain ⟨hlt, hsrc⟩ := popSource_of_intact hp hg h hovf he
  obtain ⟨ws, rs, hcounts⟩ := h hovf
  obtain ⟨w, r, hv, hwmin, -⟩ := fifoCounts_views hp hcounts
  have hne : (cons s.log).length ≠ w := fun heq => by simp [(hv.emptyR_iff hp.1 hg).mpr heq] at he
  obtain ⟨-, -, -, -, hrle, hrnle, hwle, hroomle⟩ := hv
  obtain ⟨hws, hrs, hwptr, hrptr, hd, hle, hcons, hmem⟩ := hcounts
  have hrxs : rxs (afterPop b s).log = rxs s.log := (rxs_append _ _).trans (List.append_nil _)
  have hcons' : cons (afterPop b s).log = cons s.log ++ [b] := cons_append _ _
  obtain ⟨hdw, hdr, -⟩ := descending_fifo_iff.mp hd
  obtain ⟨hdr', hdr⟩ := List.pairwise_cons.mp hdr
  refine ⟨ws, rs, ?_⟩
  unfold FifoCounts
  simp only [hrxs, hcons', List.length_append, List.length_singleton]
  refine ⟨hws, hrs, hwptr, ?_, descending_fifo_iff.mpr ⟨hdw, ?_, ?_⟩, hle, ?_, ?_⟩
  · exact (congrArg (cursorNext s.cfg.n) hrptr).trans (cursorNext_mod _ _)
  · exact List.pairwise_cons.mpr ⟨fun a ha => Nat.le_succ_of_le (hdr' a ha), hdr⟩
  · have hw : ∀ a ∈ (rxs s.log).length :: ws, (cons s.log).length + 1 ≤ a := by
      intro a ha
      rcases List.mem_cons.mp ha with rfl | ha
      · omega
      · have := hwmin a ha
        omega
    intro a ha k hk
    rcases List.mem_cons.mp hk with rfl | hk
    · exact hw a ha
    · exact (hdr' k hk).trans ((Nat.le_succ _).trans (hw a ha))
  · rw [List.take_add_one, ← hcons, ← hsrc, hb]
    rfl
  · exact fun k hk => hmem k (by omega)

/-- A clock edge of the read side samples the count of pushes. -/
theorem syncWr_intact {s : State} (hg : s.wgray = gray s.wptr) (h : FifoIntact s) :
    FifoIntact { s with wsync := syncShift s.cfg.s s.wgray s.wsync } := by
  intro hno
  obtain ⟨ws, rs, hws, hrs, hwptr, hrptr, hd, hrest⟩ := h hno
  obtain ⟨hdw, hdr, hcross⟩ := descending_fifo_iff.mp hd
  refine ⟨((rxs s.log).length :: ws).take s.cfg.s, rs, ?_, hrs, hwptr, hrptr,
    descending_fifo_iff.mpr ⟨descending_sample _ hdw, hdr, fun a ha => ?_⟩, hrest⟩
  · rw [List.map_take, List.map_cons, ← hws, grayOfCount, ← hwptr, ← hg]
    rfl
  · refine hcross a ?_
    rcases List.mem_cons.mp ha with rfl | ha
    · exact List.mem_cons_self
    · exact List.mem_of_mem_take ha

/-- A clock edge of the write side samples the count of pops. -/
theorem syncRw_intact {s : State} (hp : PointersInRange s) (hg : s.rgray = gray s.rptr) (h : FifoIntact s) :
    FifoIntact { s with rsync := syncShift s.cfg.s s.rgray s.rsync } := by
  intro hno
  obtain ⟨ws, rs, hcounts⟩ := h hno
  obtain ⟨w, r, hv, -, -, -⟩ := fifoCounts_views hp hcounts
  obtain ⟨-, -, -, -, hrle, -, -, hroom⟩ := hv
  obtain ⟨hws, hrs, hwptr, hrptr, hd, hle, hrest⟩ := hcounts
  obtain ⟨hdw, hdr, hcross⟩ := descending_fifo_iff.mp hd
  refine ⟨ws, ((cons s.log).length :: rs).take s.cfg.s, hws, ?_, hwptr, hrptr,
    descending_fifo_iff.mpr ⟨hdw, descending_sample _ hdr, fun a ha k hk => hcross a ha k ?_⟩, fun k hk => ?_,
    hrest⟩
  · rw [List.map_take, List.map_cons, ← hrs, grayOfCount, ← hrptr, ← hg]
    rfl
  · rcases List.mem_cons.mp hk with rfl | hk
    · exact List.mem_cons_self
    · exact List.mem_of_mem_take hk
  · rcases List.mem_cons.mp (List.mem_of_mem_take hk) with rfl | hk
    · exact hroom.trans (Nat.add_le_add_right hrle _)
    · exact hle k hk

theorem prepared_fifoIntact {s s1 : State} (hp : Prepared s s1) (h : FifoIntact s) : FifoIntact s1 := by
  obtain ⟨ls, hs, ans, k, rfl⟩ := hp
  exact h

theorem stepForm_fifoIntact {s t : State} (hf : StepForm s t) (hp : PointersInRange s) (heng : EngineInv s)
    (h : FifoIntact s) : FifoIntact t := by
  obtain ⟨hwg, hrg, -⟩ := heng
  cases hf with
  | push b => exact pushByte_intact b hp h
  | rxcPush => exact fifoIntact_kept (pushByte_intact (heldByte s.rxcByte s) hp h) rfl rfl rfl rfl
  | pop b _ he hb => exact afterPop_intact hp hrg he hb h
  | rdPop b _ he hb =>
    exact fifoIntact_kept (afterPop_intact hp hrg he hb h) rfl (List.append_nil _).symm rfl rfl
  | syncWr => exact syncWr_intact hwg h
  | syncRw => exact syncRw_intact hp hrg h
  | refused | unchanged | held | popFault | rxIrq | read | write | chunkSent | nextByte =>
    exact fifoIntact_kept h rfl (List.append_nil _).symm rfl rfl
  | regRead | regWrite | popEmpty | cancel | openDev | ctrlReset | ctrlGet | ctrlOther | rxcRead | rdCopy
  | stageDone | stageFailed | staged | pollReady | pollBusy | pollCounted | putLf | put =>
    exact fifoIntact_kept h rfl rfl rfl rfl
  | pollTimeout => exact fifoIntact_kept h rfl (List.append_assoc s.log [_] [_]) rfl rfl

/-- Settles O25: every form of a step keeps the FIFO intact. -/
theorem fifoOrderKept : Obligations.FifoOrderKept := by
  intro s t hptr heng h hstep
  obtain ⟨-, s1, hp, hf⟩ := step_form hstep
  exact stepForm_fifoIntact hf (prepared_pointersInRange hp hptr) (prepared_engineInv hp heng)
    (prepared_fifoIntact hp h)

/-! ### Faults -/

/-- The only form of a step that records a fault is the pop of an unwritten slot (R298). -/
theorem stepForm_faults {s t : State} (hf : StepForm s t) :
    t.faults = s.faults ∨
      (emptyR s = false ∧ popSource s = none ∧ t.faults = s.faults ++ [.unwrittenSlot]) := by
  cases hf with
  | popFault he hn => exact .inr ⟨he, hn, rfl⟩
  | _ => exact .inl rfl

/-- Settles O28: an intact FIFO that is seen non-empty has a byte to pop. -/
theorem unwrittenSlotNeverRead : Obligations.UnwrittenSlotNeverRead := by
  intro s t hptr heng h hstep
  obtain ⟨-, s1, hp, hf⟩ := step_form hstep
  have hfaults : s1.faults = s.faults := by obtain ⟨_, _, _, _, rfl⟩ := hp; rfl
  have ⟨_, hrg, _⟩ := prepared_engineInv hp heng
  rcases stepForm_faults hf with hsame | ⟨he, hn, -⟩
  · exact hsame.trans hfaults
  · cases hovf : s1.ovfFlag with
    | true => simp [popSource, hovf] at hn
    | false =>
      obtain ⟨hlt, hsrc⟩ :=
        popSource_of_intact (prepared_pointersInRange hp hptr) hrg (prepared_fifoIntact hp h) hovf he
      rw [hn, List.getElem?_eq_getElem hlt] at hsrc
      cases hsrc

/-! ### Pointers and gray codes agree -/

theorem g2b_lt {p g : Nat} (hg : g < 2 ^ p) : ∀ k, g2b k g < 2 ^ p
  | 0 => Nat.two_pow_pos p
  | k + 1 => Nat.xor_lt_two_pow (g2b_lt hg k) (lt_of_le_of_lt (Nat.shiftRight_le g k) hg)

/-- `gray` undoes `g2b` on `P` bits. -/
theorem gray_g2b {p g : Nat} (hg : g < 2 ^ p) : gray (g2b p g) = g := by
  refine Nat.eq_of_testBit_eq fun i => ?_
  rw [gray_testBit]
  by_cases hi : i < p
  · rw [g2b_testBit_step hg hi]
    cases (g2b p g).testBit (i + 1) <;> simp
  · have hhigh : ∀ {x j : Nat}, x < 2 ^ p → i ≤ j → x.testBit j = false := fun hx hj =>
      Nat.testBit_lt_two_pow (lt_of_lt_of_le hx (Nat.pow_le_pow_right (by norm_num) (by omega)))
    rw [hhigh (g2b_lt hg p) (Nat.le_refl i), hhigh (g2b_lt hg p) (Nat.le_succ i), hhigh hg (Nat.le_refl i)]
    rfl

/-- A pointer has the gray code `g` exactly if it is what `g` stands for. -/
theorem gray_eq_iff {c : Config} (hc : GoodConfig c) {a g : Nat} (ha : a < c.n) (hg : g < c.n) :
    gray a = g ↔ a = g2b c.p g := by
  obtain ⟨-, hp⟩ := goodConfig_size hc
  rw [← hp] at ha hg
  exact ⟨fun h => by rw [← h, g2b_gray ha], fun h => by rw [h, gray_g2b hg]⟩

theorem syncLast_lt {stages n : Nat} {l : List Nat} (hl : l.length = stages) (hs : 0 < stages)
    (h : ∀ g ∈ l, g < n) : syncLast stages l < n :=
  h _ (List.mem_of_getLast? (syncLast_eq hl hs))

/-- The difference of two cursors, without its remainder. -/
theorem cursorDiff_eq {n a b : Nat} (ha : a < n) (hb : b < n) :
    cursorDiff n a b = if b ≤ a then a - b else a + n - b := by
  rw [cursorDiff, Nat.mod_eq_of_lt hb]
  split
  · rw [show a + (n - b) = (a - b) + n by omega, Nat.add_mod_right, Nat.mod_eq_of_lt (by omega)]
  · rw [Nat.mod_eq_of_lt (by omega)]
    omega

/-- The difference of two cursors is the difference modulo the capacity. -/
theorem cursorDiff_int {n a b : Nat} (ha : a < n) (hb : b < n) :
    (cursorDiff n a b : Int) = ((a : Int) - b) % n := by
  rw [cursorDiff_eq ha hb]
  split
  · rw [Int.emod_eq_of_lt (by omega) (by omega)]
    omega
  · rw [← Int.add_emod_right, Int.emod_eq_of_lt (by omega) (by omega)]
    omega

theorem cursorDiff_eq_zero {n a b : Nat} (ha : a < n) (hb : b < n) : cursorDiff n a b = 0 ↔ b = a := by
  rw [cursorDiff_eq ha hb]
  split <;> omega

theorem cursorDiff_eq_pred {n a b : Nat} (ha : a < n) (hb : b < n) :
    cursorDiff n a b = n - 1 ↔ (a + 1) % n = b := by
  rw [cursorDiff_eq ha hb]
  by_cases hlast : a + 1 = n
  · rw [hlast, Nat.mod_self]
    split <;> omega
  · rw [Nat.mod_eq_of_lt (by omega)]
    split <;> omega

/-- Settles O24: each comparison of gray codes is one of the pointers they stand for, and the counts are cursor
differences. -/
theorem fifoSignalsAgree : Obligations.FifoSignalsAgree := by
  intro s ⟨hc, hw, hr, hwl, hrl, hws, hrs⟩ hg
  obtain ⟨hn, hp⟩ := goodConfig_size hc
  have ⟨_, hstages, _⟩ := hc
  have hwlast : wsyncLast s < s.cfg.n := syncLast_lt hwl (by omega) hws
  have hrlast : rsyncLast s < s.cfg.n := syncLast_lt hrl (by omega) hrs
  have hwq : wq s < s.cfg.n := by rw [← hp] at hwlast ⊢; exact g2b_lt hwlast _
  have hrq : rq s < s.cfg.n := by rw [← hp] at hrlast ⊢; exact g2b_lt hrlast _
  have hnext : cursorNext s.cfg.n s.wptr < s.cfg.n := cursorNext_lt _ (by omega)
  have hempty : emptyR s = true ↔ s.rptr = wq s := by
    rw [emptyR, beq_iff_eq, hg]
    exact gray_eq_iff hc hr hwlast
  have hfull : fullW s = true ↔ (s.wptr + 1) % s.cfg.n = rq s := by
    rw [fullW, beq_iff_eq]
    exact gray_eq_iff hc hnext hrlast
  have hwas : wasFull s = true ↔ (s.wptr + 1) % s.cfg.n = rq s := beq_iff_eq
  exact ⟨hempty, hempty.trans (cursorDiff_eq_zero hwq hr).symm, hfull, hfull.trans (cursorDiff_eq_pred hw hrq).symm,
    Bool.eq_iff_iff.mpr (hwas.trans hfull.symm), rfl, cursorDiff_int hwq hr, cursorDiff_int hw hrq⟩

end Sys2Proof.Machine

/-! Decoding (30_encoding.md): what the decoder answers by the header at the front of a stream, and that it and the
encoder undo each other. -/

namespace Sys2Proof

/-! ### The decoder by header -/

theorem encode_eq (i : Instr) : encode i = headerBytes i.header ++ i.operands.flatMap wordBytes := rfl

/-- A header whose OP names no operation, whatever follows. -/
theorem decode_reservedOp {h : Header} (ho : opReserved h.op = true) (tail : List Byte) :
    decode (headerBytes h ++ tail) = .error .reservedOp := by
  simp [headerBytes, decode, joinHeader_bytes, ho]

/-- A header that names an operation and sets a reserved field, whatever follows. -/
theorem decode_reservedField {h : Header} (ho : opReserved h.op = false) (hf : h.reservedFieldSet = true)
    (tail : List Byte) : decode (headerBytes h ++ tail) = .error .reservedField := by
  simp [headerBytes, decode, joinHeader_bytes, ho, hf]

/-- An accepted header with no operand words. -/
theorem decode_short {h : Header} (ho : opReserved h.op = false) (hf : h.reservedFieldSet = false)
    (hs : opHasOperands h.op = false) (rest : List Byte) :
    decode (headerBytes h ++ rest) = .ok (shortOf h, rest) := by
  simp [headerBytes, decode, joinHeader_bytes, ho, hf, hs]

/-- An accepted header with its two operand words. -/
theorem decode_long {h : Header} (ho : opReserved h.op = false) (hf : h.reservedFieldSet = false)
    (hl : opHasOperands h.op = true) (w1 w2 : Word) (rest : List Byte) :
    decode (headerBytes h ++ (wordBytes w1 ++ (wordBytes w2 ++ rest))) = .ok (longOf h w1 w2, rest) := by
  simp [headerBytes, wordBytes, decode, joinHeader_bytes, joinWord_bytes, ho, hf, hl]

/-- Every stream of two bytes and more starts with a header. -/
theorem cons_cons_eq_headerBytes (b0 b1 : Byte) (tail : List Byte) :
    b0 :: b1 :: tail = headerBytes (joinHeader b0 b1) ++ tail := by
  rw [headerBytes_join]
  rfl

/-- Every stream of eight bytes and more starts with two operand words. -/
theorem exists_operands : ∀ {l : List Byte}, 8 ≤ l.length → ∃ w1 w2 rest, l = wordBytes w1 ++ (wordBytes w2 ++ rest)
  | c0 :: c1 :: c2 :: c3 :: d0 :: d1 :: d2 :: d3 :: rest, _ =>
    ⟨joinWord c0 c1 c2 c3, joinWord d0 d1 d2 d3, rest, by rw [wordBytes_join, wordBytes_join]; rfl⟩

/-- An accepted header with operand words and too few bytes behind it. -/
theorem decode_truncated {h : Header} (ho : opReserved h.op = false) (hf : h.reservedFieldSet = false)
    (hl : opHasOperands h.op = true) {tail : List Byte} (ht : tail.length < 8) :
    decode (headerBytes h ++ tail) = .error .truncated := by
  simp only [headerBytes, List.cons_append, List.nil_append, decode, joinHeader_bytes, ho, hf, hl]
  match tail, ht with
  | [], _ | [_], _ | [_, _], _ | [_, _, _], _ | [_, _, _, _], _ | [_, _, _, _, _], _ | [_, _, _, _, _, _], _
  | [_, _, _, _, _, _, _], _ => rfl

/-- What the decoder accepts: a header that R97 lets pass, and, where its OP has them, two operand words. -/
inductive Accepted : List Byte → Instr → List Byte → Prop where
  | short (h : Header) (rest : List Byte) (ho : opReserved h.op = false) (hf : h.reservedFieldSet = false)
      (hs : opHasOperands h.op = false) : Accepted (headerBytes h ++ rest) (shortOf h) rest
  | long (h : Header) (w1 w2 : Word) (rest : List Byte) (ho : opReserved h.op = false)
      (hf : h.reservedFieldSet = false) (hl : opHasOperands h.op = true) :
      Accepted (headerBytes h ++ (wordBytes w1 ++ (wordBytes w2 ++ rest))) (longOf h w1 w2) rest

theorem decode_accepted {bytes rest : List Byte} {i : Instr} (hd : decode bytes = .ok (i, rest)) :
    Accepted bytes i rest := by
  match bytes with
  | [] | [_] => cases hd
  | b0 :: b1 :: tail =>
    rw [cons_cons_eq_headerBytes] at hd ⊢
    generalize joinHeader b0 b1 = h at hd ⊢
    cases ho : opReserved h.op with
    | true => rw [decode_reservedOp ho] at hd; cases hd
    | false =>
      cases hf : h.reservedFieldSet with
      | true => rw [decode_reservedField ho hf] at hd; cases hd
      | false =>
        cases hl : opHasOperands h.op with
        | false =>
          rw [decode_short ho hf hl] at hd
          cases hd
          exact .short h _ ho hf hl
        | true =>
          by_cases ht : tail.length < 8
          · rw [decode_truncated ho hf hl ht] at hd; cases hd
          · obtain ⟨w1, w2, rest', rfl⟩ := exists_operands (Nat.le_of_not_lt ht)
            rw [decode_long ho hf hl] at hd
            cases hd
            exact .long h w1 w2 _ ho hf hl

/-! ### Encode, then decode -/

/-- The header and operand words of every operation are those of R90 to R93. -/
theorem instr_encoded (i : Instr) : Laws.Encoded.Statement i := by
  cases i with
  | regRd => exact Laws.Encoded.regRd _
  | regWr => exact Laws.Encoded.regWr _ _
  | push => exact Laws.Encoded.push _
  | pop => exact Laws.Encoded.pop
  | syncWr => exact Laws.Encoded.syncWr
  | syncRw => exact Laws.Encoded.syncRw
  | rxIrq => exact Laws.Encoded.rxIrq
  | openDev => exact Laws.Encoded.openDev
  | read => exact Laws.Encoded.read _ _
  | write => exact Laws.Encoded.write _ _
  | ctrlReset => exact Laws.Encoded.ctrlReset _
  | ctrlGet => exact Laws.Encoded.ctrlGet _
  | ctrlOther => exact Laws.Encoded.ctrlOther _ _
  | cancel => exact Laws.Encoded.cancel

/-- An operation with operand words is the one its header and those words stand for. -/
theorem longOf_make (w1 w2 : Word) :
    longOf (Header.make 9#4 0#3 0#8) w1 w2 = .read w1 w2 ∧ longOf (Header.make 10#4 0#3 0#8) w1 w2 = .write w1 w2 ∧
      longOf (Header.make 11#4 0#3 0#8) w1 w2 = ctrlOf w1 w2 := by
  simp only [longOf, make_op]
  exact ⟨rfl, rfl, rfl⟩

/-- The operation is the one its header, and its operand words if it has them, stand for. -/
theorem instr_of_encoding {i : Instr} (hwf : i.wellFormed = true) :
    (opHasOperands i.header.op = false ∧ i.operands = [] ∧ shortOf i.header = i) ∨
    ∃ w1 w2, opHasOperands i.header.op = true ∧ i.operands = [w1, w2] ∧ longOf i.header w1 w2 = i := by
  cases i with
  | read d n => exact .inr ⟨d, n, by rw [Instr.header, make_op]; rfl, rfl, (longOf_make d n).1⟩
  | write d n => exact .inr ⟨d, n, by rw [Instr.header, make_op]; rfl, rfl, (longOf_make d n).2.1⟩
  | ctrlReset a => exact .inr ⟨0#32, a, by rw [Instr.header, make_op]; rfl, rfl, (longOf_make _ a).2.2⟩
  | ctrlGet a => exact .inr ⟨1#32, a, by rw [Instr.header, make_op]; rfl, rfl, (longOf_make _ a).2.2⟩
  | ctrlOther o a =>
    obtain ⟨h0, h1⟩ : o ≠ 0#32 ∧ o ≠ 1#32 := by simpa [Instr.wellFormed] using hwf
    refine .inr ⟨o, a, by rw [Instr.header, make_op]; rfl, rfl, (longOf_make o a).2.2.trans ?_⟩
    rw [ctrlOf, if_neg h0, if_neg h1]
  | regRd idx =>
    refine .inl ⟨by rw [Instr.header, make_op]; rfl, rfl, ?_⟩
    rw [shortOf, Instr.header, make_op, make_idx]
    rfl
  | regWr idx b =>
    refine .inl ⟨by rw [Instr.header, make_op]; rfl, rfl, ?_⟩
    rw [shortOf, Instr.header, make_op, make_idx, make_data]
    rfl
  | push b =>
    refine .inl ⟨by rw [Instr.header, make_op]; rfl, rfl, ?_⟩
    rw [shortOf, Instr.header, make_op, make_data]
    rfl
  | _ => exact .inl ⟨rfl, rfl, rfl⟩

/-- Settles O1: the header of the encoding passes the checks of R97, and the operation is read off it and its
operand words. -/
theorem decodeUndoesEncode : Obligations.DecodeUndoesEncode := by
  intro i rest hwf
  obtain ⟨ho, hf, -⟩ := instr_encoded i
  rw [encode_eq]
  rcases instr_of_encoding hwf with ⟨hs, hops, hi⟩ | ⟨w1, w2, hl, hops, hi⟩
  · rw [hops, List.flatMap_nil, List.append_nil, decode_short ho hf hs, hi]
  · have hbytes : [w1, w2].flatMap wordBytes = wordBytes w1 ++ wordBytes w2 := by simp
    rw [hops, hbytes, List.append_assoc, List.append_assoc, decode_long ho hf hl, hi]

/-! ### Decode, then encode -/

/-- An accepted header is built from the OP, index and data that its operation uses. -/
theorem header_eq_make_of_clear {h : Header} (hf : h.reservedFieldSet = false) :
    h = Header.make h.op (if opUsesIdx h.op then h.idx else 0#3) (if opUsesData h.op then h.data else 0#8) := by
  obtain ⟨hr, hi, hd⟩ := reservedField_clear h hf
  conv_lhs => rw [header_eq_make h hr]
  congr 1
  · split
    · rfl
    · exact hi (by simpa using ‹¬opUsesIdx h.op = true›)
  · split
    · rfl
    · exact hd (by simpa using ‹¬opUsesData h.op = true›)

/-- The OP values that name an operation without operand words. -/
theorem op_cases_short : ∀ op : BitVec 4, opReserved op = false → opHasOperands op = false →
    op = 1#4 ∨ op = 2#4 ∨ op = 3#4 ∨ op = 4#4 ∨ op = 5#4 ∨ op = 6#4 ∨ op = 7#4 ∨ op = 8#4 ∨ op = 12#4 := by
  decide

/-- The OP values that name an operation with operand words. -/
theorem op_cases_long : ∀ op : BitVec 4, opHasOperands op = true → op = 9#4 ∨ op = 10#4 ∨ op = 11#4 := by
  decide

theorem shortOf_encoding {h : Header} (ho : opReserved h.op = false) (hf : h.reservedFieldSet = false)
    (hs : opHasOperands h.op = false) :
    (shortOf h).wellFormed = true ∧ (shortOf h).header = h ∧ (shortOf h).operands = [] := by
  have hm := header_eq_make_of_clear hf
  rcases op_cases_short h.op ho hs with hop | hop | hop | hop | hop | hop | hop | hop | hop <;>
    (simp only [shortOf, hop]; rw [hop] at hm; exact ⟨rfl, hm.symm, rfl⟩)

/-- The control operation of a first operand word, whichever of the three it is (R94). -/
theorem ctrlOf_encoding (w1 w2 : Word) : (ctrlOf w1 w2).wellFormed = true ∧
    (ctrlOf w1 w2).header = Header.make 11#4 0#3 0#8 ∧ (ctrlOf w1 w2).operands = [w1, w2] := by
  unfold ctrlOf
  split
  · next h => subst h; exact ⟨rfl, rfl, rfl⟩
  · split
    · next h => subst h; exact ⟨rfl, rfl, rfl⟩
    · next h0 h1 => exact ⟨by simp [Instr.wellFormed, h0, h1], rfl, rfl⟩

theorem longOf_encoding {h : Header} (hf : h.reservedFieldSet = false) (hl : opHasOperands h.op = true)
    (w1 w2 : Word) : (longOf h w1 w2).wellFormed = true ∧ (longOf h w1 w2).header = h ∧
      (longOf h w1 w2).operands = [w1, w2] := by
  have hm := header_eq_make_of_clear hf
  rcases op_cases_long h.op hl with hop | hop | hop <;> rw [hop] at hm <;> simp only [longOf, hop]
  · exact ⟨rfl, hm.symm, rfl⟩
  · exact ⟨rfl, hm.symm, rfl⟩
  · obtain ⟨hwf, hh, hops⟩ := ctrlOf_encoding w1 w2
    exact ⟨hwf, hh.trans hm.symm, hops⟩

/-- Settles O2: an accepted stream is a header and operand words that the operation read off them has. -/
theorem decodedStreamIsItsEncoding : Obligations.DecodedStreamIsItsEncoding := by
  intro bytes rest i hd
  rw [encode_eq]
  cases decode_accepted hd with
  | short h _ ho hf hs =>
    obtain ⟨hwf, hh, hops⟩ := shortOf_encoding ho hf hs
    exact ⟨hwf, by simp [hh, hops]⟩
  | long h w1 w2 _ ho hf hl =>
    obtain ⟨hwf, hh, hops⟩ := longOf_encoding hf hl w1 w2
    exact ⟨hwf, by simp [hh, hops]⟩

/-- Settles O4: the header and words of each example are as the spec writes them, and the decoder undoes its
encoding. -/
theorem specExampleWords : Obligations.SpecExampleWords := by
  have hdec : ∀ i : Instr, i.wellFormed = true →
      decode (headerBytes i.header ++ i.operands.flatMap wordBytes) = .ok (i, []) := fun i hwf => by
    simpa [encode_eq] using decodeUndoesEncode i [] hwf
  exact ⟨⟨rfl, rfl, hdec (.regRd 5#3) rfl⟩, ⟨rfl, rfl, hdec (.regWr 0#3 0x61#8) rfl⟩,
    ⟨rfl, rfl, hdec (.push 0x68#8) rfl⟩, ⟨rfl, rfl, hdec .syncWr rfl⟩,
    ⟨rfl, rfl, hdec (.read 0x1000#32 1#32) rfl⟩, ⟨rfl, rfl, hdec (.write 0x2000#32 5#32) rfl⟩,
    ⟨rfl, rfl, hdec (.ctrlGet 0x3000#32) rfl⟩, ⟨rfl, rfl, hdec (.ctrlOther 2#32 0#32) rfl⟩, rfl, rfl⟩

/-! ### The arithmetic of a header's number (R90, R97) -/

theorem op_toNat (h : Header) : h.op.toNat = h.toNat / 4096 := by
  have hlt : h.toNat < 65536 := h.isLt
  simp only [Header.op, BitVec.extractLsb'_toNat, Nat.shiftRight_eq_div_pow]
  omega

theorem rsv_toNat (h : Header) : h.rsv.toNat = h.toNat / 2048 % 2 := by
  simp [Header.rsv, Nat.shiftRight_eq_div_pow]

theorem idx_toNat (h : Header) : h.idx.toNat = h.toNat / 256 % 8 := by
  simp [Header.idx, Nat.shiftRight_eq_div_pow]

theorem data_toNat (h : Header) : h.data.toNat = h.toNat % 256 := by
  simp [Header.data]

/-- The header's number names no operation. -/
def OpNumberReserved (h : Header) : Prop := h.toNat / 4096 = 0 ∨ 13 ≤ h.toNat / 4096

/-- The header's number sets a field its OP does not use. -/
def FieldNumberSet (h : Header) : Prop :=
  h.toNat / 2048 % 2 = 1 ∨ (h.toNat / 256 % 8 ≠ 0 ∧ h.toNat / 4096 ≠ 1 ∧ h.toNat / 4096 ≠ 2) ∨
    (h.toNat % 256 ≠ 0 ∧ h.toNat / 4096 ≠ 2 ∧ h.toNat / 4096 ≠ 3)

theorem opReserved_iff (h : Header) : opReserved h.op = true ↔ OpNumberReserved h := by
  rw [OpNumberReserved, ← op_toNat, opReserved, Bool.or_eq_true, beq_iff_eq, decide_eq_true_iff,
    BitVec.toNat_eq, BitVec.le_def]
  rfl

theorem reservedFieldSet_iff (h : Header) : h.reservedFieldSet = true ↔ FieldNumberSet h := by
  rw [FieldNumberSet, ← op_toNat, ← rsv_toNat, ← idx_toNat, ← data_toNat]
  have hr : h.rsv.toNat < 2 := h.rsv.isLt
  simp only [Header.reservedFieldSet, opUsesIdx, opUsesData, Bool.or_eq_true, Bool.and_eq_true, bne_iff_ne,
    Bool.not_eq_true', Bool.or_eq_false_iff, beq_eq_false_iff_ne, ne_eq, BitVec.toNat_eq, BitVec.toNat_ofNat]
  omega

/-- The refusals of a header, by its number, in the order of R97. -/
theorem decode_error_iff (h : Header) (tail : List Byte) :
    (decode (headerBytes h ++ tail) = .error .reservedOp ↔ OpNumberReserved h) ∧
    (decode (headerBytes h ++ tail) = .error .reservedField ↔ ¬OpNumberReserved h ∧ FieldNumberSet h) := by
  rw [← opReserved_iff, ← reservedFieldSet_iff]
  cases ho : opReserved h.op with
  | true => simp [decode_reservedOp ho]
  | false =>
    cases hf : h.reservedFieldSet with
    | true => simp [decode_reservedField ho hf]
    | false =>
      cases hl : opHasOperands h.op with
      | false => simp [decode_short ho hf hl]
      | true =>
        by_cases ht : tail.length < 8
        · simp [decode_truncated ho hf hl ht]
        · obtain ⟨w1, w2, rest, rfl⟩ := exists_operands (Nat.le_of_not_lt ht)
          simp [decode_long ho hf hl]

/-- Settles O3. -/
theorem headerRefusalsInOrder : Obligations.HeaderRefusalsInOrder := by
  intro b0 b1 rest
  rw [cons_cons_eq_headerBytes]
  exact decode_error_iff (joinHeader b0 b1) rest

theorem opHasOperands_iff (h : Header) :
    opHasOperands h.op = true ↔ h.toNat / 4096 = 9 ∨ h.toNat / 4096 = 10 ∨ h.toNat / 4096 = 11 := by
  simp [← op_toNat, opHasOperands, BitVec.toNat_eq, or_assoc]

/-- A stream has one header. -/
theorem headerBytes_append_inj {h h' : Header} {t t' : List Byte}
    (heq : headerBytes h ++ t = headerBytes h' ++ t') : h = h' ∧ t = t' := by
  obtain ⟨hh, ht⟩ := List.append_inj heq rfl
  simp only [headerBytes, List.cons.injEq, and_true] at hh
  obtain ⟨h0, h1⟩ := hh
  exact ⟨by rw [← joinHeader_bytes h, h0, h1, joinHeader_bytes], ht⟩

/-- Settles O5: an accepted stream is its header, the operand words its OP has, and the rest. -/
theorem lengthFollowsFromOp : Obligations.LengthFollowsFromOp := by
  intro b0 b1 tail rest i hd
  have hops := opHasOperands_iff (joinHeader b0 b1)
  rw [cons_cons_eq_headerBytes] at hd ⊢
  dsimp only
  generalize joinHeader b0 b1 = h at hd hops ⊢
  generalize hbytes : headerBytes h ++ tail = bytes at hd ⊢
  cases decode_accepted hd with
  | short h' _ _ _ hs =>
    obtain ⟨rfl, rfl⟩ := headerBytes_append_inj hbytes
    rw [if_neg (fun hc => by simp [hops.mpr hc] at hs)]
    simp [headerBytes]
  | long h' w1 w2 _ _ _ hl =>
    obtain ⟨rfl, rfl⟩ := headerBytes_append_inj hbytes
    rw [if_pos (hops.mp hl)]
    simp [headerBytes, wordBytes]

/-! ### The rows of the opcode table (R93) -/

/-- Headers with the same fields are the same. -/
theorem header_eq_iff {h h' : Header} :
    h = h' ↔ h.op = h'.op ∧ h.rsv = h'.rsv ∧ h.idx = h'.idx ∧ h.data = h'.data := by
  refine ⟨fun h => h ▸ ⟨rfl, rfl, rfl, rfl⟩, fun ⟨ho, hr, hi, hd⟩ => BitVec.eq_of_toNat_eq ?_⟩
  rw [BitVec.toNat_eq, op_toNat, op_toNat] at ho
  rw [BitVec.toNat_eq, rsv_toNat, rsv_toNat] at hr
  rw [BitVec.toNat_eq, idx_toNat, idx_toNat] at hi
  rw [BitVec.toNat_eq, data_toNat, data_toNat] at hd
  omega

theorem masked_eq_iff (h m p : Header) : h &&& m = p ↔
    h.op &&& m.op = p.op ∧ h.rsv &&& m.rsv = p.rsv ∧ h.idx &&& m.idx = p.idx ∧ h.data &&& m.data = p.data := by
  simp only [header_eq_iff, Header.op, Header.rsv, Header.idx, Header.data, BitVec.extractLsb'_and]

/-- Each row fixes the OP, and 0 in the reserved bit and in the fields its OP does not use. -/
theorem opcodeRow_fields : ∀ r ∈ opcodeRows,
    (opReserved r.pattern.op = false ∧ r.mask.op = BitVec.allOnes 4 ∧ r.mask.rsv = BitVec.allOnes 1 ∧
      r.mask.idx = (if opUsesIdx r.pattern.op then 0#3 else BitVec.allOnes 3) ∧
      r.mask.data = if opUsesData r.pattern.op then 0#8 else BitVec.allOnes 8) ∧
    r.pattern.rsv = 0#1 ∧ r.pattern.idx = 0#3 ∧ r.pattern.data = 0#8 := by decide

/-- The rows' OP values are all different. -/
theorem opcodeRows_op_injective : ∀ r ∈ opcodeRows, ∀ r' ∈ opcodeRows, r.pattern.op = r'.pattern.op → r = r' := by
  decide

/-- Every OP value that names an operation has its row. -/
theorem exists_opcodeRow : ∀ op : BitVec 4, opReserved op = false → ∃ r ∈ opcodeRows, r.pattern.op = op := by
  decide

/-- A field masked where it is unused is 0 exactly if it is not reserved and set. -/
theorem masked_field_iff {w : Nat} (used : Bool) (x : BitVec w) :
    x &&& (if used then 0#w else BitVec.allOnes w) = 0#w ↔ (x != 0#w && !used) = false := by
  cases used <;> simp

/-- A header belongs to a row exactly if it has the row's OP and sets no reserved field. -/
theorem opcodeRow_admits_iff {r : TableRow} (hr : r ∈ opcodeRows) (h : Header) :
    r.admits h = true ↔ h.op = r.pattern.op ∧ h.reservedFieldSet = false := by
  obtain ⟨⟨-, hmo, hmr, hmi, hmd⟩, hpr, hpi, hpd⟩ := opcodeRow_fields r hr
  rw [TableRow.admits, beq_iff_eq, masked_eq_iff, hmo, hmr, hmi, hmd, hpr, hpi, hpd, BitVec.and_allOnes,
    BitVec.and_allOnes]
  refine and_congr_right fun ho => ?_
  rw [← ho, masked_field_iff, masked_field_iff, Header.reservedFieldSet, Bool.or_eq_false_iff,
    Bool.or_eq_false_iff, bne_eq_false_iff_eq, and_assoc]

theorem accepts_iff (h : Header) {tail : List Byte} (ht : 8 ≤ tail.length) :
    (∃ i rest, decode (headerBytes h ++ tail) = .ok (i, rest)) ↔
      opReserved h.op = false ∧ h.reservedFieldSet = false := by
  constructor
  · rintro ⟨i, rest, hd⟩
    constructor
    · by_contra ho
      rw [decode_reservedOp (by simpa using ho)] at hd
      cases hd
    · by_contra hf
      cases ho : opReserved h.op with
      | true => rw [decode_reservedOp ho] at hd; cases hd
      | false => rw [decode_reservedField ho (by simpa using hf)] at hd; cases hd
  · rintro ⟨ho, hf⟩
    cases hl : opHasOperands h.op with
    | false => exact ⟨_, _, decode_short ho hf hl _⟩
    | true =>
      obtain ⟨w1, w2, rest, rfl⟩ := exists_operands ht
      exact ⟨_, _, decode_long ho hf hl w1 w2 rest⟩

/-- Settles O6: the rows' OP values are those that name operations, each once. -/
theorem acceptedHeadersAreTableRows : Obligations.AcceptedHeadersAreTableRows := by
  intro b0 b1 tail ht
  rw [cons_cons_eq_headerBytes, accepts_iff _ ht]
  refine ⟨⟨fun ⟨ho, hf⟩ => ?_, fun ⟨r, hr, ha⟩ => ?_⟩, fun r hr r' hr' ha ha' => ?_⟩
  · obtain ⟨r, hr, hop⟩ := exists_opcodeRow _ ho
    exact ⟨r, hr, (opcodeRow_admits_iff hr _).mpr ⟨hop.symm, hf⟩⟩
  · obtain ⟨hop, hf⟩ := (opcodeRow_admits_iff hr _).mp ha
    obtain ⟨⟨ho, -⟩, -⟩ := opcodeRow_fields r hr
    exact ⟨hop ▸ ho, hf⟩
  · obtain ⟨hop, -⟩ := (opcodeRow_admits_iff hr _).mp ha
    obtain ⟨hop', -⟩ := (opcodeRow_admits_iff hr' _).mp ha'
    exact opcodeRows_op_injective r hr r' hr' (hop.symm.trans hop')

end Sys2Proof

/-! What a step records (R14, R50, R138, R292): the events and register accesses it appends, each of which is
allowed, and the transmitted-byte counter that goes with them. -/

namespace Sys2Proof.Machine

/-- An event that a step may log: in the assembled block register events are at role registers (R138), and a
completion is one of R292. -/
def EventAllowed (c : Config) : Event → Prop
  | .regrd idx _ => c.wiring = .assembled → idx = c.rbrIndex ∨ idx = c.lsrIndex
  | .regwr idx _ => c.wiring = .assembled → idx = c.thrIndex
  | .done op status count => doneAllowed c op status count = true
  | .pushed _ _ | .popped _ | .popempty | .wake | .irqHandled | .copyin _ _ _ | .copyout _ _ _ => True

/-- An access of AW/8 bytes at the address of a modelled register (R61, R64, R68). -/
def AccessAllowed (c : Config) (a : BusAccess) : Prop :=
  a.width = accessBytes c ∧ ∃ idx, idx < c.nreg ∧ a.addr = regaddr c idx

/-- From `s` to `t` the events `es` and the accesses `as` are appended, all of them allowed, and the configuration
stays. -/
structure StepRecord (s t : State) (es : List Event) (as : List BusAccess) : Prop where
  log : t.log = s.log ++ es
  bus : t.bus = s.bus ++ as
  cfg : t.cfg = s.cfg
  events : ∀ e ∈ es, EventAllowed s.cfg e
  accesses : ∀ a ∈ as, AccessAllowed s.cfg a

/-- A step that records nothing. -/
theorem StepRecord.of_silent {s t : State} (hlog : t.log = s.log) (hbus : t.bus = s.bus) (hcfg : t.cfg = s.cfg) :
    StepRecord s t [] [] :=
  ⟨by simp [hlog], by simp [hbus], hcfg, by simp, by simp⟩

/-- A step that logs events and makes no access. -/
theorem StepRecord.of_events {s t : State} {es : List Event} (hlog : t.log = s.log ++ es) (hbus : t.bus = s.bus)
    (hcfg : t.cfg = s.cfg) (hes : ∀ e ∈ es, EventAllowed s.cfg e) : StepRecord s t es [] :=
  ⟨hlog, by simp [hbus], hcfg, hes, by simp⟩

/-- A step that makes one access to a modelled register. -/
theorem StepRecord.of_access {s t : State} {es : List Event} {a : BusAccess} {idx : Nat} (hi : idx < s.cfg.nreg)
    (hlog : t.log = s.log ++ es) (hbus : t.bus = s.bus ++ [a]) (hcfg : t.cfg = s.cfg)
    (hes : ∀ e ∈ es, EventAllowed s.cfg e) (ha : a.width = accessBytes s.cfg) (haddr : a.addr = regaddr s.cfg idx) :
    StepRecord s t es [a] :=
  ⟨hlog, hbus, hcfg, hes, by simpa using ⟨ha, idx, hi, haddr⟩⟩

theorem stepForm_record {s t : State} (hf : StepForm s t) : ∃ es as, StepRecord s t es as := by
  have hunits : s.cfg.wiring = .units → ¬s.cfg.wiring = .assembled := fun hu => by simp [hu]
  cases hf with
  | refused | unchanged | held | popFault | syncWr | syncRw | rxIrq | read | write | chunkSent | nextByte =>
    exact ⟨_, _, .of_silent rfl rfl rfl⟩
  | push b => exact ⟨_, _, .of_events rfl rfl rfl (by simp [EventAllowed])⟩
  | rxcPush =>
    exact ⟨_, _, .of_events (List.append_assoc s.log [_] [_, _]) rfl rfl (by simp [EventAllowed])⟩
  | popEmpty | pop | rdPop | staged => exact ⟨_, _, .of_events rfl rfl rfl (by simp [EventAllowed])⟩
  | cancel | openDev | ctrlReset | ctrlOther | stageDone | stageFailed =>
    exact ⟨_, _, .of_events rfl rfl rfl (by simp [EventAllowed, doneAllowed])⟩
  | ctrlGet _ ok | rdCopy ok =>
    exact ⟨_, _, .of_events rfl rfl rfl (by cases ok <;> simp [EventAllowed, doneAllowed])⟩
  | regRead _ _ hu hi | regWrite _ _ hu hi =>
    exact ⟨_, _, .of_access hi rfl rfl rfl (by simp [EventAllowed, hu]) rfl rfl⟩
  | rxcRead _ _ hi | pollReady _ _ hi | pollBusy _ _ hi | pollCounted _ _ _ hi | putLf _ hi | put _ hi =>
    exact ⟨_, _, .of_access hi rfl rfl rfl (by simp [EventAllowed]) rfl rfl⟩
  | pollTimeout _ _ _ hi _ hb =>
    exact ⟨_, _, .of_access hi (List.append_assoc s.log [_] [_]) rfl rfl
      (by simp [EventAllowed, doneAllowed, hb]) rfl rfl⟩

/-- What a step prepares before it acts records nothing. -/
theorem step_record {s t : State} (h : step s = .next t) : ∃ es as, StepRecord s t es as := by
  obtain ⟨-, s1, ⟨ls, hs, ans, k, rfl⟩, hf⟩ := step_form h
  obtain ⟨es, as, hlog, hbus, hcfg, hes, has⟩ := stepForm_record hf
  exact ⟨es, as, hlog, hbus, hcfg, hes, has⟩

/-- The events of a step are those its record names. -/
theorem step_events_allowed {s t : State} {es : List Event} (h : step s = .next t) (hes : t.log = s.log ++ es) :
    ∀ e ∈ es, EventAllowed s.cfg e := by
  obtain ⟨es', as, hrec⟩ := step_record h
  obtain rfl : es = es' := List.append_cancel_left (hes.symm.trans hrec.log)
  exact hrec.events

/-- Settles O12. -/
theorem logOnlyGrows : Obligations.LogOnlyGrows := fun _ _ h =>
  have ⟨es, as, hrec⟩ := step_record h
  ⟨⟨es, hrec.log⟩, ⟨as, hrec.bus⟩, hrec.cfg⟩

/-- Settles O17: the accesses appended are allowed under the same configuration. -/
theorem accessesStayInWindow : Obligations.AccessesStayInWindow := by
  intro s t h hstep a ha
  obtain ⟨es, as, hrec⟩ := step_record hstep
  rw [hrec.cfg]
  rw [hrec.bus, List.mem_append] at ha
  exact ha.elim (h a) (hrec.accesses a)

/-- Settles O18: the register events appended are allowed in the assembled block. -/
theorem enginesUseRoleRegisters : Obligations.EnginesUseRoleRegisters := fun _ _ _ hw h hes =>
  have hallowed := step_events_allowed h hes
  ⟨fun _ _ hmem => hallowed _ hmem hw, fun _ _ hmem => hallowed _ hmem hw⟩

/-- Settles O59: the completions appended are allowed under the same configuration. -/
theorem completionPairingsKept : Obligations.CompletionPairingsKept := by
  intro s t h hstep op status count hmem
  obtain ⟨es, as, hrec⟩ := step_record hstep
  rw [hrec.cfg]
  rw [hrec.log, List.mem_append] at hmem
  exact hmem.elim (h op status count) (hrec.events _)

/-! ### The transmitted-byte counter (R236) -/

/-- The counter follows the bytes transmitted among the events `es`, or is cleared by CTRL_RESET. -/
def CounterFollows (s t : State) (es : List Event) : Prop :=
  t.txcount = (s.txcount + (txs s.cfg es).length) % 2 ^ s.cfg.cw ∨ (t.txcount = 0 ∧ es = [.done .ctrlOp .ok 0])

/-- Transmitting nothing and leaving the counter alone. -/
theorem counterFollows_of_kept {s t : State} {es : List Event} (hlt : s.txcount < 2 ^ s.cfg.cw)
    (htx : txs s.cfg es = []) (hc : t.txcount = s.txcount) : CounterFollows s t es :=
  .inl (by rw [htx, hc]; exact (Nat.mod_eq_of_lt hlt).symm)

/-- TX.PUT transmits one byte and counts one. -/
theorem counterFollows_of_put {s t : State} (b : Byte) (hc : t.txcount = wrap s.cfg.cw (s.txcount + 1)) :
    CounterFollows s t [.regwr s.cfg.thrIndex (regWriteWord b)] :=
  .inl (by rw [txs_thr]; exact hc)

theorem stepForm_counterFollows {s t : State} (hf : StepForm s t) (hw : s.cfg.wiring = .assembled)
    (hlt : s.txcount < 2 ^ s.cfg.cw) : ∃ es, t.log = s.log ++ es ∧ CounterFollows s t es := by
  cases hf with
  | refused | unchanged | held | popFault | syncWr | syncRw | rxIrq | read | write | chunkSent | nextByte =>
    exact ⟨[], (List.append_nil _).symm, counterFollows_of_kept hlt rfl rfl⟩
  | regRead _ _ hu | regWrite _ _ hu | pop _ hu => rw [hw] at hu; cases hu
  | push _ hu => rw [hw] at hu; cases hu
  | ctrlReset => exact ⟨_, rfl, .inr ⟨rfl, rfl⟩⟩
  | putLf | put => exact ⟨_, rfl, counterFollows_of_put _ rfl⟩
  | popEmpty | cancel | openDev | ctrlGet | ctrlOther | rxcRead | rdPop | rdCopy | stageDone | stageFailed
  | staged | pollReady | pollBusy | pollCounted =>
    exact ⟨_, rfl, counterFollows_of_kept hlt rfl rfl⟩
  | rxcPush => exact ⟨_, List.append_assoc s.log [_] [_, _], counterFollows_of_kept hlt rfl rfl⟩
  | pollTimeout => exact ⟨_, List.append_assoc s.log [_] [_], counterFollows_of_kept hlt rfl rfl⟩

/-- Settles O46: every form of a step has the counter follow its events. -/
theorem counterCountsTransmissions : Obligations.CounterCountsTransmissions := by
  intro s t es hw hlt h hes
  obtain ⟨-, s1, ⟨ls, hs, ans, k, rfl⟩, hf⟩ := step_form h
  obtain ⟨es', hlog, hfollows⟩ := stepForm_counterFollows hf hw hlt
  obtain rfl : es = es' := List.append_cancel_left (hes.symm.trans hlog)
  exact hfollows

/-! ### Refused states (R36, R297) -/

theorem takeStep_next {an : Annotation} {en ann : Bool} {o : Host.Outcome State Fault Refusal} (s : State)
    (ho : ∃ t, o = .next t) : ∃ t, takeStep an en ann o s = .next t := by
  unfold takeStep
  split
  · exact ⟨_, rfl⟩
  · split
    · exact ⟨_, rfl⟩
    · exact ho

/-- Taking a line gives a next state, whatever it asks for. -/
theorem runAction_next (l : Line) (s : State) : ∃ t, runAction l s = .next t := by
  unfold runAction
  split
  · unfold runPresent
    split
    · exact ⟨_, rfl⟩
    · split
      · exact takeStep_next s ⟨_, exec_eq_next _ _⟩
      · exact ⟨_, rfl⟩
  · exact takeStep_next s ⟨_, rfl⟩
  · unfold runResume
    split
    · exact ⟨_, rfl⟩
    · exact takeStep_next s ⟨_, exec_eq_next _ _⟩

theorem step_next {s : State} (hr : s.refused = none) : ∃ t, step s = .next t := by
  cases hs : s.sched with
  | nil => simpa [step, nextStep, hr, hs] using runAction_next (freeLine s) _
  | cons l ls => exact step_line hr hs ▸ runAction_next l _

theorem step_faults {s t : State} (h : step s = .next t) : ∃ fs, t.faults = s.faults ++ fs := by
  obtain ⟨-, s1, ⟨ls, hs, ans, k, rfl⟩, hf⟩ := step_form h
  rcases stepForm_faults hf with hsame | ⟨-, -, hfault⟩
  · exact ⟨[], hsame.trans (List.append_nil _).symm⟩
  · exact ⟨_, hfault⟩

/-- Settles O11: a refused state answers its reason; any other takes a line, which gives a next state. -/
theorem refusedStateHasNoStep : Obligations.RefusedStateHasNoStep := by
  refine ⟨rfl, rfl, fun s => ⟨fun _ => rfl, fun _ => rfl, fun r hr => by simp [step, hr], fun hr => ?_⟩⟩
  obtain ⟨t, ht⟩ := step_next hr
  exact ⟨t, ht, step_faults ht⟩

end Sys2Proof.Machine

/-! Launch (R52, R320): the checks of a configuration, and the invariants at the launch of an accepted one. -/

namespace Sys2Proof.Machine

/-- The sizes R320 asks of a configuration. -/
def SizesOk (c : Config) : Prop := (∃ k, 1 ≤ k ∧ c.n = 2 ^ k) ∧ 2 ≤ c.s ∧ c.spinBound ≠ some 0

theorem goodConfig_iff (c : Config) : GoodConfig c ↔ SizesOk c ∧ BaseAligned c := by
  simp only [GoodConfig, SizesOk, and_assoc]

theorem configSizesOk_iff (c : Config) : configSizesOk c = true ↔ SizesOk c := by
  have hsize : (2 ≤ c.n ∧ 2 ^ c.p = c.n) ↔ ∃ k, 1 ≤ k ∧ c.n = 2 ^ k := by
    constructor
    · rintro ⟨hn, hp⟩
      refine ⟨c.p, Nat.one_le_iff_ne_zero.mpr fun h0 => ?_, hp.symm⟩
      rw [h0] at hp
      omega
    · rintro ⟨k, hk, hn⟩
      rw [Config.p, hn, Nat.log2_two_pow]
      exact ⟨by simpa using Nat.pow_le_pow_right (show 0 < 2 by decide) hk, rfl⟩
  simp only [configSizesOk, SizesOk, ← hsize, Bool.and_eq_true, decide_eq_true_iff, beq_iff_eq, bne_iff_ne, and_assoc]

/-- The launch refuses by the first check that fails, the sizes before the base. -/
theorem launchRefusal_cases (c : Config) :
    (¬SizesOk c ∧ State.launchRefusal c = some .badConfig) ∨
    (SizesOk c ∧ c.base % c.stride ≠ 0 ∧ State.launchRefusal c = some .misalignedBase) ∨
    (SizesOk c ∧ c.base % c.stride = 0 ∧ State.launchRefusal c = none) := by
  rw [← configSizesOk_iff]
  by_cases hs : configSizesOk c = true
  · by_cases hb : c.base % c.stride = 0
    · exact .inr (.inr ⟨hs, hb, by simp [State.launchRefusal, hs, configBaseAligned, hb]⟩)
    · exact .inr (.inl ⟨hs, hb, by simp [State.launchRefusal, hs, configBaseAligned, hb]⟩)
  · exact .inl ⟨hs, by simp [State.launchRefusal, hs]⟩

/-- Settles O13: every field is launched at its reset value, and the three cases of the check exclude each
other. -/
theorem launchResetsAndChecks : Obligations.LaunchResetsAndChecks := by
  intro c
  have hstages : ∀ g ∈ List.replicate c.s 0, g = 0 := fun g => List.eq_of_mem_replicate
  refine ⟨⟨fun _ => rfl, rfl, rfl, List.length_replicate, hstages, rfl, rfl, rfl, rfl, List.length_replicate,
    hstages, rfl, rfl, rfl, rfl, rfl, rfl, rfl, rfl, rfl, rfl, fun _ => rfl, rfl, rfl, rfl, rfl, rfl, rfl, rfl, rfl⟩,
    ?_⟩
  change (¬SizesOk c → State.launchRefusal c = _) ∧ (SizesOk c → _ → State.launchRefusal c = _) ∧
    (SizesOk c → _ → State.launchRefusal c = _)
  rcases launchRefusal_cases c with ⟨hs, hr⟩ | ⟨hs, hb, hr⟩ | ⟨hs, hb, hr⟩
  · exact ⟨fun _ => hr, fun h => absurd h hs, fun h => absurd h hs⟩
  · exact ⟨fun h => absurd hs h, fun _ _ => hr, fun _ h => absurd h hb⟩
  · exact ⟨fun h => absurd hs h, fun _ h => absurd hb h, fun _ _ => hr⟩

/-! ### The invariants at launch -/

section
variable {c : Config}

theorem launch_engineInv (c : Config) : EngineInv (State.launch c) := by
  refine ⟨gray_zero.symm, gray_zero.symm, Nat.le_refl _, Nat.zero_le _, Nat.le_refl _, ?_, ?_, ?_⟩ <;> simp [State.launch]

theorem launch_pointersInRange (hc : GoodConfig c) : PointersInRange (State.launch c) := by
  obtain ⟨hn, -⟩ := goodConfig_size hc
  have hpos : 0 < c.n := by omega
  have hstages : ∀ g ∈ List.replicate c.s 0, g < c.n := fun g hg => List.eq_of_mem_replicate hg ▸ hpos
  exact ⟨hc, hpos, hpos, List.length_replicate, List.length_replicate, hstages, hstages⟩

/-- Nothing is pushed and nothing popped, and every stage holds the count 0. -/
theorem launch_fifoIntact (c : Config) : FifoIntact (State.launch c) := by
  have hzero : List.replicate c.s 0 = (List.replicate c.s 0).map (grayOfCount c.n) := by
    rw [List.map_replicate, grayOfCount, Nat.zero_mod, gray_zero]
  have hmod : 0 = 0 % c.n := (Nat.zero_mod _).symm
  refine fun _ => ⟨List.replicate c.s 0, List.replicate c.s 0, hzero, hzero, hmod, hmod, ?_, fun k _ => Nat.zero_le _,
    rfl, fun k _ hk => absurd hk (Nat.not_lt_zero k)⟩
  have hall : 0 :: List.replicate c.s 0 ++ 0 :: List.replicate c.s 0 = List.replicate (c.s + 1 + (c.s + 1)) 0 := by
    rw [← List.replicate_succ, List.replicate_append_replicate]
  show List.Pairwise _ (0 :: List.replicate c.s 0 ++ 0 :: List.replicate c.s 0)
  rw [hall, List.pairwise_replicate]
  exact .inr (Nat.le_refl 0)

theorem launch_transmitFaithful (c : Config) : TransmitFaithful (State.launch c) := fun _ _ =>
  ⟨rfl, fun _ => rfl, fun i _ hi => absurd hi (Nat.not_lt_zero i)⟩

theorem launch_valuesInWidth (c : Config) : ValuesInWidth (State.launch c) :=
  ⟨Nat.two_pow_pos _, Nat.two_pow_pos _, Nat.two_pow_pos _, Nat.two_pow_pos _, Nat.two_pow_pos _,
    Nat.two_pow_pos _, Nat.two_pow_pos _⟩

/-- At launch both synchronizers show the gray code 0. -/
theorem launch_syncLast (c : Config) : wsyncLast (State.launch c) = 0 ∧ rsyncLast (State.launch c) = 0 := by
  have h : syncLast c.s (List.replicate c.s 0) = 0 := by
    simp only [syncLast, List.getD_eq_getElem?_getD, List.getElem?_replicate]
    split <;> rfl
  exact ⟨h, h⟩

theorem launch_quiescent (hc : GoodConfig c) : Quiescent (State.launch c) := by
  obtain ⟨hw, hr⟩ := launch_syncLast c
  obtain ⟨hs, hb⟩ := (goodConfig_iff c).mp hc
  refine ⟨rfl, rfl, rfl, hw, hr, ?_, rfl⟩
  show State.launchRefusal c = none
  simpa [State.launchRefusal, configBaseAligned, (configSizesOk_iff c).mpr hs, BaseAligned] using hb

end

/-- Settles O57: the signals of R166 are those of a FIFO with nothing pushed. -/
theorem launchMeetsInvariants : Obligations.LaunchMeetsInvariants := by
  intro c hc
  have hrange := launch_pointersInRange hc
  have hintact := launch_fifoIntact c
  obtain ⟨hn, -⟩ := goodConfig_size hc
  obtain ⟨-, hrd, -, hfull, -⟩ := fifoSignalsAgree _ hrange gray_zero.symm
  have hempty : emptyR (State.launch c) = true := (emptyAndFullNeverLate _ hrange gray_zero.symm hintact rfl).1 rfl
  obtain ⟨w, r, hv, -⟩ := fifoIntact_views hrange hintact rfl
  have hwr : wrCount (State.launch c) = 0 := (hv.wrCount_eq hc).trans (Nat.zero_sub r)
  have hnotfull : fullW (State.launch c) = false := by
    rw [Bool.eq_false_iff, ne_eq, hfull, hwr]
    show 0 ≠ c.n - 1
    omega
  exact ⟨launch_engineInv c, hrange, ⟨rfl, by simp [State.launch], rfl, by simp [State.launch]⟩,
    launch_valuesInWidth c, fun _ => nofun, hintact, launch_transmitFaithful c, fun _ _ => rfl,
    fun _ _ _ => nofun, launch_quiescent hc, hempty, hnotfull, hrd.mp hempty, hwr, fun _ => rfl⟩

end Sys2Proof.Machine

/-! The operations one by one (40_regmux.md to 44_control.md): what each completes with, and what it leaves
unchanged. -/

namespace Sys2Proof.Machine

/-! ### The register mux -/

/-- Settles O14: the wrap subtracts a multiple of the stride from a multiple of it. -/
theorem registerAddressAligned : Obligations.RegisterAddressAligned := by
  refine ⟨fun c idx => ⟨rfl, fun hbase hdvd => ?_⟩, by decide⟩
  have hsum : c.stride ∣ c.base + idx * c.stride :=
    Nat.dvd_add (Nat.dvd_of_mod_eq_zero hbase) (Nat.dvd_mul_left _ _)
  exact Nat.mod_eq_zero_of_dvd ((Nat.dvd_mod_iff hdvd).mpr hsum)

/-- An access leaves everything but the log and the trace as it was. -/
theorem afterRead_frame (idx v : Nat) (s : State) :
    wView (afterRead idx v s) = wView s ∧ rdView (afterRead idx v s) = rdView s ∧
      txView (afterRead idx v s) = txView s ∧ SameRest s (afterRead idx v s) :=
  ⟨rfl, rfl, rfl, rfl, rfl, rfl, rfl⟩

theorem afterWrite_frame (idx : Nat) (b : Byte) (s : State) :
    wView (afterWrite idx b s) = wView s ∧ rdView (afterWrite idx b s) = rdView s ∧
      txView (afterWrite idx b s) = txView s ∧ SameRest s (afterWrite idx b s) :=
  ⟨rfl, rfl, rfl, rfl, rfl, rfl, rfl⟩

/-- Settles O15: the word logged is the one drawn. -/
theorem registerReadLogged : Obligations.RegisterReadLogged := by
  intro idx s
  rcases regRead_cases idx.toNat s with ⟨hge, hq⟩ | ⟨hlt, hq⟩
  · refine ⟨fun h => absurd h (Nat.not_lt.mpr hge), fun _ => ?_⟩
    exact congrArg (fun p : State × Option Nat => Host.Outcome.next p.1) hq
  · refine ⟨fun _ => ?_, fun h => absurd hlt (Nat.not_lt.mpr h)⟩
    refine ⟨drawWord (regaddr s.cfg idx.toNat) s, afterRead idx.toNat _ s,
      congrArg (fun p : State × Option Nat => Host.Outcome.next p.1) hq, drawWord_lt _ s, rfl, rfl,
      fun w hw => drawWord_answered _ hw, afterRead_frame ..⟩

/-- Settles O16. -/
theorem registerWriteLogged : Obligations.RegisterWriteLogged := by
  intro idx b s
  rcases execNext_regWr idx b s with ⟨hge, hq⟩ | ⟨hlt, hq⟩
  · exact ⟨fun h => absurd h (Nat.not_lt.mpr hge), fun _ => (exec_eq_next _ s).trans (congrArg _ hq)⟩
  · exact ⟨fun _ => ⟨_, (exec_eq_next _ s).trans (congrArg _ hq), rfl, rfl, afterWrite_frame ..⟩,
      fun h => absurd hlt (Nat.not_lt.mpr h)⟩

/-! ### The FIFO -/

/-- Settles O20. -/
theorem pushWritesAndAdvances : Obligations.PushWritesAndAdvances := fun b s =>
  ⟨pushByte b s, wasFull s, rfl, beq_iff_eq, fun i => memory_read_write s.mem s.wptr i b, rfl, rfl, rfl, rfl, rfl,
    rfl, rfl, rfl, rfl, rfl, ⟨rfl, rfl, rfl, rfl⟩, rfl⟩

theorem emptyR_eq_true {s : State} : emptyR s = true ↔ s.rgray = s.wsync.getD (s.cfg.s - 1) 0 := beq_iff_eq

theorem popSource_of_noOverflow {s : State} (h : s.ovfFlag = false) : popSource s = Memory.read s.mem s.rptr := by
  simp [popSource, h]

theorem popSource_of_overflow {s : State} (h : s.ovfFlag = true) : popSource s = some (drawByte s) := by
  simp [popSource, h]

/-- A POP of a FIFO seen non-empty takes the byte there is, or records the fault. -/
theorem exec_pop {s : State} (he : emptyR s = false) :
    (∀ b, popSource s = some b → exec .pop s = .next (afterPop b s)) ∧
    (popSource s = none → exec .pop s = .next (recordFault .unwrittenSlot s)) := by
  rw [exec_eq_next]
  rcases execNext_pop s with ⟨he', -⟩ | ⟨-, hn, hq⟩ | ⟨b, -, hb, hq⟩
  · rw [he] at he'; cases he'
  · exact ⟨fun b hb => absurd (hn.symm.trans hb) (by simp), fun _ => congrArg _ hq⟩
  · refine ⟨fun b' hb' => ?_, fun hn => absurd (hb.symm.trans hn) (by simp)⟩
    obtain rfl : b = b' := Option.some.inj (hb.symm.trans hb')
    exact congrArg _ hq

/-- Settles O21. -/
theorem popReturnsByteOrEmpty : Obligations.PopReturnsByteOrEmpty := by
  intro s
  refine ⟨fun hg => ?_, fun hg => ?_⟩
  · rcases execNext_pop s with ⟨-, hq⟩ | ⟨he, -⟩ | ⟨_, he, -⟩
    · exact (exec_eq_next .pop s).trans (congrArg _ hq)
    · rw [emptyR_eq_true.mpr hg] at he; cases he
    · rw [emptyR_eq_true.mpr hg] at he; cases he
  · have he : emptyR s = false := by rwa [Bool.eq_false_iff, ne_eq, emptyR_eq_true]
    obtain ⟨htake, hfault⟩ := exec_pop he
    have took : ∀ b, popSource s = some b → ∃ t, exec .pop s = .next t ∧
        t.rptr = (s.rptr + 1) % s.cfg.n ∧ t.rgray = gray t.rptr ∧ t.log = s.log ++ [.popped b] ∧
        t.wsync = s.wsync ∧ t.rdState = s.rdState ∧ t.rdByte = s.rdByte ∧ t.rdDst = s.rdDst ∧
        t.rdSize = s.rdSize ∧ wView t = wView s ∧ txView t = txView s ∧ SameRest s t ∧ t.bus = s.bus := fun b hb =>
      ⟨afterPop b s, htake b hb, rfl, rfl, rfl, rfl, rfl, rfl, rfl, rfl, rfl, rfl, ⟨rfl, rfl, rfl, rfl⟩, rfl⟩
    refine ⟨fun hovf b hb => took b ?_, fun hovf => ⟨drawByte s, took _ ?_, fun x hx => drawByte_answered hx⟩,
      fun hovf hn => hfault ?_⟩
    · rw [popSource_of_noOverflow hovf, hb]
    · rw [popSource_of_overflow hovf]
    · rw [popSource_of_noOverflow hovf, hn]

/-- Stage `i` of a synchronizer after an edge. -/
theorem syncShift_getElem? {stages v i : Nat} {old : List Nat} (hi : i < stages) :
    (syncShift stages v old)[i]? = if i = 0 then some v else old[i - 1]? := by
  rw [syncShift, List.getElem?_take_of_lt hi]
  cases i <;> rfl

/-- Settles O22. -/
theorem clockEdgeShiftsSynchronizer : Obligations.ClockEdgeShiftsSynchronizer := by
  intro s hs hw hr
  have hstage : ∀ v old, (syncShift s.cfg.s v old)[0]? = some v ∧
      ∀ i, 1 ≤ i → i < s.cfg.s → (syncShift s.cfg.s v old)[i]? = old[i - 1]? := fun v old =>
    ⟨by rw [syncShift_getElem? hs, if_pos rfl], fun i hi hlt => by rw [syncShift_getElem? hlt, if_neg (by omega)]⟩
  exact ⟨⟨_, rfl, syncShift_length hw, hstage _ _⟩, _, rfl, syncShift_length hr, hstage _ _⟩

/-! ### The receive path -/

/-- Settles O31. -/
theorem interruptAcceptedWhenIdle : Obligations.InterruptAcceptedWhenIdle := by
  intro s
  rw [exec_eq_next]
  rcases execNext_rxIrq s with ⟨h, hq⟩ | ⟨h, hq⟩ <;> rw [hq]
  · exact ⟨fun _ => rfl, fun hn => absurd h hn⟩
  · exact ⟨fun hi => absurd hi h, fun _ => rfl⟩

/-- RXC.READ of a modelled register, with the word it draws. -/
theorem rxcRead_of_modelled {s : State} (hi : s.cfg.rbrIndex < s.cfg.nreg) {w : Nat} (ha : s.answer = some (.word w)) (hw : w < 2 ^ s.cfg.aw) :
    rxcRead s = { afterRead s.cfg.rbrIndex w s with rxcByte := some (dataLane w), rxcState := .push } := by
  unfold rxcRead
  rcases regRead_cases s.cfg.rbrIndex s with ⟨hge, -⟩ | ⟨-, hq⟩
  · omega
  · rw [hq, drawWord_answered _ ha, wrap_of_lt hw]
    rfl

/-- Settles O32. -/
theorem captureKeepsLowByte : Obligations.CaptureKeepsLowByte := by
  intro s w hi ha hw
  have hstep : engineStep .rxcRead s = _ := rxcRead_of_modelled hi ha hw
  dsimp only
  rw [hstep]
  exact ⟨rfl, rfl, rfl, rfl, rfl, rfl, rfl, rfl, rfl, rfl, rfl, rfl, rfl, rfl, rfl⟩

/-- Settles O34. -/
theorem readStartsOrHolds : Obligations.ReadStartsOrHolds := by
  intro dst size s
  rw [exec_eq_next]
  rcases execNext_read dst size s with ⟨h, hq⟩ | ⟨h, hq⟩ <;> rw [hq]
  · exact ⟨fun _ => ⟨_, rfl, rfl, rfl, rfl, rfl, rfl, rfl, rfl, rfl, rfl, ⟨rfl, rfl, rfl, rfl⟩, rfl, rfl⟩,
      fun hn => absurd h hn⟩
  · exact ⟨fun hi => absurd hi h, fun _ => rfl⟩

theorem rdPop_enabled_iff {s : State} (hw : s.cfg.wiring = .assembled) :
    engineEnabled .rdPop s = true ↔ s.rdState = .wait ∧ rxAvail s = true := by
  simp [engineEnabled, hw, rxAvail]

/-- RD.POP of a FIFO seen non-empty takes the byte there is. -/
theorem rdPop_of_byte {s : State} {b : Byte} (he : emptyR s = false) (hb : popSource s = some b) :
    rdPop s = { afterPop b s with rdByte := some b, rdState := .copy } := by
  rcases rdPop_cases s with ⟨he', -⟩ | ⟨-, hn, -⟩ | ⟨b', -, hb', hq⟩
  · rw [he] at he'; cases he'
  · rw [hb] at hn; cases hn
  · obtain rfl : b = b' := Option.some.inj (hb.symm.trans hb')
    exact hq

theorem emptyR_of_rxAvail {s : State} (h : rxAvail s = true) : emptyR s = false := by
  simpa [rxAvail] using h

/-- Settles O35. -/
theorem readPopsWhenAvailable : Obligations.ReadPopsWhenAvailable := by
  intro s hw
  have took : engineEnabled .rdPop s = true → ∀ b, popSource s = some b →
      let t := rdPop s
      t.rdByte = some b ∧ t.rdState = .copy ∧ t.rptr = (s.rptr + 1) % s.cfg.n ∧ t.rgray = gray t.rptr ∧
      t.log = s.log ++ [.popped b] ∧ t.rdDst = s.rdDst ∧ t.rdSize = s.rdSize ∧ t.wsync = s.wsync ∧
      wView t = wView s ∧ txView t = txView s ∧ SameRest s t ∧ t.bus = s.bus := by
    intro hen b hb
    obtain ⟨-, havail⟩ := (rdPop_enabled_iff hw).mp hen
    rw [rdPop_of_byte (emptyR_of_rxAvail havail) hb]
    exact ⟨rfl, rfl, rfl, rfl, rfl, rfl, rfl, rfl, rfl, rfl, ⟨rfl, rfl, rfl, rfl⟩, rfl⟩
  refine ⟨rdPop_enabled_iff hw, fun hen hovf b hb => took hen b ?_, fun hen hovf => ⟨drawByte s, took hen _ ?_,
    fun x hx => drawByte_answered hx⟩⟩
  · rw [popSource_of_noOverflow hovf, hb]
  · rw [popSource_of_overflow hovf]

/-- RD.COPY with a byte in hand and an answer. -/
theorem rdCopy_answered {s : State} {b : Byte} {ok : Bool} (hb : s.rdByte = some b) (ha : s.answer = some (.copied ok)) :
    rdCopy s =
      { emit [.copyout s.rdDst [b] ok, .done .readOp (if ok then .ok else .copyFault) (if ok then 1 else 0)] s with
        rdByte := none, rdState := .idle } := by
  obtain ⟨ok', hok, hq⟩ := rdCopy_cases s
  rw [hq, hok, drawCopyOut_answered ha, hb, heldByte_some]

/-- Settles O36. -/
theorem readCopyCompletes : Obligations.ReadCopyCompletes := by
  intro s b ok hb ha
  have hstep : engineStep .rdCopy s = _ := rdCopy_answered hb ha
  dsimp only
  rw [hstep]
  exact ⟨rfl, rfl, rfl, rfl, rfl, rfl, rfl, rfl, rfl, rfl, ⟨rfl, rfl, rfl, rfl⟩, rfl⟩

/-- Settles O38: a POP takes the engine out of `RD_WAIT`, where alone CANCEL acts, and CANCEL out of where alone
RD.POP is enabled. -/
theorem cancelRacesPop : Obligations.CancelRacesPop := by
  intro s b hw hwait havail hovf hb
  have hpop : engineStep .rdPop s = _ :=
    rdPop_of_byte (emptyR_of_rxAvail havail) ((popSource_of_noOverflow hovf).trans hb)
  rw [hpop]
  refine ⟨exec_cancel_of_not_wait (by simp), rfl, _, exec_cancel_of_wait hwait, ?_, havail, hb, rfl, rfl⟩
  simp [engineEnabled]

/-! ### The transmit path -/

/-- Settles O40. -/
theorem writeStartsOrHolds : Obligations.WriteStartsOrHolds := by
  intro src size s
  rw [exec_eq_next]
  rcases execNext_write src size s with ⟨h, hq⟩ | ⟨h, hq⟩ <;> rw [hq]
  · exact ⟨fun _ => ⟨_, rfl, rfl, rfl, rfl, rfl, rfl, rfl, fun _ => rfl, rfl, rfl, rfl, rfl, rfl, rfl,
      ⟨rfl, rfl, rfl, rfl⟩, rfl, rfl⟩, fun hn => absurd h hn⟩
  · exact ⟨fun hi => absurd hi h, fun _ => rfl⟩

/-- Settles O41: the three outcomes of TX.STAGE exclude each other. -/
theorem stageCopiesNextChunk : Obligations.StageCopiesNextChunk := by
  intro s hle
  rw [show engineStep .txStage s = txStage s from rfl]
  rcases txStage_cases s with ⟨heq, hq⟩ | ⟨hne, hd, hq⟩ | ⟨bs, hne, hd, hl, hq⟩
  · exact ⟨fun _ => hq, fun hne => absurd heq hne⟩
  · refine ⟨fun h => absurd h hne, ?_⟩
    rintro _ k addr rfl rfl
    refine ⟨fun _ => hq, fun bytes hb ha => ?_⟩
    rw [show chunkLen s = bytes.length from hb.symm, drawCopyIn_answered ha] at hd
    cases hd
  · refine ⟨fun h => absurd h hne, ?_⟩
    rintro _ k addr rfl rfl
    refine ⟨fun ha => ?_, fun bytes hb ha => ?_⟩
    · rw [drawCopyIn_failed _ ha] at hd
      cases hd
    · rw [show chunkLen s = bytes.length from hb.symm, drawCopyIn_answered ha] at hd
      obtain rfl := Option.some.inj hd
      rw [hq]
      refine ⟨rfl, fun i => ?_, rfl, rfl, rfl, txOff_add_chunkLen_le hle, rfl, rfl, rfl, rfl, rfl, rfl, rfl, rfl,
        rfl, ⟨rfl, rfl, rfl, rfl⟩, rfl⟩
      show Memory.read (Memory.writeAll s.stage 0 bytes) i = _
      rw [memory_read_writeAll, ← hb]
      simp

/-- Settles O42. -/
theorem nextTakesChunkByte : Obligations.NextTakesChunkByte := by
  intro s
  rw [show engineStep .txNext s = txNext s from rfl]
  rcases txNext_cases s with ⟨h, hq⟩ | ⟨b, h, hb, hq⟩
  · exact ⟨fun _ => hq, fun hne => absurd h hne⟩
  · refine ⟨fun he => absurd he h, fun _ b' hb' => ?_⟩
    rw [hb', heldByte_some] at hb
    subst hb
    rw [hq]
    rfl

theorem threSet_iff (c : Config) (v : Nat) : threSet c v = true ↔ v % 256 &&& c.threMask ≠ 0 := by
  simp [threSet, dataLane]

/-- Settles O43: the outcomes of TX.POLL by THRE and the bound. -/
theorem pollWaitsForThre : Obligations.PollWaitsForThre := by
  intro s w hi ha hw hpoll
  rw [show engineStep .txPoll s = txPoll s from rfl]
  have hdraw : drawWord (regaddr s.cfg s.cfg.lsrIndex) s = w := (drawWord_answered _ ha).trans (wrap_of_lt hw)
  rcases txPoll_cases s with ⟨hge, -⟩ | ⟨v, rfl, -, hcases⟩
  · omega
  · rw [hdraw] at hcases
    rcases hcases with ⟨hv, hq⟩ | ⟨hv, hb, hq⟩ | ⟨bound, hv, hb, ⟨hs, hq⟩ | ⟨hs, hq⟩⟩ <;> rw [hq]
    · have hthre := (threSet_iff _ _).mp hv
      exact ⟨fun _ => ⟨rfl, rfl, rfl⟩, fun hn => absurd hthre hn, fun hn => absurd hthre hn, rfl, rfl, rfl, rfl, rfl,
        rfl, rfl, rfl, rfl, rfl, rfl, rfl, rfl, rfl, rfl⟩
    · have hthre : ¬(w % 256 &&& s.cfg.threMask ≠ 0) := by rw [← threSet_iff, hv]; simp
      exact ⟨fun h => absurd h hthre, fun _ _ => ⟨rfl, rfl⟩, fun _ b hb' => absurd (hb.symm.trans hb') (by simp), rfl, rfl,
        rfl, rfl, rfl, rfl, rfl, rfl, rfl, rfl, rfl, rfl, rfl, rfl, rfl⟩
    · have hthre : ¬(w % 256 &&& s.cfg.threMask ≠ 0) := by rw [← threSet_iff, hv]; simp
      refine ⟨fun h => absurd h hthre, fun _ hn => absurd (hb.symm.trans hn) (by simp), fun _ b hb' => ?_, rfl, rfl, rfl, rfl,
        rfl, rfl, rfl, rfl, rfl, rfl, rfl, rfl, rfl, rfl, rfl⟩
      obtain rfl : bound = b := Option.some.inj (hb.symm.trans hb')
      exact ⟨rfl, fun _ => ⟨rfl, List.append_assoc s.log [_] [_]⟩, fun hne => absurd hs hne⟩
    · have hthre : ¬(w % 256 &&& s.cfg.threMask ≠ 0) := by rw [← threSet_iff, hv]; simp
      refine ⟨fun h => absurd h hthre, fun _ hn => absurd (hb.symm.trans hn) (by simp), fun _ b hb' => ?_, rfl, rfl, rfl, rfl,
        rfl, rfl, rfl, rfl, rfl, rfl, rfl, rfl, rfl, rfl, rfl⟩
      obtain rfl : bound = b := Option.some.inj (hb.symm.trans hb')
      exact ⟨rfl, fun he => absurd he hs, fun _ => ⟨hpoll, rfl⟩⟩

/-- Settles O44. -/
theorem putWritesAndCounts : Obligations.PutWritesAndCounts := by
  intro s b hi hb
  rw [show engineStep .txPut s = txPut s from rfl]
  have hbyte : heldByte s.txCur s = b := by rw [hb, heldByte_some]
  rcases txPut_cases s with ⟨hge, -⟩ | ⟨-, ⟨hc, hq⟩ | ⟨hc, hq⟩⟩
  · omega
  · rw [hq, hbyte]
    exact ⟨rfl, rfl, fun _ => ⟨rfl, rfl, rfl, rfl⟩, fun hn => absurd (hc.symm.trans hn) (by decide), rfl, rfl, rfl, rfl, rfl, rfl,
      rfl, rfl, rfl, rfl, rfl, rfl⟩
  · rw [hq, hbyte]
    exact ⟨rfl, rfl, fun hn => absurd (hc.symm.trans hn) (by decide), fun _ => ⟨rfl, hc, rfl, rfl⟩, rfl, rfl, rfl, rfl, rfl, rfl,
      rfl, rfl, rfl, rfl, rfl, rfl⟩

/-! ### The control port -/

/-- Settles O52. -/
theorem controlResetClearsCounterOnly : Obligations.ControlResetClearsCounterOnly := fun _ _ =>
  ⟨_, rfl, rfl, rfl, rfl, rfl, rfl, ⟨rfl, rfl, rfl, rfl⟩, rfl⟩

theorem counterBytes_getElem? {c : Config} {k : Nat} (count : Nat) (hk : k < c.cw / 8) :
    (counterBytes c count)[k]? = some (BitVec.ofNat 8 (count / 256 ^ k)) := by
  have hpow : (2 : Nat) ^ (8 * k) = 256 ^ k := Nat.pow_mul 2 8 k
  simp [counterBytes, hk, Nat.shiftRight_eq_div_pow, hpow]

/-- Settles O53. -/
theorem controlGetCopiesCounter : Obligations.ControlGetCopiesCounter := by
  intro arg s
  obtain ⟨ok, hok, hq⟩ := execNext_ctrlGet arg s
  exact ⟨_, counterBytes s.cfg s.txcount, ok, (exec_eq_next _ s).trans (congrArg _ hq), by simp [counterBytes],
    fun k hk => counterBytes_getElem? _ hk, fun o ha => hok.trans (drawCopyOut_answered ha), rfl, rfl, rfl, rfl,
    ⟨rfl, rfl, rfl, rfl⟩, rfl⟩

end Sys2Proof.Machine

/-! Which step a line takes (R96, R97, R102, R103): a presented operation, an engine step, a resumed request, or
the refusal of a line of a schedule; and whose fields a step may write (R41). -/

namespace Sys2Proof.Machine

/-! ### Presented operations -/

/-- The first operation of a presented stream, where its agent may issue it. -/
theorem runPresent_encoded {i : Instr} {a : Agent} {s : State} (an : Annotation) (rest : List Byte)
    (hwf : i.wellFormed = true) (ha : admitted s.cfg.wiring a i = true) :
    runPresent an a (encode i ++ rest) s =
      takeStep an (ready i s || !inNotation an) (annotationOk s.cfg (instrDraw i s) an)
        (exec i (keepRest an a rest s)) s := by
  simp only [runPresent, decodeUndoesEncode i rest hwf, ha, if_true]

/-- The first operation of a presented stream, where its agent may not issue it. -/
theorem runPresent_notAdmitted {i : Instr} {a : Agent} {s : State} (an : Annotation) (rest : List Byte)
    (hwf : i.wellFormed = true) (ha : admitted s.cfg.wiring a i = false) :
    runPresent an a (encode i ++ rest) s = .next (refuse .internalOp s) := by
  simp [runPresent, decodeUndoesEncode i rest hwf, ha]

/-- A stream that decodes to nothing is refused by its reason. -/
theorem runPresent_error {bytes : List Byte} {e : DecodeError} (hd : decode bytes = .error e) (an : Annotation)
    (a : Agent) (s : State) : runPresent an a bytes s = .next (refuse (refusalOf e) s) := by
  simp only [runPresent, hd]

/-- What is left of a stream stays in front of the schedule. -/
theorem keepRest_eq (an : Annotation) (a : Agent) (rest : List Byte) (s : State) :
    keepRest an a rest s =
      { s with
        sched := if rest = [] then s.sched else
          ⟨.present a rest, if an = .environment then .environment else .bare⟩ :: s.sched } := by
  cases rest with
  | nil => rfl
  | cons b rest => cases an <;> rfl

/-- A step on a line that presents an operation its agent may issue. -/
theorem step_presented {s : State} {a : Agent} {i : Instr} {rest : List Byte} {an : Annotation} {ls : List Line}
    (hr : s.refused = none) (hs : s.sched = ⟨.present a (encode i ++ rest), an⟩ :: ls) (hwf : i.wellFormed = true)
    (ha : admitted s.cfg.wiring a i = true) :
    step s = takeStep an (ready i s || !inNotation an) (annotationOk s.cfg (instrDraw i s) an)
      (exec i (keepRest an a rest (takeLine ⟨.present a (encode i ++ rest), an⟩ ls s)))
      (takeLine ⟨.present a (encode i ++ rest), an⟩ ls s) := by
  rw [step_line hr hs]
  refine (runPresent_encoded (s := takeLine ⟨.present a (encode i ++ rest), an⟩ ls s) an rest hwf ha).trans ?_
  rw [ready_takeLine, instrDraw_takeLine, takeLine_cfg]

/-- Settles O7: the three ways in which the checks of such a line can end. -/
theorem stepRunsPresentedOperation : Obligations.StepRunsPresentedOperation := by
  intro s a i rest an ls hr hs hwf ha
  have hstep := step_presented hr hs hwf ha
  refine ⟨fun hen hann => ?_, fun hready hne => ?_, fun hready hann => ?_⟩
  · have htaken : (ready i s || !inNotation an) = true := by
      rcases hen with h | rfl
      · simp [h]
      · simp [inNotation]
    rw [hstep, htaken, hann, takeStep_taken, keepRest_eq]
    rfl
  · have hnot := inNotation_eq_true.mpr hne
    rw [hstep, hready, hnot, show (false || !true) = false from rfl, takeStep_notEnabled, notEnabled_inNotation hnot]
    rfl
  · rw [hstep, hready, hann, Bool.true_or, takeStep_illAnnotated]
    rfl

/-- Settles O9: no presenter is admitted with an internal operation in the assembled block. -/
theorem internalOperationRefused : Obligations.InternalOperationRefused := by
  intro s a i rest an ls hr hw hs hint
  have hrefused : i.wellFormed = true ∧ admitted s.cfg.wiring a i = false := by
    rw [hw]
    rcases hint with ⟨idx, rfl⟩ | ⟨idx, b, rfl⟩ | ⟨b, rfl⟩ | rfl <;> exact ⟨rfl, rfl⟩
  rw [step_line hr hs]
  exact runPresent_notAdmitted an rest hrefused.1 hrefused.2

/-- Settles O10: each of the two refusals is that of the decoder. -/
theorem reservedHeaderRefused : Obligations.ReservedHeaderRefused := by
  intro s a b0 b1 tail an ls hr hs
  obtain ⟨hop, hfield⟩ := headerRefusalsInOrder b0 b1 tail
  refine ⟨fun h => ?_, fun hlo hhi h => ?_⟩
  · rw [step_line hr hs]
    exact runPresent_error (hop.mpr h) an a _
  · rw [step_line hr hs]
    exact runPresent_error (hfield.mpr ⟨by omega, h⟩) an a _

/-! ### Engine steps -/

/-- A step on a line that names an engine step. -/
theorem step_engine {s : State} {e : EngineStep} {an : Annotation} {ls : List Line} (hr : s.refused = none)
    (hs : s.sched = ⟨.engine e, an⟩ :: ls) :
    step s = takeStep an (engineEnabled e s) (annotationOk s.cfg (engineDraw e s) an)
      (.next (engineStep e (takeLine ⟨.engine e, an⟩ ls s))) (takeLine ⟨.engine e, an⟩ ls s) := by
  rw [step_line hr hs]
  show runEngine an e _ = _
  rw [runEngine, engineEnabled_takeLine, engineDraw_takeLine, takeLine_cfg]

/-- With no line left the step is the one on the free scheduler's offer (R16). -/
theorem step_free {s : State} (hs : s.sched = []) :
    step s = step { s with sched := [⟨Config.freeAction s.ticks, .environment⟩] } := by
  rcases Option.eq_none_or_eq_some s.refused with hr | ⟨r, hr⟩
  · have hfree : step s = runAction (freeLine s) (takeLine (freeLine s) [] s) := by simp only [step, hr, nextStep, hs]
    exact hfree.trans (step_line (s := { s with sched := [freeLine s] }) hr rfl).symm
  · simp [step, hr]

/-- Settles O8: the four ways in which the checks of such a line can end, and the free line. -/
theorem stepTakesEngineStep : Obligations.StepTakesEngineStep := by
  refine ⟨fun s e an ls hr hs => ?_, fun s hs => step_free hs⟩
  have hstep := step_engine hr hs
  refine ⟨fun hen hann => ?_, fun hen hne => ?_, fun hen hoff => ?_, fun hen hann => ?_⟩
  · rw [hstep, hen, hann, takeStep_taken]
    rfl
  · rw [hstep, hen, takeStep_notEnabled, notEnabled_inNotation (inNotation_eq_true.mpr hne)]
    rfl
  · rw [hstep, hen, takeStep_notEnabled, hoff, notEnabled_environment]
    rfl
  · rw [hstep, hen, hann, takeStep_illAnnotated]
    rfl

/-! ### Held requests -/

/-- The three requests that hold while their engine is busy (R299). -/
def IsRequest (i : Instr) : Prop := i = .rxIrq ∨ (∃ d n, i = .read d n) ∨ ∃ a n, i = .write a n

/-- A request is an operation that any agent may issue, and it draws nothing. -/
theorem IsRequest.basics {i : Instr} (hi : IsRequest i) (w : Wiring) (a : Agent) (s : State) :
    i.wellFormed = true ∧ admitted w a i = true ∧ instrDraw i s = .nothing := by
  rcases hi with rfl | ⟨d, n, rfl⟩ | ⟨d, n, rfl⟩ <;> exact ⟨rfl, rfl, rfl⟩

/-- A request to a busy engine is held. -/
theorem IsRequest.exec_held {i : Instr} {s : State} (hi : IsRequest i) (hready : ready i s = false) :
    exec i s = .next (hold i s) := by
  rw [exec_eq_next]
  rcases hi with rfl | ⟨d, n, rfl⟩ | ⟨d, n, rfl⟩
  · rcases execNext_rxIrq s with ⟨h, -⟩ | ⟨-, hq⟩
    · simp [ready, h] at hready
    · rw [hq]
  · rcases execNext_read d n s with ⟨h, -⟩ | ⟨-, hq⟩
    · simp [ready, h] at hready
    · rw [hq]
  · rcases execNext_write d n s with ⟨h, -⟩ | ⟨-, hq⟩
    · simp [ready, h] at hready
    · rw [hq]

/-- Where nothing is drawn, a line is well annotated exactly if it brings no answer. -/
theorem annotationOk_nothing (c : Config) (an : Annotation) :
    annotationOk c .nothing an = true ↔ an.answer? = none := by
  cases an with
  | bare | environment => exact ⟨fun _ => rfl, fun _ => rfl⟩
  | answer a => cases a <;> simp [annotationOk, answerFits, Annotation.answer?]

/-- A step on a line that resumes a held request. -/
theorem step_resume {s : State} {i : Instr} {k : Nat} {an : Annotation} {ls : List Line} (hi : IsRequest i)
    (hr : s.refused = none) (hs : s.sched = ⟨.resume k, an⟩ :: ls) (hk : s.held[k]? = some i) :
    step s = takeStep an (ready i s) (annotationOk s.cfg .nothing an)
      (exec i { takeLine ⟨.resume k, an⟩ ls s with held := s.held.eraseIdx k }) (takeLine ⟨.resume k, an⟩ ls s) := by
  obtain ⟨-, hadm, hdraw⟩ := hi.basics s.cfg.wiring (issuerOf i) s
  rw [step_line hr hs]
  show runResume an k _ = _
  simp only [runResume, takeLine_held, hk, takeLine_cfg, ready_takeLine, instrDraw_takeLine, hadm, hdraw,
    Bool.and_true]

/-- Settles O60: an offered request to a busy engine is held; a held one is resumed by the four cases of its
line. -/
theorem heldRequestTakenWhenLifted : Obligations.HeldRequestTakenWhenLifted := by
  intro s i ls hr hi
  replace hi : IsRequest i := hi
  refine ⟨fun a rest hs hready => ?_, fun k an hs hk => ?_⟩
  · obtain ⟨hwf, hadm, -⟩ := hi.basics s.cfg.wiring a s
    rw [step_presented hr hs hwf hadm, show (ready i s || !inNotation .environment) = true from Bool.or_true _,
      show annotationOk s.cfg (instrDraw i s) .environment = true from rfl, takeStep_taken, keepRest_eq,
      hi.exec_held]
    · rfl
    · rw [← hready]
      exact ready_takeLine i ⟨.present a (encode i ++ rest), .environment⟩ _ s
  · have hstep := step_resume hi hr hs hk
    refine ⟨fun hready hann => ?_, fun hready hne => ?_, fun hready hoff => ?_, fun hready hann => ?_⟩
    · rw [hstep, hready, (annotationOk_nothing s.cfg an).mpr hann, takeStep_taken, takeLine, hann]
    · rw [hstep, hready, takeStep_notEnabled, notEnabled_inNotation (inNotation_eq_true.mpr hne)]
      rfl
    · subst hoff
      rw [hstep, hready, takeStep_notEnabled, notEnabled_environment]
      rfl
    · have hbad : annotationOk s.cfg .nothing an = false :=
        Bool.eq_false_iff.mpr fun h => hann ((annotationOk_nothing s.cfg an).mp h)
      rw [hstep, hready, hbad, takeStep_illAnnotated]
      rfl

/-! ### The domains (R41) -/

/-- The W-domain operations and engine steps leave the R domain alone. -/
theorem wDomain_leaves_rDomain (s : State) :
    (∀ b, rdView (pushByte b s) = rdView s ∧ txView (pushByte b s) = txView s) ∧
    (rdView (execNext .rxIrq s) = rdView s ∧ txView (execNext .rxIrq s) = txView s) ∧
    rdView (rxcRead s) = rdView s ∧ txView (rxcRead s) = txView s := by
  refine ⟨fun b => ⟨rfl, rfl⟩, ?_, ?_⟩
  · rcases execNext_rxIrq s with ⟨-, hq⟩ | ⟨-, hq⟩ <;> rw [hq] <;> exact ⟨rfl, rfl⟩
  · rcases rxcRead_cases s with ⟨-, hq⟩ | ⟨v, -, hq⟩ <;> rw [hq] <;> exact ⟨rfl, rfl⟩

/-- The read side's operations leave the W domain and the transmit side alone. -/
theorem readOps_leave_others (s : State) {i : Instr} (hi : i = .syncWr ∨ i = .pop ∨ i = .cancel ∨ ∃ d n, i = .read d n) :
    wView (execNext i s) = wView s ∧ txView (execNext i s) = txView s := by
  rcases hi with rfl | rfl | rfl | ⟨d, n, rfl⟩
  · exact ⟨rfl, rfl⟩
  · rcases execNext_pop s with ⟨-, hq⟩ | ⟨-, -, hq⟩ | ⟨b, -, -, hq⟩ <;> rw [hq] <;> exact ⟨rfl, rfl⟩
  · rcases execNext_cancel s with ⟨-, hq⟩ | ⟨-, hq⟩ <;> rw [hq] <;> exact ⟨rfl, rfl⟩
  · rcases execNext_read d n s with ⟨-, hq⟩ | ⟨-, hq⟩ <;> rw [hq] <;> exact ⟨rfl, rfl⟩

/-- So do the read engine's steps. -/
theorem readEngine_leaves_others (s : State) {e : EngineStep} (he : e = .rdPop ∨ e = .rdCopy) :
    wView (engineStep e s) = wView s ∧ txView (engineStep e s) = txView s := by
  rcases he with rfl | rfl <;> rw [engineStep]
  · rcases rdPop_cases s with ⟨-, hq⟩ | ⟨-, -, hq⟩ | ⟨b, -, -, hq⟩ <;> rw [hq] <;> exact ⟨rfl, rfl⟩
  · obtain ⟨ok, -, hq⟩ := rdCopy_cases s
    rw [hq]
    exact ⟨rfl, rfl⟩

/-- WRITE, OPEN and the control port leave the FIFO and the read engine alone. -/
theorem hostOps_leave_rx (s : State) {i : Instr}
    (hi : (∃ d n, i = .write d n) ∨ i = .openDev ∨ (∃ a, i = .ctrlReset a) ∨ (∃ a, i = .ctrlGet a) ∨
      ∃ o a, i = .ctrlOther o a) : wView (execNext i s) = wView s ∧ rdView (execNext i s) = rdView s := by
  rcases hi with ⟨d, n, rfl⟩ | rfl | ⟨a, rfl⟩ | ⟨a, rfl⟩ | ⟨o, a, rfl⟩
  · rcases execNext_write d n s with ⟨-, hq⟩ | ⟨-, hq⟩ <;> rw [hq] <;> exact ⟨rfl, rfl⟩
  · exact ⟨rfl, rfl⟩
  · exact ⟨rfl, rfl⟩
  · obtain ⟨ok, -, hq⟩ := execNext_ctrlGet a s
    rw [hq]
    exact ⟨rfl, rfl⟩
  · exact ⟨rfl, rfl⟩

/-- So do the TX engine's steps. -/
theorem txEngine_leaves_rx (s : State) {e : EngineStep}
    (he : e = .txStage ∨ e = .txNext ∨ e = .txPoll ∨ e = .txPut) :
    wView (engineStep e s) = wView s ∧ rdView (engineStep e s) = rdView s := by
  rcases he with rfl | rfl | rfl | rfl <;> rw [engineStep]
  · rcases txStage_cases s with ⟨-, hq⟩ | ⟨-, -, hq⟩ | ⟨bs, -, -, -, hq⟩ <;> rw [hq] <;> exact ⟨rfl, rfl⟩
  · rcases txNext_cases s with ⟨-, hq⟩ | ⟨b, -, -, hq⟩ <;> rw [hq] <;> exact ⟨rfl, rfl⟩
  · rcases txPoll_cases s with ⟨-, hq⟩ | ⟨v, -, -, ⟨-, hq⟩ | ⟨-, -, hq⟩ | ⟨b, -, -, ⟨-, hq⟩ | ⟨-, hq⟩⟩⟩ <;>
      rw [hq] <;> exact ⟨rfl, rfl⟩
  · rcases txPut_cases s with ⟨-, hq⟩ | ⟨-, ⟨-, hq⟩ | ⟨-, hq⟩⟩ <;> rw [hq] <;> exact ⟨rfl, rfl⟩

/-- The next state of an operation is `execNext`. -/
theorem eq_execNext {i : Instr} {s t : State} (h : exec i s = .next t) : t = execNext i s := by
  rw [exec_eq_next] at h
  exact (Host.Outcome.next.inj h).symm

/-- Settles O58. -/
theorem domainsOwnTheirFields : Obligations.DomainsOwnTheirFields := by
  intro s
  obtain ⟨hpush, hirq, hread⟩ := wDomain_leaves_rDomain s
  refine ⟨fun i t hi h => ?_, fun e he => ?_, fun i t hi h => ?_, fun e he => readEngine_leaves_others s he,
    fun i t hi h => ?_, fun e he => txEngine_leaves_rx s he⟩
  · rw [eq_execNext h]
    rcases hi with rfl | rfl | ⟨b, rfl⟩
    · exact ⟨rfl, rfl⟩
    · exact hirq
    · exact hpush b
  · rcases he with rfl | rfl
    · exact hread
    · exact hpush (heldByte s.rxcByte s)
  · rw [eq_execNext h]
    exact readOps_leave_others s hi
  · rw [eq_execNext h]
    exact hostOps_leave_rx s hi

end Sys2Proof.Machine

/-! Runs of the pseudo-operations (R101): the clock crossing, an interrupt handled end to end, an overflow that
laps the buffer, and a blocking read. -/

namespace Sys2Proof.Machine

/-! ### Steps and runs on lines of a schedule -/

/-- `k` steps lead from one state to another. -/
inductive StepsTo : Nat → State → State → Prop
  | refl (s : State) : StepsTo 0 s s
  | head {k : Nat} {s u t : State} (h : step s = .next u) (ht : StepsTo k u t) : StepsTo (k + 1) s t

theorem StepsTo.run {k : Nat} {s t : State} (h : StepsTo k s t) : core.run k s = .next t := by
  induction h with
  | refl s => rfl
  | head hstep _ ih => exact (run_succ hstep _).trans ih

theorem StepsTo.one {s t : State} (h : step s = .next t) : StepsTo 1 s t := .head h (.refl t)

theorem StepsTo.append {j k : Nat} {s u t : State} (h : StepsTo j s u) (h' : StepsTo k u t) :
    StepsTo (j + k) s t := by
  induction h with
  | refl s => rwa [Nat.zero_add]
  | head hstep _ ih => rw [Nat.succ_add]; exact .head hstep (ih h')

/-- The state in which the step of a bare line is taken. -/
def onBare (ls : List Line) (s : State) : State := { s with sched := ls, answer := none, ticks := s.ticks + 1 }

/-- An operation that its issuer may present, that is ready and that draws nothing runs on a bare line. -/
theorem step_opLine {s : State} {i : Instr} {ls : List Line} (hr : s.refused = none)
    (hs : s.sched = opLine i .bare :: ls) (hwf : i.wellFormed = true)
    (ha : admitted s.cfg.wiring (issuerOf i) i = true) (hready : ready i s = true)
    (hd : instrDraw i s = .nothing) : step s = .next (execNext i (onBare ls s)) := by
  have hs' : s.sched = ⟨.present (issuerOf i) (encode i ++ []), .bare⟩ :: ls := by rw [hs, List.append_nil]; rfl
  rw [step_presented hr hs' hwf ha, hready, hd, Bool.true_or, show annotationOk s.cfg .nothing .bare = true from rfl,
    takeStep_taken, keepRest_nil, exec_eq_next]
  rfl

/-- An enabled engine step on a well-annotated line is taken. -/
theorem step_engineLine {s : State} {e : EngineStep} {an : Annotation} {ls : List Line} (hr : s.refused = none)
    (hs : s.sched = engineLine e an :: ls) (hen : engineEnabled e s = true)
    (hann : annotationOk s.cfg (engineDraw e s) an = true) :
    step s = .next (engineStep e (takeLine (engineLine e an) ls s)) := by
  rw [step_engine hr hs, hen, hann, takeStep_taken]
  rfl

/-! ### The clock crossing (R160) -/

/-- `k` edges fill the first `k` stages and move the others up. -/
theorem syncShift_iterate {stages k : Nat} (v : Nat) {old : List Nat} (hl : old.length = stages) (hk : k ≤ stages) :
    (syncShift stages v)^[k] old = List.replicate k v ++ old.take (stages - k) := by
  induction k with
  | zero => simp [← hl]
  | succ k ih =>
    rw [Function.iterate_succ_apply', ih (by omega), syncShift, ← List.cons_append, ← List.replicate_succ,
      List.take_append, List.length_replicate, List.take_of_length_le (by simpa using hk), List.take_take,
      Nat.min_eq_left (by omega)]

/-- A run of SYNC_WR lines. -/
theorem stepsTo_syncWr (k : Nat) (ls : List Line) {s : State} (hr : s.refused = none)
    (hs : s.sched = List.replicate k (opLine .syncWr .bare) ++ ls) :
    StepsTo k s
      { s with
        sched := ls, answer := if k = 0 then s.answer else none, ticks := s.ticks + k
        wsync := (syncShift s.cfg.s s.wgray)^[k] s.wsync } := by
  induction k generalizing s with
  | zero =>
    obtain rfl : s.sched = ls := hs
    exact .refl s
  | succ k ih =>
    have hstep := step_opLine (ls := List.replicate k (opLine .syncWr .bare) ++ ls) hr hs rfl rfl rfl rfl
    have hrest := StepsTo.head hstep (ih hr rfl)
    simpa [execNext_syncWr, onBare, Nat.add_assoc, Nat.add_comm 1 k] using hrest

/-- A run of SYNC_RW lines. -/
theorem stepsTo_syncRw (k : Nat) (ls : List Line) {s : State} (hr : s.refused = none)
    (hs : s.sched = List.replicate k (opLine .syncRw .bare) ++ ls) :
    StepsTo k s
      { s with
        sched := ls, answer := if k = 0 then s.answer else none, ticks := s.ticks + k
        rsync := (syncShift s.cfg.s s.rgray)^[k] s.rsync } := by
  induction k generalizing s with
  | zero =>
    obtain rfl : s.sched = ls := hs
    exact .refl s
  | succ k ih =>
    have hstep := step_opLine (ls := List.replicate k (opLine .syncRw .bare) ++ ls) hr hs rfl rfl rfl rfl
    have hrest := StepsTo.head hstep (ih hr rfl)
    simpa [execNext_syncRw, onBare, Nat.add_assoc, Nat.add_comm 1 k] using hrest

/-- Settles O23. -/
theorem crossingTakesSEdges : Obligations.CrossingTakesSEdges := by
  refine fun s k ls hr hk => ⟨fun hl hs => ?_, fun hl hs => ?_⟩
  · rw [(stepsTo_syncWr k ls hr hs).run, syncShift_iterate s.wgray hl hk]
  · rw [(stepsTo_syncRw k ls hr hs).run, syncShift_iterate s.rgray hl hk]

/-- The state after `XFER_W`: every stage of the read side's synchronizer holds `wgray`. -/
def afterXferW (ls : List Line) (s : State) : State :=
  { s with
    sched := ls, answer := none, ticks := s.ticks + s.cfg.s, wsync := List.replicate s.cfg.s s.wgray }

theorem stepsTo_xferW {s : State} {ls : List Line} (hr : s.refused = none) (hl : s.wsync.length = s.cfg.s)
    (hstages : 0 < s.cfg.s) (hs : s.sched = expandPseudo s.cfg .xferW ++ ls) :
    StepsTo s.cfg.s s (afterXferW ls s) := by
  have hrun := stepsTo_syncWr s.cfg.s ls hr hs
  rw [syncShift_iterate s.wgray hl (Nat.le_refl _), if_neg (by omega), Nat.sub_self, List.take_zero,
    List.append_nil] at hrun
  exact hrun

/-- Once it has crossed, the read side sees the write pointer. -/
theorem wsyncLast_afterXferW {s : State} (ls : List Line) (hstages : 0 < s.cfg.s) :
    wsyncLast (afterXferW ls s) = s.wgray := by
  show syncLast s.cfg.s (List.replicate s.cfg.s s.wgray) = _
  simp [syncLast, hstages]

/-- Settles O30: the push moves `wptr` onto `rptr`, and that is what crosses. -/
theorem overflowLapReadsEmpty : Obligations.OverflowLapReadsEmpty := by
  rintro s b ls ⟨hc, hw, hr, hwl, -⟩ hg href hunits hwptr hs
  obtain ⟨hn, hp⟩ := goodConfig_size hc
  have hstages : 0 < s.cfg.s := Nat.lt_of_lt_of_le (by decide) hc.2.1
  have hlap : cursorNext s.cfg.n s.wptr = s.rptr := by
    rw [hwptr, cursorNext_mod, show s.rptr + (s.cfg.n - 1) + 1 = s.rptr + s.cfg.n by omega, Nat.add_mod_right,
      Nat.mod_eq_of_lt hr]
  let u := pushByte b (onBare (expandPseudo s.cfg .xferW ++ ls) s)
  have hpush : step s = .next u := step_opLine href hs rfl (by rw [hunits]; rfl) rfl rfl
  have hcross : StepsTo s.cfg.s u (afterXferW ls u) := stepsTo_xferW (s := u) href hwl hstages rfl
  have hlast : wsyncLast (afterXferW ls u) = gray s.rptr :=
    (wsyncLast_afterXferW (s := u) ls hstages).trans (congrArg gray hlap)
  have hwq : wq (afterXferW ls u) = s.rptr := by
    rw [wq, hlast]
    exact g2b_gray (hp ▸ hr)
  refine ⟨_, ((StepsTo.one hpush).append hcross).run, hlap, rfl, ?_, ?_, memory_read_write_same s.mem s.wptr b⟩
  · rw [emptyR, hlast, beq_iff_eq]
    exact hg
  · rw [rdCount, hwq]
    exact (cursorDiff_eq_zero hr hr).mpr rfl

/-! ### An interrupt, end to end (R200 to R203) -/

/-- The state after `RECV b`. -/
def afterRecv (b : Byte) (ls : List Line) (s : State) : State :=
  { pushByte b s with
    log := s.log ++ [.regrd s.cfg.rbrIndex b.toNat, .pushed b (wasFull s), .wake, .irqHandled]
    bus := s.bus ++ [⟨false, regaddr s.cfg s.cfg.rbrIndex, accessBytes s.cfg, b.toNat⟩]
    rxcState := .idle, rxcByte := none, sched := ls, answer := none, ticks := s.ticks + 3 }

/-- The state after RX_IRQ on a bare line. -/
def afterIrq (ls : List Line) (s : State) : State := { onBare ls s with rxcState := .read }

/-- The state after RXC.READ on a line that answers `w`. -/
def afterCapture (w : Nat) (ls : List Line) (s : State) : State :=
  { afterRead s.cfg.rbrIndex w (takeLine (engineLine .rxcRead (.answer (.word w))) ls s) with
    rxcByte := some (dataLane w), rxcState := .push }

theorem step_rxIrqLine {s : State} {ls : List Line} (hr : s.refused = none) (hidle : s.rxcState = .idle)
    (hs : s.sched = opLine .rxIrq .bare :: ls) : step s = .next (afterIrq ls s) := by
  rw [step_opLine hr hs rfl rfl (by simp [ready, hidle]) rfl]
  rcases execNext_rxIrq (onBare ls s) with ⟨-, hq⟩ | ⟨hne, -⟩
  · exact congrArg _ hq
  · exact absurd hidle hne

theorem step_rxcReadLine {s : State} {ls : List Line} {w : Nat} (hr : s.refused = none)
    (hw : s.cfg.wiring = .assembled) (hread : s.rxcState = .read) (hi : s.cfg.rbrIndex < s.cfg.nreg)
    (hlt : w < 2 ^ s.cfg.aw) (hs : s.sched = engineLine .rxcRead (.answer (.word w)) :: ls) :
    step s = .next (afterCapture w ls s) := by
  rw [step_engineLine hr hs (by simp [engineEnabled, hw, hread])
    (by simp [annotationOk, engineDraw, regDraw, hi, answerFits, hlt])]
  exact congrArg _ (rxcRead_of_modelled (s := takeLine _ ls s) hi rfl hlt)

theorem step_rxcPushLine {s : State} {b : Byte} {ls : List Line} (hr : s.refused = none)
    (hw : s.cfg.wiring = .assembled) (hpush : s.rxcState = .push) (hb : s.rxcByte = some b)
    (hs : s.sched = engineLine .rxcPush .bare :: ls) :
    step s = .next { emit [.wake, .irqHandled] (pushByte b (onBare ls s)) with rxcByte := none, rxcState := .idle } := by
  rw [step_engineLine hr hs (by simp [engineEnabled, hw, hpush]) rfl]
  have hheld : ∀ u : State, heldByte s.rxcByte u = b := fun u => by rw [hb, heldByte_some]
  simp only [engineStep, rxcPush, takeLine_rxcByte, hheld]
  rfl

theorem stepsTo_recv {s : State} {b : Byte} {ls : List Line} (hr : s.refused = none) (hw : s.cfg.wiring = .assembled)
    (hidle : s.rxcState = .idle) (hi : s.cfg.rbrIndex < s.cfg.nreg) (haw : 8 ≤ s.cfg.aw)
    (hs : s.sched = expandPseudo s.cfg (.recv b) ++ ls) : StepsTo 3 s (afterRecv b ls s) := by
  have hlt : b.toNat < 2 ^ s.cfg.aw := Nat.lt_of_lt_of_le b.isLt (Nat.pow_le_pow_right (by decide) haw)
  let u := afterIrq (engineLine .rxcRead (.answer (.word b.toNat)) :: engineLine .rxcPush .bare :: ls) s
  let v := afterCapture b.toNat (engineLine .rxcPush .bare :: ls) u
  have hirq : step s = .next u := step_rxIrqLine hr hidle hs
  have hread : step u = .next v := step_rxcReadLine (s := u) hr hw rfl hi hlt rfl
  have hpush := step_rxcPushLine (s := v) hr hw rfl (congrArg some (dataLane_regWriteWord b)) rfl
  convert StepsTo.head hirq (.head hread (.one hpush)) using 1
  simp [u, v, afterRecv, afterCapture, afterIrq, afterRead, emit, pushByte, onBare, takeLine, wasFull, rq, rsyncLast]

/-- Settles O33. -/
theorem interruptHandlerCompletes : Obligations.InterruptHandlerCompletes := by
  intro s b ls hr hw hidle hi haw hs
  exact ⟨afterRecv b ls s, wasFull s, (stepsTo_recv hr hw hidle hi haw hs).run, rfl, rfl,
    fun i => memory_read_write s.mem s.wptr i b, rfl, rfl, rfl, rfl, rfl, rfl, rfl, hr⟩

/-! ### A blocking read, end to end (R204 to R207, R215) -/

/-- The state after READ on a bare line. -/
def afterReadLine (dst size : Word) (ls : List Line) (s : State) : State :=
  { onBare ls s with rdDst := addrOperand s.cfg dst, rdSize := sizeOperand s.cfg size, rdState := .wait }

/-- The state after RD.POP on a bare line, with the byte `b`. -/
def afterRdPop (b : Byte) (ls : List Line) (s : State) : State :=
  { afterPop b (onBare ls s) with rdByte := some b, rdState := .copy }

/-- The state after RD.COPY on a line that answers `ok`, with the byte `b` in hand. -/
def afterRdCopy (b : Byte) (ls : List Line) (s : State) : State :=
  { emit [.copyout s.rdDst [b] true, .done .readOp .ok 1]
      (takeLine (engineLine .rdCopy (.answer (.copied true))) ls s) with
    rdByte := none, rdState := .idle }

theorem step_readLine {s : State} {dst size : Word} {ls : List Line} (hr : s.refused = none)
    (hidle : s.rdState = .idle) (hs : s.sched = opLine (.read dst size) .bare :: ls) :
    step s = .next (afterReadLine dst size ls s) := by
  rw [step_opLine hr hs rfl rfl (by simp [ready, hidle]) rfl]
  rcases execNext_read dst size (onBare ls s) with ⟨-, hq⟩ | ⟨hne, -⟩
  · exact congrArg _ hq
  · exact absurd hidle hne

theorem step_rdPopLine {s : State} {b : Byte} {ls : List Line} (hr : s.refused = none)
    (hw : s.cfg.wiring = .assembled) (hwait : s.rdState = .wait) (he : emptyR s = false) (hovf : s.ovfFlag = false)
    (hb : Memory.read s.mem s.rptr = some b) (hs : s.sched = engineLine .rdPop .bare :: ls) :
    step s = .next (afterRdPop b ls s) := by
  rw [step_engineLine hr hs (by simp [engineEnabled, hw, hwait, he])
    (by simp [annotationOk, engineDraw, popDraw, hovf])]
  exact congrArg _ (rdPop_of_byte (s := onBare ls s) he ((popSource_of_noOverflow (s := onBare ls s) hovf).trans hb))

theorem step_rdCopyLine {s : State} {b : Byte} {ls : List Line} (hr : s.refused = none)
    (hw : s.cfg.wiring = .assembled) (hcopy : s.rdState = .copy) (hb : s.rdByte = some b)
    (hs : s.sched = engineLine .rdCopy (.answer (.copied true)) :: ls) : step s = .next (afterRdCopy b ls s) := by
  rw [step_engineLine hr hs (by simp [engineEnabled, hw, hcopy]) rfl]
  exact congrArg _ (rdCopy_answered (s := takeLine _ ls s) hb rfl)

theorem cursorNext_ne {n a : Nat} (hn : 2 ≤ n) (ha : a < n) : cursorNext n a ≠ a := by
  rw [cursorNext]
  by_cases hlast : a + 1 = n
  · rw [hlast, Nat.mod_self]
    omega
  · rw [Nat.mod_eq_of_lt (by omega)]
    omega

/-- An empty FIFO that both sides see as it is, is seen empty and is not full. -/
theorem quiescent_empty_views {s : State} (hp : PointersInRange s) (hwg : s.wgray = gray s.wptr)
    (hrg : s.rgray = gray s.rptr) (hq : Quiescent s) (heq : s.wptr = s.rptr) :
    emptyR s = true ∧ wasFull s = false := by
  obtain ⟨hc, hw, hr, -⟩ := hp
  obtain ⟨-, -, -, hwl, hrl, -⟩ := hq
  obtain ⟨hn, hsize⟩ := goodConfig_size hc
  constructor
  · rw [emptyR, hwl, hrg, hwg, heq, beq_self_eq_true]
  · have hrq : rq s = s.rptr := by rw [rq, hrl, hrg, g2b_gray (hsize ▸ hr)]
    rw [wasFull, hrq, ← heq, beq_eq_false_iff_ne]
    exact cursorNext_ne hn hw

/-- Settles O39: READ, an interrupt, its crossing, RD.POP and RD.COPY, each from the state the one before it
leaves. -/
theorem blockingReadDelivers : Obligations.BlockingReadDelivers := by
  intro s b dst size ls hp hwg hrg hq heq hovf hw hi haw hs
  obtain ⟨hempty, hfull⟩ := quiescent_empty_views hp hwg hrg hq heq
  obtain ⟨hc, hwlt, -, hwl, -⟩ := hp
  obtain ⟨hrxc, hrd, -, -, -, href, hfaults⟩ := hq
  obtain ⟨hn, -⟩ := goodConfig_size hc
  have hstages : 0 < s.cfg.s := Nat.lt_of_lt_of_le (by decide) hc.2.1
  let copyLine := engineLine .rdCopy (.answer (.copied true))
  let popLines := engineLine .rdPop .bare :: copyLine :: ls
  let s1 := afterReadLine dst size (expandPseudo s.cfg (.recv b) ++ (expandPseudo s.cfg .xferW ++ popLines)) s
  let s2 := afterRecv b (expandPseudo s.cfg .xferW ++ popLines) s1
  let s3 := afterXferW popLines s2
  let s4 := afterRdPop b (copyLine :: ls) s3
  have hread : step s = .next s1 := step_readLine href hrd (by rw [hs]; simp [popLines, copyLine])
  have hrecv : StepsTo 3 s1 s2 := stepsTo_recv (s := s1) href hw hrxc hi haw rfl
  have hcross : StepsTo s.cfg.s s2 s3 := stepsTo_xferW (s := s2) href hwl hstages rfl
  have hlast : wsyncLast s3 = gray (cursorNext s.cfg.n s.wptr) := wsyncLast_afterXferW (s := s2) popLines hstages
  have havail : emptyR s3 = false := by
    rw [emptyR, hlast, beq_eq_false_iff_ne]
    exact fun h => cursorNext_ne hn hwlt ((gray_inj.mp (hrg.symm.trans h)).symm.trans heq.symm)
  have hbyte : Memory.read s3.mem s3.rptr = some b := heq ▸ memory_read_write_same s.mem s.wptr b
  have hno : s3.ovfFlag = false := Bool.or_eq_false_iff.mpr ⟨hovf, hfull⟩
  have hpop : step s3 = .next s4 := step_rdPopLine (s := s3) href hw rfl havail hno hbyte rfl
  have hcopy : step s4 = .next (afterRdCopy b ls s4) := step_rdCopyLine (s := s4) href hw rfl rfl rfl
  refine ⟨⟨s1, (StepsTo.one hread).run, rfl, ?_⟩, afterRdCopy b ls s4, ?_, ?_, rfl, rfl, ?_, ?_, rfl, href, hfaults⟩
  · have hempty1 : emptyR s1 = true := hempty
    simp [engineEnabled, hempty1]
  · have hall := (StepsTo.one hread).append (hrecv.append (hcross.append (.head hpop (.one hcopy))))
    rw [show 6 + s.cfg.s = 1 + (3 + (s.cfg.s + (1 + 1))) by omega]
    exact hall.run
  · show s.log ++ [.regrd s.cfg.rbrIndex b.toNat, .pushed b (wasFull s), .wake, .irqHandled] ++ [.popped b] ++
      [.copyout (addrOperand s.cfg dst) [b] true, .done .readOp .ok 1] = _
    rw [hfull, List.append_assoc, List.append_assoc]
    rfl
  · exact congrArg (cursorNext s.cfg.n) heq.symm
  · have hlast' : wsyncLast (afterRdCopy b ls s4) = gray (cursorNext s.cfg.n s.wptr) := hlast
    rw [emptyR, hlast', heq, beq_iff_eq]
    rfl

end Sys2Proof.Machine

/-! Progress (R331): a step that takes the TX engine out of a state brings the write in progress closer to its end,
and clock edges, RD.POP and RD.COPY do so for the read. -/

namespace Sys2Proof.Machine

/-! ### The write in progress -/

theorem txWork_pos {s : State} (h : s.txState ≠ .idle) : 0 < txWork s := by
  cases hs : s.txState with
  | idle => exact absurd hs h
  | stage | next => simp only [txWork, hs]; omega
  | poll | put => simp only [txWork, hs]; split <;> omega

theorem txWork_eq_zero {s : State} : txWork s = 0 ↔ s.txState = .idle := by
  refine ⟨fun h => ?_, fun h => by simp [txWork, h]⟩
  by_contra hne
  exact absurd h (Nat.ne_of_gt (txWork_pos hne))

/-- From a TX state other than idle a step leaves the state and the distance to the write's end alone, or leaves
the state and comes closer to that end. -/
theorem stepForm_txWork {s t : State} (hf : StepForm s t) (heng : EngineInv s) (hn : 1 ≤ s.cfg.n)
    (hidle : s.txState ≠ .idle) :
    (t.txState = s.txState ∧ txWork t = txWork s) ∨ (t.txState ≠ s.txState ∧ txWork t < txWork s) := by
  obtain ⟨-, -, hidx, -, hoff, -⟩ := heng
  cases hf with
  | write _ _ ht => exact absurd ht hidle
  | stageDone ht | stageFailed ht | pollTimeout _ _ ht => exact .inr ⟨by simp [ht], txWork_pos hidle⟩
  | staged bytes ht ho =>
    have hk : 1 ≤ chunkLen s ∧ chunkLen s ≤ s.txSize - s.txOff := by unfold chunkLen; omega
    exact .inr ⟨by simp [ht], by simp only [txWork, ht, emit_txSize]; omega⟩
  | chunkSent ht hi => exact .inr ⟨by simp [ht], by simp only [txWork, ht]; omega⟩
  | nextByte b ht hi => exact .inr ⟨by simp [ht], by simp only [txWork, ht]; split <;> omega⟩
  | pollReady v ht =>
    exact .inr ⟨by simp [ht], by simp only [txWork, ht, afterRead, emit]; split <;> omega⟩
  | putLf ht _ hc | put ht _ hc =>
    exact .inr ⟨by simp [ht], by simp only [txWork, ht, hc, afterWrite, emit]; simp⟩
  | _ => exact .inl ⟨rfl, rfl⟩

theorem txStage_leaves (s : State) : (txStage s).txState ≠ .stage := by
  rcases txStage_cases s with ⟨-, hq⟩ | ⟨-, -, hq⟩ | ⟨_, -, -, -, hq⟩ <;> rw [hq] <;> simp

theorem txNext_leaves (s : State) : (txNext s).txState ≠ .next := by
  rcases txNext_cases s with ⟨-, hq⟩ | ⟨_, -, -, hq⟩ <;> rw [hq] <;> simp

theorem txPut_leaves {s : State} (hthr : s.cfg.thrIndex < s.cfg.nreg) : (txPut s).txState ≠ .put := by
  rcases txPut_cases s with ⟨hge, -⟩ | ⟨-, ⟨-, hq⟩ | ⟨-, hq⟩⟩
  · omega
  all_goals rw [hq]; simp

/-! ### The read in progress -/

/-- How many of the values, from the last on, equal `g`. -/
def trailing (g : Nat) (l : List Nat) : Nat := l.reverse.findIdx fun x => x != g

theorem edgesToAvail_eq (s : State) : edgesToAvail s = trailing s.rgray (s.wgray :: s.wsync) := rfl

theorem trailing_concat (g x : Nat) (l : List Nat) :
    trailing g (l ++ [x]) = if x = g then trailing g l + 1 else 0 := by
  rw [trailing, List.reverse_append, List.reverse_singleton, List.singleton_append, List.findIdx_cons]
  by_cases h : x = g
  · simp [h, trailing]
  · rw [if_neg h, bne_iff_ne.mpr h]
    rfl

/-- A value other than `g` in front of a list that has one already changes nothing. -/
theorem trailing_cons {g x : Nat} {l : List Nat} (hx : x ∈ l) (hne : x ≠ g) (y : Nat) :
    trailing g (y :: l) = trailing g l := by
  have hlt : l.reverse.findIdx (fun x => x != g) < l.reverse.length :=
    List.findIdx_lt_length_of_exists ⟨x, by simpa using hx, by simpa using hne⟩
  rw [trailing, List.reverse_cons, List.findIdx_append, if_pos hlt, trailing]

/-- In front of a list only a value's being `g` or not matters. -/
theorem trailing_cons_congr {g x y : Nat} (hx : x ≠ g) (hy : y ≠ g) (l : List Nat) :
    trailing g (x :: l) = trailing g (y :: l) := by
  simp [trailing, List.findIdx_append, hx, hy]

/-- The write pointer's code and the synchronizer, the last stage apart. -/
theorem wsync_split {s : State} (hl : s.wsync.length = s.cfg.s) (hs : 1 ≤ s.cfg.s) :
    s.wgray :: s.wsync = syncShift s.cfg.s s.wgray s.wsync ++ [wsyncLast s] := by
  have hlast : (s.wgray :: s.wsync).getLast (by simp) = wsyncLast s := by
    refine Option.some.inj ((List.getLast?_eq_some_getLast (by simp)).symm.trans ?_)
    have hne : s.wsync ≠ [] := fun h => by simp [h] at hl; omega
    rw [List.getLast?_cons_of_ne_nil hne]
    exact syncLast_eq hl hs
  have hshift : syncShift s.cfg.s s.wgray s.wsync = (s.wgray :: s.wsync).dropLast := by
    rw [syncShift, List.dropLast_eq_take, List.length_cons, hl, Nat.add_sub_cancel]
  rw [hshift, ← hlast, List.dropLast_append_getLast]

/-- The read side sees a byte exactly if no edge is needed. -/
theorem rxAvail_iff_edges {s : State} (hl : s.wsync.length = s.cfg.s) (hs : 1 ≤ s.cfg.s) :
    rxAvail s = true ↔ edgesToAvail s = 0 := by
  rw [edgesToAvail_eq, wsync_split hl hs, trailing_concat, rxAvail, emptyR]
  by_cases h : wsyncLast s = s.rgray
  · simp [h]
  · simp [h, Ne.symm h]

/-- While a byte is on its way, an edge brings it one stage closer. -/
theorem edges_syncWr {s : State} (hl : s.wsync.length = s.cfg.s) (hs : 1 ≤ s.cfg.s) (ha : rxAvail s = false)
    (hne : s.wgray ≠ s.rgray) :
    edgesToAvail { s with wsync := syncShift s.cfg.s s.wgray s.wsync } < edgesToAvail s := by
  have hlast : wsyncLast s = s.rgray := by
    have he : emptyR s = true := by simpa [rxAvail] using ha
    exact (beq_iff_eq.mp he).symm
  have hmem : s.wgray ∈ syncShift s.cfg.s s.wgray s.wsync := by
    obtain ⟨d, hd⟩ : ∃ d, s.cfg.s = d + 1 := ⟨s.cfg.s - 1, by omega⟩
    simp [syncShift, hd]
  calc edgesToAvail { s with wsync := syncShift s.cfg.s s.wgray s.wsync }
      = trailing s.rgray (syncShift s.cfg.s s.wgray s.wsync) := trailing_cons hmem hne _
    _ < edgesToAvail s := by
      rw [edgesToAvail_eq, wsync_split hl hs, trailing_concat, if_pos hlast]
      exact Nat.lt_succ_self _

/-- What the distance to the read's end is made of. -/
theorem readWork_congr {s t : State} (hr : t.rdState = s.rdState) (hwg : t.wgray = s.wgray) (hws : t.wsync = s.wsync)
    (hrg : t.rgray = s.rgray) : readWork t = readWork s := by
  simp only [readWork, edgesToAvail, hr, hwg, hws, hrg]

theorem readWork_of_views {s t : State} (hw : wView t = wView s) (hr : rdView t = rdView s) :
    readWork t = readWork s :=
  readWork_congr (congrArg RdView.rdState hr) (congrArg WView.wgray hw) (congrArg RdView.wsync hr)
    (congrArg RdView.rgray hr)

theorem readWork_eq_zero {s : State} : readWork s = 0 ↔ s.rdState = .idle := by
  cases h : s.rdState <;> simp [readWork, h]

theorem rdPop_readWork {s : State} (hw : s.rdState = .wait) (he : emptyR s = false) (hb : popSource s ≠ none) :
    readWork (rdPop s) < readWork s := by
  obtain ⟨b, hb⟩ := Option.ne_none_iff_exists'.mp hb
  rw [rdPop_of_byte he hb]
  simp [readWork, hw]

theorem rdCopy_readWork {s : State} (hc : s.rdState = .copy) : readWork (rdCopy s) < readWork s := by
  obtain ⟨ok, -, hq⟩ := rdCopy_cases s
  rw [hq]
  simp [readWork, hc]

theorem rxcRead_readWork (s : State) : readWork (rxcRead s) = readWork s := by
  rcases rxcRead_cases s with ⟨-, hq⟩ | ⟨_, -, hq⟩ <;> rw [hq] <;> rfl

theorem txWork_of_view {s t : State} (h : txView t = txView s) : txWork t = txWork s := by
  simp only [txView, TxView.mk.injEq] at h
  obtain ⟨hst, -, hsize, hoff, -, hlen, hidx, -, hcr, -⟩ := h
  simp only [txWork, hst, hsize, hoff, hlen, hidx, hcr]

/-- Settles O48. -/
theorem transfersProgress : Obligations.TransfersProgress := by
  intro s heng hw hn hs hl hthr hlsr
  refine ⟨fun e hen => ?_, fun hwait ha hne => ?_, rxAvail_iff_edges hl hs, txWork_eq_zero, readWork_eq_zero⟩
  · have hwork := stepForm_txWork (engineStep_form e s hen) heng hn
    have hleave : s.txState ≠ .idle → (engineStep e s).txState ≠ s.txState → txWork (engineStep e s) < txWork s :=
      fun hidle hne => (hwork hidle).elim (fun h => absurd h.1 hne) And.right
    have hguard := (Bool.and_eq_true_iff.mp hen).2
    refine ⟨?_, ?_, ?_, ?_, ?_, ?_⟩
    · rintro (rfl | rfl | rfl)
      · have ht : s.txState = .stage := by simpa using hguard
        exact hleave (by simp [ht]) (ht ▸ txStage_leaves s)
      · have ht : s.txState = .next := by simpa using hguard
        exact hleave (by simp [ht]) (ht ▸ txNext_leaves s)
      · have ht : s.txState = .put := by simpa using hguard
        exact hleave (by simp [ht]) (ht ▸ txPut_leaves hthr)
    · rintro rfl hto
      have ht : s.txState = .poll := by simpa using hguard
      exact hleave (by simp [ht]) (by simp [ht, hto])
    · intro he
      refine txWork_of_view ?_
      rcases he with rfl | rfl | he
      · exact (wDomain_leaves_rDomain s).2.2.2
      · rfl
      · exact (readEngine_leaves_others s he).2
    · rintro rfl hb
      obtain ⟨hwait, ha⟩ := (rdPop_enabled_iff hw).mp hen
      exact rdPop_readWork hwait (emptyR_of_rxAvail ha) hb
    · rintro rfl
      exact rdCopy_readWork (by simpa using hguard)
    · rintro (rfl | he)
      · exact rxcRead_readWork s
      · obtain ⟨hwv, hrv⟩ := txEngine_leaves_rx s he
        exact readWork_of_views hwv hrv
  · refine ⟨_, rfl, ?_⟩
    have hlt := edges_syncWr hl hs ha hne
    simpa [readWork, hwait] using hlt

end Sys2Proof.Machine

/-! Runs (R331): what holds along an infinite run, what its lines take, and on a fair run the end of a
write in progress. -/

namespace Sys2Proof.Machine

/-- What a step prepares changes no engine's guard. -/
theorem engineEnabled_prepared {s s1 : State} (h : Prepared s s1) (e : EngineStep) :
    engineEnabled e s1 = engineEnabled e s := by
  obtain ⟨_, _, _, _, rfl⟩ := h
  cases e <;> rfl

section
variable {ls : Nat → Line} {r : Nat → State}

/-! ### Along a run -/

/-- Each step of a run is a form of a step. -/
theorem isRun_form (h : IsRun ls r) (k : Nat) : ∃ s1, Prepared (r k) s1 ∧ StepForm s1 (r (k + 1)) := by
  obtain ⟨-, s1, ⟨l, hs, ans, n, rfl⟩, hf⟩ := step_form (h k)
  exact ⟨_, ⟨l, hs, ans, n, rfl⟩, hf⟩

/-- A property that ignores the bookkeeping a step prepares, and that every form of a step keeps, holds along a
run on which it holds at first. -/
theorem isRun_keeps (h : IsRun ls r) {P : State → Prop} (hprep : ∀ {s s1}, Prepared s s1 → P s → P s1)
    (hform : ∀ {s t}, StepForm s t → P s → P t) (h0 : P (r 0)) (k : Nat) : P (r k) := by
  induction k with
  | zero => exact h0
  | succ k ih =>
    obtain ⟨s1, hp, hf⟩ := isRun_form h k
    exact hform hf (hprep hp ih)

theorem isRun_log (h : IsRun ls r) {k j : Nat} (hkj : k ≤ j) : ∃ es, (r j).log = (r k).log ++ es := by
  induction j, hkj using Nat.le_induction with
  | base => exact ⟨[], (List.append_nil _).symm⟩
  | succ j _ ih =>
    obtain ⟨es, hes⟩ := ih
    obtain ⟨es', _, hrec⟩ := step_record (h j)
    exact ⟨es ++ es', by rw [hrec.log, ← List.append_assoc, ← hes]⟩

theorem isRun_cfg (h : IsRun ls r) (k : Nat) : (r k).cfg = (r 0).cfg := by
  induction k with
  | zero => rfl
  | succ k ih =>
    obtain ⟨_, _, hrec⟩ := step_record (h k)
    exact hrec.cfg.trans ih

/-- The step from `s` to `t` logs a completion of `op` with one of the statuses. -/
def StepCompletes (s t : State) (op : HostOp) (statuses : List Status) : Prop :=
  ∃ es status count, t.log = s.log ++ es ∧ Event.done op status count ∈ es ∧ status ∈ statuses

/-- A completion later than a state is later than every state before it. -/
theorem completesAfter_mono (h : IsRun ls r) {k j : Nat} (hkj : k ≤ j) {op : HostOp} {sts : List Status}
    (hc : CompletesAfter r j op sts) : CompletesAfter r k op sts := by
  obtain ⟨i, es, st, n, hji, hlog, hmem, hst⟩ := hc
  obtain ⟨es', hes'⟩ := isRun_log h hkj
  exact ⟨i, es' ++ es, st, n, by omega, by rw [hlog, hes', List.append_assoc], List.mem_append_right _ hmem, hst⟩

theorem completesAfter_of_step {j : Nat} {op : HostOp} {sts : List Status}
    (hc : StepCompletes (r j) (r (j + 1)) op sts) : CompletesAfter r j op sts := by
  obtain ⟨es, st, n, hlog, hmem, hst⟩ := hc
  exact ⟨j + 1, es, st, n, Nat.lt_succ_self j, hlog, hmem, hst⟩

/-- A line that names an enabled engine step has it taken. -/
theorem isRun_engine (h : IsRun ls r) {k : Nat} {e : EngineStep} (hl : (ls k).action = .engine e)
    (hen : engineEnabled e (r k) = true) : ∃ s1, Prepared (r k) s1 ∧ r (k + 1) = engineStep e s1 := by
  obtain ⟨s1, hp, hk⟩ := isRun_kind h k
  cases hk with
  | stay _ _ hdis => rw [← engineEnabled_prepared hp, hdis e hl] at hen; cases hen
  | op _ _ _ _ _ hne => exact absurd hl (hne e)
  | engine e' hl' _ hq =>
    obtain rfl : e = e' := Action.engine.inj (hl.symm.trans hl')
    exact ⟨s1, hp, hq⟩

/-- A line that presents SYNC_WR is a clock edge of the read side. -/
theorem isRun_syncWr (h : IsRun ls r) {k : Nat} (hl : Presents .syncWr (ls k)) :
    (r (k + 1)).wsync = syncShift (r k).cfg.s (r k).wgray (r k).wsync ∧ (r (k + 1)).wgray = (r k).wgray ∧
      (r (k + 1)).rgray = (r k).rgray := by
  obtain ⟨a, rest, hact⟩ := hl
  obtain ⟨s1, ⟨l, hs, ans, n, rfl⟩, hk⟩ := isRun_kind h k
  cases hk with
  | stay _ hn => exact absurd hact (hn a _)
  | engine _ hl' => rw [hact] at hl'; cases hl'
  | op i s2 hp _ _ _ hd hq =>
    obtain ⟨rest', hdec⟩ := hd a _ hact
    rw [decodeUndoesEncode .syncWr rest rfl] at hdec
    cases hdec
    obtain ⟨_, _, _, _, rfl⟩ := hp
    rw [hq]
    exact ⟨rfl, rfl, rfl⟩

end

/-! ### A write in progress completes (R240) -/

/-- Without a spin bound the write in progress ends with its completion, `ST_OK` or `ST_COPY_FAULT`. -/
theorem stepForm_writeEnds {s t : State} (hf : StepForm s t) (hb : s.cfg.spinBound = none) (hs : s.txState ≠ .idle)
    (ht : t.txState = .idle) : StepCompletes s t .writeOp [.ok, .copyFault] := by
  cases hf with
  | stageDone => exact ⟨_, .ok, s.txSize, rfl, by simp, by simp⟩
  | stageFailed => exact ⟨_, .copyFault, 0, rfl, by simp, by simp⟩
  | pollTimeout _ _ _ _ _ hb' => rw [hb] at hb'; cases hb'
  | write => cases ht
  | staged | chunkSent | nextByte | pollReady | putLf | put => cases ht
  | _ => exact absurd ht hs

/-- The engine step of a TX state. -/
def txStepOf : TxState → EngineStep
  | .idle | .stage => .txStage
  | .next => .txNext
  | .poll => .txPoll
  | .put => .txPut

theorem txStepOf_enabled {s : State} (hw : s.cfg.wiring = .assembled) (h : s.txState ≠ .idle) :
    engineEnabled (txStepOf s.txState) s = true := by
  cases hs : s.txState <;> simp_all [txStepOf, engineEnabled]

/-- A TX.PUT that is not refused writes to a modelled register. -/
theorem txPut_modelled {s : State} (h : (txPut s).refused = none) : s.cfg.thrIndex < s.cfg.nreg := by
  rcases txPut_cases s with ⟨-, hq⟩ | ⟨hlt, -⟩
  · rw [hq] at h; cases h
  · exact hlt

/-- A TX.POLL that logs a read with THRE set goes on to `TX_PUT`. -/
theorem txPoll_ready {s : State} {v : Nat} (hr : (txPoll s).refused = none)
    (hlog : (txPoll s).log = s.log ++ [.regrd s.cfg.lsrIndex v]) (hv : threSet s.cfg v = true) :
    (txPoll s).txState = .put := by
  have hread : ∀ {w es}, s.log ++ [.regrd s.cfg.lsrIndex w] ++ es = s.log ++ [.regrd s.cfg.lsrIndex v] → w = v := by
    intro w es h
    rw [List.append_assoc] at h
    injection List.append_cancel_left h with h
    exact (Event.regrd.inj h).2
  rcases txPoll_cases s with ⟨-, hq⟩ | ⟨w, -, -, ⟨-, hq⟩ | ⟨hw, -, hq⟩ | ⟨b, hw, -, ⟨-, hq⟩ | ⟨-, hq⟩⟩⟩ <;>
    rw [hq] at hr hlog ⊢
  · cases hr
  · rw [hread (es := []) ((List.append_nil _).trans hlog), hv] at hw; cases hw
  · rw [hread (es := [_]) hlog, hv] at hw; cases hw
  · rw [hread (es := []) ((List.append_nil _).trans hlog), hv] at hw; cases hw

/-- A step of the TX engine that is not refused, and if it polls finds THRE set, leaves its state. -/
theorem txStepOf_leaves {s : State} (hidle : s.txState ≠ .idle) (hr : (engineStep (txStepOf s.txState) s).refused = none)
    (hpoll : s.txState = .poll → ∃ v, (engineStep (txStepOf s.txState) s).log = s.log ++ [.regrd s.cfg.lsrIndex v] ∧
      threSet s.cfg v = true) : (engineStep (txStepOf s.txState) s).txState ≠ s.txState := by
  cases hs : s.txState with
  | idle => exact absurd hs hidle
  | stage => exact txStage_leaves s
  | next => exact txNext_leaves s
  | poll =>
    rw [hs] at hr hpoll
    obtain ⟨v, hlog, hv⟩ := hpoll rfl
    rw [show engineStep (txStepOf .poll) s = txPoll s from rfl, txPoll_ready hr hlog hv]
    decide
  | put =>
    rw [hs] at hr
    exact txPut_leaves (txPut_modelled hr)

section
variable {ls : Nat → Line} {r : Nat → State}

/-- On a fair run the TX engine leaves every state but idle. -/
theorem txState_left (h : IsRun ls r) (heng : FEng ls r) (hthre : FThre ls r) (hw : (r 0).cfg.wiring = .assembled)
    {k : Nat} (hidle : (r k).txState ≠ .idle) : ∃ j, k ≤ j ∧ (r (j + 1)).txState ≠ (r j).txState := by
  by_contra hno
  have hstay : ∀ j, k ≤ j → (r (j + 1)).txState = (r j).txState := fun j hkj => by
    by_contra hne
    exact hno ⟨j, hkj, hne⟩
  have hconst : ∀ j, k ≤ j → (r j).txState = (r k).txState := by
    intro j hkj
    induction j, hkj using Nat.le_induction with
    | base => rfl
    | succ j hkj ih => exact (hstay j hkj).trans ih
  have hen : ∀ j, k ≤ j → engineEnabled (txStepOf (r k).txState) (r j) = true := fun j hkj => by
    rw [← hconst j hkj]
    exact txStepOf_enabled (by rw [isRun_cfg h, hw]) (by rwa [hconst j hkj])
  obtain ⟨j, hkj, hl, hpoll⟩ : ∃ j, k ≤ j ∧ (ls j).action = .engine (txStepOf (r k).txState) ∧
      ((r k).txState = .poll → ∃ v, (r (j + 1)).log = (r j).log ++ [.regrd (r j).cfg.lsrIndex v] ∧
        threSet (r j).cfg v = true) := by
    by_cases hp : (r k).txState = .poll
    · obtain ⟨j, v, hkj, hl, hlog, hv⟩ := hthre k hp
      exact ⟨j, hkj, by rw [hp]; exact hl, fun _ => ⟨v, hlog, hv⟩⟩
    · obtain ⟨j, hkj, hl⟩ := heng _ k hen
      exact ⟨j, hkj, hl, fun h => absurd h hp⟩
  obtain ⟨s1, hp1, hq⟩ := isRun_engine h hl (hen j hkj)
  have hs1 : s1.txState = (r k).txState ∧ s1.log = (r j).log ∧ s1.cfg = (r j).cfg := by
    obtain ⟨_, _, _, _, rfl⟩ := hp1
    exact ⟨hconst j hkj, rfl, rfl⟩
  obtain ⟨hst, hlog1, hcfg1⟩ := hs1
  rw [← hst] at hq hpoll hidle
  rw [← hlog1, ← hcfg1] at hpoll
  rw [hq] at hpoll
  refine txStepOf_leaves hidle (hq ▸ isRun_refused h (j + 1)) hpoll ?_
  rw [← hq, hst]
  exact hconst (j + 1) (by omega)

/-- Along a run a step leaves the state and the distance of a write in progress alone, or leaves the state and
comes closer to the write's end, or ends it with its completion. -/
theorem isRun_txWork (h : IsRun ls r) (hb : (r 0).cfg.spinBound = none) (hn : 1 ≤ (r 0).cfg.n) {k : Nat}
    (hinv : EngineInv (r k)) (hidle : (r k).txState ≠ .idle) :
    ((r (k + 1)).txState = (r k).txState ∧ txWork (r (k + 1)) = txWork (r k)) ∨
    ((r (k + 1)).txState ≠ (r k).txState ∧ txWork (r (k + 1)) < txWork (r k) ∧
      ((r (k + 1)).txState = .idle → StepCompletes (r k) (r (k + 1)) .writeOp [.ok, .copyFault])) := by
  obtain ⟨s1, ⟨_, _, _, _, rfl⟩, hf⟩ := isRun_form h k
  have hcfg := isRun_cfg h k
  rw [← hcfg] at hb hn
  have hends := stepForm_writeEnds hf hb hidle
  exact (stepForm_txWork hf hinv hn hidle).imp id fun ⟨hne, hlt⟩ => ⟨hne, hlt, hends⟩

/-- Until the TX engine leaves its state the distance of the write in progress stays. -/
theorem txWork_until_left (h : IsRun ls r) (hb : (r 0).cfg.spinBound = none) (hn : 1 ≤ (r 0).cfg.n)
    (hinv : ∀ k, EngineInv (r k)) {k : Nat} (hidle : (r k).txState ≠ .idle) (d : Nat)
    (hleft : (r (k + d + 1)).txState ≠ (r (k + d)).txState) :
    ∃ j, k ≤ j ∧ txWork (r (j + 1)) < txWork (r k) ∧
      ((r (j + 1)).txState = .idle → StepCompletes (r j) (r (j + 1)) .writeOp [.ok, .copyFault]) := by
  induction d generalizing k with
  | zero =>
    rcases isRun_txWork h hb hn (hinv k) hidle with ⟨hsame, -⟩ | ⟨-, hlt, hends⟩
    · exact absurd hsame hleft
    · exact ⟨k, Nat.le_refl k, hlt, hends⟩
  | succ d ih =>
    rcases isRun_txWork h hb hn (hinv k) hidle with ⟨hsame, hwork⟩ | ⟨-, hlt, hends⟩
    · rw [show k + (d + 1) = k + 1 + d by omega] at hleft
      obtain ⟨j, hkj, hlt, hends⟩ := ih (hsame ▸ hidle) hleft
      exact ⟨j, by omega, hwork ▸ hlt, hends⟩
    · exact ⟨k, Nat.le_refl k, hlt, hends⟩

/-- Settles O50, by induction on the distance to the write's end. -/
theorem everyWriteCompletes : Obligations.EveryWriteCompletes := by
  intro ls r h heng hthre hw hb hn hinv0 k hidle
  have hinv : ∀ k, EngineInv (r k) := isRun_keeps h prepared_engineInv stepForm_engineInv hinv0
  induction hm : txWork (r k) using Nat.strong_induction_on generalizing k with
  | _ m ih =>
    obtain ⟨i, hki, hleft⟩ := txState_left h heng hthre hw hidle
    obtain ⟨d, rfl⟩ := Nat.exists_eq_add_of_le hki
    obtain ⟨j, hkj, hlt, hends⟩ := txWork_until_left h hb hn hinv hidle d hleft
    by_cases hend : (r (j + 1)).txState = .idle
    · exact completesAfter_mono h hkj (completesAfter_of_step (hends hend))
    · exact completesAfter_mono h (by omega) (ih _ (hm ▸ hlt) (j + 1) hend rfl)

end

end Sys2Proof.Machine

/-! A pushed byte on a fair run (R331): it becomes available, and the READ that waits for it completes. -/

namespace Sys2Proof.Machine

/-! ### What a step leaves to the read side -/

/-- From `s` to `t` no byte is taken, and the read side's synchronizer stays or takes a clock edge. -/
structure NothingTaken (s t : State) : Prop where
  rgray : t.rgray = s.rgray
  taken : cons t.log = cons s.log
  wsync : t.wsync = s.wsync ∨ t.wsync = syncShift s.cfg.s s.wgray s.wsync ∧ t.wgray = s.wgray

theorem NothingTaken.of_events {s t : State} {es : List Event} (hg : t.rgray = s.rgray) (hlog : t.log = s.log ++ es)
    (hes : cons es = []) (hw : t.wsync = s.wsync) : NothingTaken s t :=
  ⟨hg, by rw [hlog, cons_append, hes, List.append_nil], .inl hw⟩

/-- In the assembled block only RD.POP, of a FIFO seen non-empty, takes a byte. -/
theorem stepForm_taken {s t : State} (hf : StepForm s t) (hw : s.cfg.wiring = .assembled) :
    (emptyR s = false ∧ t.rdState = .copy) ∨ NothingTaken s t := by
  cases hf with
  | push _ hu | pop _ hu => rw [hw] at hu; cases hu
  | rdPop _ _ he => exact .inl ⟨he, rfl⟩
  | syncWr => exact .inr ⟨rfl, rfl, .inr ⟨rfl, rfl⟩⟩
  | rxcPush => exact .inr ⟨rfl, (cons_append _ _).trans (by simp [pushByte, cons]), .inl rfl⟩
  | pollTimeout => exact .inr (.of_events rfl (List.append_assoc s.log [_] [_]) rfl rfl)
  | refused | unchanged | held | popFault | syncRw | rxIrq | read | write | chunkSent | nextByte =>
    exact .inr (.of_events rfl (List.append_nil _).symm rfl rfl)
  | _ => exact .inr (.of_events rfl rfl rfl rfl)

/-- From a read in progress a step leaves its state, or takes a byte for it, or ends it with its completion. -/
theorem stepForm_rdState {s t : State} (hf : StepForm s t) (hidle : s.rdState ≠ .idle) :
    t.rdState = s.rdState ∨ (s.rdState = .wait ∧ t.rdState = .copy) ∨
      StepCompletes s t .readOp [.ok, .copyFault, .interrupted] := by
  cases hf with
  | read _ _ hr => exact absurd hr hidle
  | rdPop _ hr => exact .inr (.inl ⟨hr, rfl⟩)
  | cancel => exact .inr (.inr ⟨_, .interrupted, 0, rfl, by simp, by simp⟩)
  | rdCopy ok =>
    exact .inr (.inr ⟨_, if ok then .ok else .copyFault, if ok then 1 else 0, rfl, by simp, by cases ok <;> simp⟩)
  | _ => exact .inl rfl

/-! ### Codes of unread bytes -/

/-- What the read side rests on: the assembled block, with its invariants (R38, R157). -/
structure ReaderInv (s : State) : Prop where
  assembled : s.cfg.wiring = .assembled
  pointers : PointersInRange s
  engines : EngineInv s
  intact : FifoIntact s

theorem prepared_readerInv {s s1 : State} (hp : Prepared s s1) (h : ReaderInv s) : ReaderInv s1 := by
  refine ⟨?_, prepared_pointersInRange hp h.pointers, prepared_engineInv hp h.engines, prepared_fifoIntact hp h.intact⟩
  obtain ⟨_, _, _, _, rfl⟩ := hp
  exact h.assembled

theorem stepForm_readerInv {s t : State} (hf : StepForm s t) (h : ReaderInv s) : ReaderInv t := by
  obtain ⟨hw, hp, he, hi⟩ := h
  obtain ⟨_, _, hrec⟩ := stepForm_record hf
  exact ⟨by rw [hrec.cfg, hw], stepForm_pointersInRange hf he hp, stepForm_engineInv hf he,
    stepForm_fifoIntact hf hp he hi⟩

/-- A count of pushes that is ahead of the pops has another code than the read pointer. -/
theorem grayOfCount_ne_rgray {s : State} (h : ReaderInv s) {w r a : Nat}
    (hv : FifoViews s (rxs s.log).length (cons s.log).length w r) (hlt : (cons s.log).length < a)
    (hle : a ≤ (rxs s.log).length) : grayOfCount s.cfg.n a ≠ s.rgray := by
  obtain ⟨hn, -⟩ := goodConfig_size h.pointers.1
  have ⟨_, hrg, _⟩ := h.engines
  obtain ⟨-, hr, -, -, hrle, -, -, hroom⟩ := hv
  rw [grayOfCount, hrg, hr, Ne, gray_inj]
  intro heq
  have := (mod_eq_iff_of_lt (Nat.le_of_lt hlt) (by omega)).mp heq.symm
  omega

/-- With a byte unread the pointers' codes differ. -/
theorem wgray_ne_rgray {s : State} (h : ReaderInv s) (hovf : s.ovfFlag = false)
    (hlt : (cons s.log).length < (rxs s.log).length) : s.wgray ≠ s.rgray := by
  obtain ⟨w, r, hv, -⟩ := fifoIntact_views h.pointers h.intact hovf
  have ⟨hwg, _⟩ := h.engines
  rw [hwg, hv.wptr]
  exact grayOfCount_ne_rgray h hv hlt (Nat.le_refl _)

/-- Once the read side sees a byte every code behind it stands for an unread byte too. -/
theorem codes_ne_rgray {s : State} (h : ReaderInv s) (hovf : s.ovfFlag = false) (he : emptyR s = false) :
    ∀ g ∈ s.wgray :: s.wsync, g ≠ s.rgray := by
  have ⟨hwg, hrg, _⟩ := h.engines
  obtain ⟨ws, rs, hcounts⟩ := h.intact hovf
  obtain ⟨w, r, hv, hwmin, -⟩ := fifoCounts_views h.pointers hcounts
  have hne : (cons s.log).length ≠ w := fun heq => by simp [(hv.emptyR_iff h.pointers.1 hrg).mpr heq] at he
  have hrnle := hv.rn_le
  have hwle := hv.w_le
  obtain ⟨hws, -, -, -, hd, -⟩ := hcounts
  obtain ⟨hwn, -⟩ := List.pairwise_cons.mp (descending_fifo_iff.mp hd).1
  intro g hg
  rcases List.mem_cons.mp hg with rfl | hg
  · exact wgray_ne_rgray h hovf (by omega)
  · rw [hws] at hg
    obtain ⟨a, ha, rfl⟩ := List.mem_map.mp hg
    have := hwmin a ha
    exact grayOfCount_ne_rgray h hv (by omega) (hwn a ha)

/-- A byte that is seen and not taken stays seen. -/
theorem rxAvail_kept {s t : State} (h : ReaderInv s) (hovf : s.ovfFlag = false) (hk : NothingTaken s t)
    (hl : t.wsync.length = t.cfg.s) (hs : 1 ≤ t.cfg.s) (ha : rxAvail s = true) : rxAvail t = true := by
  have hcodes := codes_ne_rgray h hovf (emptyR_of_rxAvail ha)
  have hlast : wsyncLast t ∈ t.wsync := List.mem_of_getLast? (syncLast_eq hl hs)
  have hmem : wsyncLast t ∈ s.wgray :: s.wsync := by
    rcases hk.wsync with hw | ⟨hw, -⟩ <;> rw [hw] at hlast
    · exact List.mem_cons_of_mem _ hlast
    · exact List.mem_of_mem_take hlast
  have hne := hcodes _ hmem
  rw [← hk.rgray] at hne
  simpa [rxAvail, emptyR] using hne.symm

/-- RD.POP of a byte that is seen takes it. -/
theorem rdPop_copy {s : State} (h : ReaderInv s) (hovf : s.ovfFlag = false) (he : emptyR s = false) :
    (rdPop s).rdState = .copy := by
  have ⟨_, hrg, _⟩ := h.engines
  obtain ⟨hlt, hsrc⟩ := popSource_of_intact h.pointers hrg h.intact hovf he
  rw [rdPop_of_byte he (hsrc.trans (List.getElem?_eq_getElem hlt))]

/-- While a byte is on its way, a clock edge brings it one stage closer. -/
theorem edges_lt_of_edge {s t : State} (hp : PointersInRange s) (ha : rxAvail s = false) (hne : s.wgray ≠ s.rgray)
    (hws : t.wsync = syncShift s.cfg.s s.wgray s.wsync) (hwg : t.wgray = s.wgray) (hrg : t.rgray = s.rgray) :
    edgesToAvail t < edgesToAvail s := by
  obtain ⟨⟨-, hs, -⟩, -, -, hl, -⟩ := hp
  calc edgesToAvail t = edgesToAvail { s with wsync := syncShift s.cfg.s s.wgray s.wsync } := by
        simp only [edgesToAvail, hws, hwg, hrg]
    _ < edgesToAvail s := edges_syncWr hl (by omega) ha hne

/-- While a byte is on its way, what takes none does not put it back. -/
theorem edges_le {s t : State} (hp : PointersInRange s) (ha : rxAvail s = false) (hk : NothingTaken s t)
    (hs : s.wgray ≠ s.rgray) (ht : t.wgray ≠ t.rgray) : edgesToAvail t ≤ edgesToAvail s := by
  rcases hk.wsync with hw | ⟨hw, hwg⟩
  · rw [edgesToAvail_eq, edgesToAvail_eq, hw, hk.rgray]
    exact (trailing_cons_congr (hk.rgray ▸ ht) hs _).le
  · exact (edges_lt_of_edge hp ha hs hw hwg hk.rgray).le

/-! ### A pushed byte becomes available -/

section
variable {ls : Nat → Line} {r : Nat → State}

theorem isRun_taken (h : IsRun ls r) {k : Nat} (hw : (r k).cfg.wiring = .assembled) :
    (emptyR (r k) = false ∧ (r (k + 1)).rdState = .copy) ∨ NothingTaken (r k) (r (k + 1)) := by
  obtain ⟨s1, ⟨_, _, _, _, rfl⟩, hf⟩ := isRun_form h k
  exact (stepForm_taken hf hw).imp id fun hk => ⟨hk.rgray, hk.taken, hk.wsync⟩

theorem isRun_rdState (h : IsRun ls r) {k : Nat} (hidle : (r k).rdState ≠ .idle) :
    (r (k + 1)).rdState = (r k).rdState ∨ ((r k).rdState = .wait ∧ (r (k + 1)).rdState = .copy) ∨
      StepCompletes (r k) (r (k + 1)) .readOp [.ok, .copyFault, .interrupted] := by
  obtain ⟨s1, ⟨_, _, _, _, rfl⟩, hf⟩ := isRun_form h k
  have hread := stepForm_rdState hf hidle
  exact hread

/-- While the read side sees no byte those pushed and not taken stay so. -/
theorem unread_kept (h : IsRun ls r) {k : Nat} (hw : (r k).cfg.wiring = .assembled) (ha : rxAvail (r k) = false)
    (hlt : (cons (r k).log).length < (rxs (r k).log).length) :
    NothingTaken (r k) (r (k + 1)) ∧ (cons (r (k + 1)).log).length < (rxs (r (k + 1)).log).length := by
  obtain ⟨es, hlog⟩ := isRun_log h (Nat.le_succ k)
  rcases isRun_taken h hw with ⟨he, -⟩ | hk
  · simp [rxAvail, he] at ha
  · refine ⟨hk, ?_⟩
    rw [hk.taken, hlog, rxs_append, List.length_append]
    omega

/-- From state `k` of the run on, a byte is on its way and not seen. -/
def OnItsWayFrom (r : Nat → State) (k : Nat) : Prop :=
  ∀ j, k ≤ j → rxAvail (r j) = false ∧ (r j).wgray ≠ (r j).rgray ∧ NothingTaken (r j) (r (j + 1))

theorem onItsWay_edges_antitone {k : Nat} (hinv : ∀ j, ReaderInv (r j)) (hway : OnItsWayFrom r k) {i j : Nat}
    (hki : k ≤ i) (hij : i ≤ j) : edgesToAvail (r j) ≤ edgesToAvail (r i) := by
  induction j, hij using Nat.le_induction with
  | base => exact Nat.le_refl _
  | succ j hij ih =>
    obtain ⟨ha, hne, hk⟩ := hway j (hki.trans hij)
    obtain ⟨-, hne', -⟩ := hway (j + 1) (by omega)
    exact (edges_le (hinv j).pointers ha hk hne hne').trans ih

/-- A byte on its way comes as many stages closer as is wanted, so none is on its way forever. -/
theorem onItsWay_edges_descend (h : IsRun ls r) (hclk : FClk ls) {k : Nat} (hinv : ∀ j, ReaderInv (r j))
    (hway : OnItsWayFrom r k) (m : Nat) : ∃ j, k ≤ j ∧ edgesToAvail (r j) + m ≤ edgesToAvail (r k) := by
  induction m with
  | zero => exact ⟨k, Nat.le_refl k, Nat.le_refl _⟩
  | succ m ih =>
    obtain ⟨i, hki, hi⟩ := ih
    obtain ⟨j, hij, hl⟩ := hclk.1 i
    obtain ⟨hws, hwg, hrg⟩ := isRun_syncWr h hl
    obtain ⟨ha, hne, -⟩ := hway j (by omega)
    have hmono := onItsWay_edges_antitone hinv hway hki hij
    have hlt := edges_lt_of_edge (hinv j).pointers ha hne hws hwg hrg
    exact ⟨j + 1, by omega, by omega⟩

/-- On a fair run an unread byte becomes available, unless an overflow is flagged. -/
theorem unread_becomes_available (h : IsRun ls r) (hclk : FClk ls) (hinv : ∀ j, ReaderInv (r j)) {k : Nat}
    (hlt : (cons (r k).log).length < (rxs (r k).log).length) :
    ∃ j, k ≤ j ∧ (rxAvail (r j) = true ∨ (r j).ovfFlag = true) := by
  by_contra hno
  have hnot : ∀ j, k ≤ j → rxAvail (r j) = false ∧ (r j).ovfFlag = false := fun j hkj => by
    rw [← Bool.not_eq_true, ← Bool.not_eq_true, ← not_or]
    exact fun hor => hno ⟨j, hkj, hor⟩
  have hunread : ∀ j, k ≤ j → (cons (r j).log).length < (rxs (r j).log).length := by
    intro j hkj
    induction j, hkj using Nat.le_induction with
    | base => exact hlt
    | succ j hkj ih => exact (unread_kept h (hinv j).assembled (hnot j hkj).1 ih).2
  have hway : OnItsWayFrom r k := fun j hkj =>
    ⟨(hnot j hkj).1, wgray_ne_rgray (hinv j) (hnot j hkj).2 (hunread j hkj),
      (unread_kept h (hinv j).assembled (hnot j hkj).1 (hunread j hkj)).1⟩
  obtain ⟨j, -, hj⟩ := onItsWay_edges_descend h hclk hinv hway (edgesToAvail (r k) + 1)
  omega

/-! ### The READ that waits completes -/

/-- A read that has its byte completes. -/
theorem copy_completes (h : IsRun ls r) (heng : FEng ls r) (hw : (r 0).cfg.wiring = .assembled) {k : Nat}
    (hc : (r k).rdState = .copy) : CompletesAfter r k .readOp [.ok, .copyFault, .interrupted] := by
  by_contra hno
  have hcopy : ∀ j, k ≤ j → (r j).rdState = .copy := by
    intro j hkj
    induction j, hkj using Nat.le_induction with
    | base => exact hc
    | succ j hkj ih =>
      rcases isRun_rdState h (k := j) (by simp [ih]) with hsame | ⟨-, hcopy⟩ | hdone
      · exact hsame.trans ih
      · exact hcopy
      · exact absurd (completesAfter_mono h hkj (completesAfter_of_step hdone)) hno
  obtain ⟨j, hkj, hl⟩ := heng .rdCopy k fun j hkj => by simp [engineEnabled, isRun_cfg h, hw, hcopy j hkj]
  obtain ⟨s1, -, hq⟩ := isRun_engine h hl (by simp [engineEnabled, isRun_cfg h, hw, hcopy j hkj])
  obtain ⟨ok, -, hcases⟩ := rdCopy_cases s1
  have hidle := hcopy (j + 1) (by omega)
  rw [hq, show engineStep .rdCopy s1 = rdCopy s1 from rfl, hcases] at hidle
  cases hidle

/-- While a read waits and no overflow is flagged, a byte that is seen stays seen. -/
theorem rxAvail_while_waiting (h : IsRun ls r) (hinv : ∀ j, ReaderInv (r j)) {k : Nat}
    (hwait : ∀ j, k ≤ j → (r j).rdState = .wait) (hovf : ∀ j, k ≤ j → (r j).ovfFlag = false)
    (ha : rxAvail (r k) = true) {j : Nat} (hkj : k ≤ j) : rxAvail (r j) = true := by
  induction j, hkj using Nat.le_induction with
  | base => exact ha
  | succ j hkj ih =>
    rcases isRun_taken h (hinv j).assembled with ⟨-, hcopy⟩ | hk
    · rw [hwait (j + 1) (by omega)] at hcopy
      cases hcopy
    · obtain ⟨⟨-, hs, -⟩, -, -, hl, -⟩ := (hinv (j + 1)).pointers
      exact rxAvail_kept (hinv j) (hovf j hkj) hk hl (by omega) ih

/-- A read for which a byte is seen does not wait forever, unless an overflow is flagged. -/
theorem wait_ends (h : IsRun ls r) (heng : FEng ls r) (hinv : ∀ j, ReaderInv (r j)) {k : Nat}
    (hovf : ∀ j, k ≤ j → (r j).ovfFlag = false) (ha : rxAvail (r k) = true) :
    ∃ j, k ≤ j ∧ (r j).rdState ≠ .wait := by
  by_contra hno
  have hwait : ∀ j, k ≤ j → (r j).rdState = .wait := fun j hkj => by
    by_contra hne
    exact hno ⟨j, hkj, hne⟩
  have hen : ∀ j, k ≤ j → engineEnabled .rdPop (r j) = true := fun j hkj =>
    (rdPop_enabled_iff (hinv j).assembled).mpr ⟨hwait j hkj, rxAvail_while_waiting h hinv hwait hovf ha hkj⟩
  obtain ⟨j, hkj, hl⟩ := heng .rdPop k hen
  obtain ⟨s1, hp, hq⟩ := isRun_engine h hl (hen j hkj)
  have he : emptyR (r j) = false := emptyR_of_rxAvail (rxAvail_while_waiting h hinv hwait hovf ha hkj)
  have hs1 : s1.ovfFlag = false ∧ emptyR s1 = false := by
    obtain ⟨_, _, _, _, rfl⟩ := hp
    exact ⟨hovf j hkj, he⟩
  have hcopy := rdPop_copy (prepared_readerInv hp (hinv j)) hs1.1 hs1.2
  have hwait' := hwait (j + 1) (by omega)
  rw [hq, show engineStep .rdPop s1 = rdPop s1 from rfl, hcopy] at hwait'
  cases hwait'

/-- Settles O49: the byte becomes available, the wait for it then ends, in the read's completion or with its byte,
and with its byte the read completes. -/
theorem pushedByteIsRead : Obligations.PushedByteIsRead := by
  intro ls r h hclk heng hw hp he hi k hlt
  have hinv : ∀ j, ReaderInv (r j) := isRun_keeps h prepared_readerInv stepForm_readerInv ⟨hw, hp, he, hi⟩
  refine ⟨unread_becomes_available h hclk hinv hlt, fun hwait => ?_⟩
  by_contra hno
  obtain ⟨hnoovf, hnodone⟩ := not_or.mp hno
  have hovf : ∀ j, k ≤ j → (r j).ovfFlag = false := fun j hkj => by
    rw [← Bool.not_eq_true]
    exact fun hf => hnoovf ⟨j, hkj, hf⟩
  have hstays : ∀ j, k ≤ j → (r j).rdState = .wait := by
    intro j hkj
    induction j, hkj using Nat.le_induction with
    | base => exact hwait
    | succ j hkj ih =>
      rcases isRun_rdState h (k := j) (by simp [ih]) with hsame | ⟨-, hcopy⟩ | hdone
      · exact hsame.trans ih
      · exact absurd (completesAfter_mono h (by omega) (copy_completes h heng hw hcopy)) hnodone
      · exact absurd (completesAfter_mono h hkj (completesAfter_of_step hdone)) hnodone
  obtain ⟨i, hki, ha | hf⟩ := unread_becomes_available h hclk hinv hlt
  · obtain ⟨j, hij, hne⟩ := wait_ends h heng hinv (fun j hij => hovf j (hki.trans hij)) ha
    exact hne (hstays j (hki.trans hij))
  · exact hnoovf ⟨i, hki, hf⟩

end

end Sys2Proof.Machine

/-! The gray code (R151): it is linear, and counting up by one, the wrap included, changes the low ones of a number
and so one bit of its code. -/

namespace Sys2Proof.Machine

theorem gray_xor (a b : Nat) : gray (a ^^^ b) = gray a ^^^ gray b := by
  simp only [gray, Nat.shiftRight_xor_distrib]
  ac_rfl

/-- The code of a block of low ones is its top bit. -/
theorem gray_two_pow_sub_one (i : Nat) : gray (2 ^ (i + 1) - 1) = 2 ^ i := by
  refine Nat.eq_of_testBit_eq fun j => ?_
  rw [gray_testBit, Nat.testBit_two_pow_sub_one, Nat.testBit_two_pow_sub_one, Nat.testBit_two_pow]
  by_cases h : i = j
  · simp [h]
  · have : j < i + 1 ↔ j + 1 < i + 1 := by omega
    simp [h, this]

/-- Doubled numbers, with a low bit each that differs. -/
theorem double_xor_double_succ (a b : Nat) : (2 * a) ^^^ (2 * b + 1) = 2 * (a ^^^ b) + 1 :=
  Nat.xor_bit false a true b

/-- Counting up by one on `P` bits changes a block of low bits. -/
theorem xor_next {p x : Nat} (hp : 1 ≤ p) (hx : x < 2 ^ p) :
    ∃ i, i < p ∧ x ^^^ ((x + 1) % 2 ^ p) = 2 ^ (i + 1) - 1 := by
  induction p, hp using Nat.le_induction generalizing x with
  | base =>
    obtain rfl | rfl : x = 0 ∨ x = 1 := by omega
    · exact ⟨0, by decide, rfl⟩
    · exact ⟨0, by decide, rfl⟩
  | succ p hp ih =>
    rw [Nat.pow_succ'] at hx ⊢
    obtain ⟨y, rfl | rfl⟩ := Nat.even_or_odd' x
    · refine ⟨0, Nat.succ_pos p, ?_⟩
      rw [Nat.mod_eq_of_lt (by omega), double_xor_double_succ, Nat.xor_self]
      rfl
    · obtain ⟨i, hi, heq⟩ := ih (x := y) (by omega)
      refine ⟨i + 1, by omega, ?_⟩
      rw [show 2 * y + 1 + 1 = 2 * (y + 1) by omega, Nat.mul_mod_mul_left, Nat.xor_comm, double_xor_double_succ,
        Nat.xor_comm, heq, Nat.pow_succ' (n := i + 1)]
      have := Nat.two_pow_pos (i + 1)
      omega

/-- Consecutive codes, the wrap included, differ in one bit. -/
theorem gray_next {p x : Nat} (hp : 1 ≤ p) (hx : x < 2 ^ p) :
    ∃ i, i < p ∧ gray x ^^^ gray ((x + 1) % 2 ^ p) = 2 ^ i := by
  obtain ⟨i, hi, heq⟩ := xor_next hp hx
  exact ⟨i, hi, by rw [← gray_xor, heq, gray_two_pow_sub_one]⟩

/-- R151's inverse by shifts. -/
theorem g2b_eq_foldl (p g : Nat) : g2b p g = ((List.range p).map fun k => g >>> k).foldl (· ^^^ ·) 0 := by
  induction p with
  | zero => rfl
  | succ p ih => rw [List.range_succ, List.map_append, List.foldl_append, ← ih]; rfl

/-- The top bit of a code is that of the number. -/
theorem g2b_testBit_top {p g : Nat} (hp : 1 ≤ p) (hg : g < 2 ^ p) :
    (g2b p g).testBit (p - 1) = g.testBit (p - 1) := by
  rw [g2b_testBit_step hg (by omega), show p - 1 + 1 = p by omega, Nat.testBit_lt_two_pow (g2b_lt hg p),
    Bool.false_xor]

/-- Settles O19: the code is linear, and a number and the next one differ in a block of low bits. -/
theorem grayCodeChangesOneBit : Obligations.GrayCodeChangesOneBit :=
  ⟨fun _ => rfl, g2b_eq_foldl, fun _ _ hp hx => ⟨g2b_gray hx, gray_next hp hx⟩,
    fun _ _ hp hg => ⟨g2b_testBit_top hp hg, fun _ hi => g2b_testBit_step hg (by omega)⟩, rfl, rfl⟩

end Sys2Proof.Machine
